-- ==== Sys2Proof/Word.lean ====
section
/-! DEFINITION. The two word widths of the block: the 64-bit data word (spec 00_scope R6, `REGW`) and the
input byte. All quantities are unsigned (00_scope R7). -/

namespace Sys2Proof

/-- A data word, an engine register or a table entry: 64 bits (00_scope R6). -/
abbrev Word := BitVec 64

/-- One byte of the input memory (00_scope R6). -/
abbrev Byte := BitVec 8

end Sys2Proof
end

