-- ==== Sys2Proof/Config.lean ====
section
/-! DEFINITION. What an implementation fixes (00_scope R6) as values for `State.reset`, and the one free value. The
parameters themselves stand in `State` (the lengths of its two stores, `imemBytes` and `imem`), so a claim over
every state holds for every choice of them. -/

namespace Sys2Proof

/-- `NCTX`: this hardware's default number of contexts (00_scope R6, D10). -/
def Config.nctx : Nat := 8

/-- `TSLOTS`: this hardware's default number of table slots (00_scope R6, D11). -/
def Config.tslots : Nat := 4

/-- `IMEM_BYTES` in `State.reset`. DESIGN CHOICE (log entry 2), unsafe: the spec leaves it OPEN in 0..2^64 (20_memory
R61, D12); the model takes the largest input memory. -/
def Config.imemBytes : Nat := 2 ^ 64

/-- What a byte of the input memory that nothing has written reads as. DESIGN CHOICE (log entry 3), unsafe: the
contents are a parameter of the run (93 I12). -/
def Config.unwritten : Byte := 0#8

/-- The free value of 20_memory R68 (93 I13): which of the values a raced byte may return is returned by the `n`-th
such draw. It has no body, so nothing can be proved of its value (log entry 4), safe. -/
opaque Config.raceDraw : Nat → Nat

end Sys2Proof
end

