-- ==== Sys2Proof/Syntax.lean ====
section
/-! DEFINITION. The block's commands as syntax: the transaction on the command port (30_encoding R80), the
fourteen opcodes (R85) and the decoded commands with their operands (R83, R89). -/

namespace Sys2Proof

/-- What the host sends for one command (30_encoding R80): the command word and two operand words. -/
structure Transaction where
  /-- `CMD`, the command word (30_encoding R81). -/
  cmd : BitVec 32
  /-- `DATA0`. -/
  data0 : Word
  /-- `DATA1`. -/
  data1 : Word
  deriving DecidableEq, Repr

/-- The rows of the opcode table (30_encoding R85), named by their mnemonics. -/
inductive Opcode where
  | regRead | regWrite | psetCommit | selfTest | reflect
  | bwBind | tbBind | unbind | reset | updateByte | updateBlock | value | ctxRead | tableRead
  deriving DecidableEq, Repr

/-- A decoded command, one constructor per row of the opcode table, with the operands its rule names
(30_encoding R83, R85). `c` is a context index, `sel` a selector. -/
inductive Instr where
  /-- `REG_READ sel` (40_parameter_set R101). -/
  | regRead (sel : BitVec 8)
  /-- `REG_WRITE sel, value` (40_parameter_set R102). -/
  | regWrite (sel : BitVec 8) (value : Word)
  /-- `PSET_COMMIT` (40_parameter_set R103). -/
  | psetCommit
  /-- `SELF_TEST` (40_parameter_set R105). -/
  | selfTest
  /-- `REFLECT width, value` (41_bit_reflector R123); the width is the true width 1..64 (30_encoding R89). -/
  | reflect (width : Nat) (value : Word)
  /-- `BW_BIND c` (42_bitwise_engine R134). -/
  | bwBind (c : BitVec 8)
  /-- `TB_BIND c` (43_table_engine R158). -/
  | tbBind (c : BitVec 8)
  /-- `UNBIND c` (44_context_commands R182). -/
  | unbind (c : BitVec 8)
  /-- `RESET c`, the engine reset (44_context_commands R183). -/
  | reset (c : BitVec 8)
  /-- `UPDATE_BYTE c, byte` (44_context_commands R184). -/
  | updateByte (c : BitVec 8) (byte : Byte)
  /-- `UPDATE_BLOCK c, offset, length` (44_context_commands R185). -/
  | updateBlock (c : BitVec 8) (off : Word) (len : Word)
  /-- `VALUE c` (44_context_commands R186). -/
  | value (c : BitVec 8)
  /-- `CTX_READ c, sel` (44_context_commands R187). -/
  | ctxRead (c : BitVec 8) (sel : BitVec 8)
  /-- `TABLE_READ c, index` (43_table_engine R159). -/
  | tableRead (c : BitVec 8) (index : BitVec 8)
  deriving DecidableEq, Repr

end Sys2Proof
end

