-- ==== Sys2Proof/Machine/State.lean ====
section
/-! DEFINITION. The state of the block (10_state R30) beside the platform's input memory and the host's side of the
command port, all plain data; the reasons a step can stop; and the state after hardware reset (10_state R50). -/

namespace Sys2Proof.Machine

/-- A ParameterSet record, laid out as 10_state R34 gives it. `mask` and `msb` are derived when it is built. -/
structure ParamSet where
  width : BitVec 7
  poly : Word
  init : Word
  refin : Bool
  refout : Bool
  xorout : Word
  check : Word
  name : Word
  mask : Word
  msb : Word
  deriving DecidableEq, Repr

/-- The all-zero record (10_state R50, 44_context_commands R182). -/
def ParamSet.zero : ParamSet :=
  ⟨0#7, 0#64, 0#64, false, false, 0#64, 0#64, 0#64, 0#64, 0#64⟩

/-- The staging registers `STG` (10_state R31). -/
structure Staging where
  width : Word
  poly : Word
  init : Word
  flags : Word
  xorout : Word
  check : Word
  name : Word
  deriving DecidableEq, Repr

/-- The staging registers after hardware reset (10_state R50). -/
def Staging.zero : Staging := ⟨0#64, 0#64, 0#64, 0#64, 0#64, 0#64, 0#64⟩

/-- `KIND` of a context (10_state R38). The encoding's value 3 is reserved and never written, so it has no name here. -/
inductive Kind where
  /-- Unbound: no engine instance. -/
  | none
  /-- A bitwise engine. -/
  | bitwise
  /-- A table engine. -/
  | table
  deriving DecidableEq, Repr

/-- An engine context (10_state R37). -/
structure Context where
  kind : Kind
  ps : ParamSet
  start : Word
  reg : Word
  slot : BitVec 8
  deriving DecidableEq, Repr

/-- An unbound context: `KIND = NONE` and every field 0 (10_state R50, 44_context_commands R182). -/
def Context.unbound : Context := ⟨.none, .zero, 0#64, 0#64, 0#8⟩

/-- A slot of the table store (10_state R41); `table` holds `T[0]` to `T[255]`. -/
structure Slot where
  valid : Bool
  key : ParamSet
  table : List Word
  deriving DecidableEq, Repr

/-- A slot after hardware reset (10_state R50). The entries are unspecified there and no command reads them; DESIGN
CHOICE 0 (log entry 5), safe: 93 I7 allows it. -/
def Slot.empty : Slot := ⟨false, .zero, List.replicate 256 0#64⟩

/-- What the block returns for one command (30_encoding R80). -/
structure Response where
  rcode : BitVec 8
  rdata0 : Word
  rdata1 : Word
  deriving DecidableEq, Repr

/-- The input memory as (address, byte) pairs: addresses strictly rising, and no byte equal to `Config.unwritten`. -/
abbrev Memory := List Host.Cell

/-- One thing the outside world does to the block or to the input memory (70_reset R242). -/
inductive HostAction where
  /-- A host issues a command; `racing` are the writes other agents make to the input memory while the command
  runs, in their order (20_memory R68). -/
  | issue (t : Transaction) (racing : List Host.Cell)
  /-- A host writes a byte of the input memory while no command runs. -/
  | writeInput (addr : Nat) (byte : Byte)
  /-- The hardware reset, between commands, or during the command `inFlight`, which it aborts (70_reset R231). -/
  | hardReset (inFlight : Option Transaction)
  deriving DecidableEq, Repr

/-- The machine: the block's state (10_state R30), the platform's input memory (20_memory R61), and the model's own
bookkeeping of the command port (70_reset R241). `NCTX` is the length of `ctx` and `TSLOTS` that of `slots`. -/
structure State where
  /-- `STG` (10_state R31). -/
  stg : Staging
  /-- `APS` (10_state R34). -/
  aps : ParamSet
  /-- `APS_VALID` (10_state R35). -/
  apsValid : Bool
  /-- `ctx[0 .. NCTX-1]` (10_state R37). -/
  ctx : List Context
  /-- `slot[0 .. TSLOTS-1]` (10_state R41). -/
  slots : List Slot
  /-- `CACHE_BUILDS` (10_state R42). -/
  cacheBuilds : Word
  /-- `CACHE_HITS` (10_state R42). -/
  cacheHits : Word
  /-- `LAST_ERR` (10_state R43). -/
  lastErr : BitVec 8
  /-- `ERR_DATA0` (10_state R43). -/
  errData0 : Word
  /-- `ERR_DATA1` (10_state R43). -/
  errData1 : Word
  /-- `ERR_DATA2` (10_state R43). -/
  errData2 : Word
  /-- `IMEM_BYTES` (00_scope R6, 20_memory R61): a parameter; no step changes it. -/
  imemBytes : Nat
  /-- `IMEM` (20_memory R61): the platform's; no command writes it. -/
  imem : Memory
  /-- The model's own: the host's actions still to happen, oldest first (70_reset R241; log entries 1 and 6). -/
  pending : List HostAction
  /-- The model's own: the responses delivered so far, oldest first (70_reset R241; log entry 7). -/
  responses : List Response
  /-- The model's own: what other agents write to the input memory while the command in hand runs (20_memory R68; log
  entry 4); empty between commands. -/
  racing : List Host.Cell
  /-- The model's own: the number of draws of `Config.raceDraw` so far (20_memory R68; log entry 4). -/
  draws : Nat
  deriving DecidableEq, Repr

/-- Why a step stops with a fault. No command raises one: every error of the block is a response (93, end of part 1). -/
inductive Fault where
  /-- Raised by a step whose host action writes the input memory at an address it does not have (at or beyond
  `IMEM_BYTES`, 20_memory R61): the platform broke its contract. Safe: the machine stops (log entry 9). -/
  | noSuchInputByte (addr : Nat)
  deriving DecidableEq, Repr

/-- Why a step has no meaning for an instruction. -/
inductive Refusal where
  /-- Raised by `exec` for an instruction that has no meaning yet; no arm of `exec` answers it. Safe: the machine
  stops. -/
  | notModelled (mnemonic : String)
  deriving DecidableEq, Repr

/-- The block right after hardware reset (10_state R50, 70_reset R230) with `nctx` contexts, `tslots` table slots and
the given input memory, and nothing on the command port. -/
def State.afterReset (nctx tslots imemBytes : Nat) (imem : Memory) : State where
  stg := .zero
  aps := .zero
  apsValid := false
  ctx := List.replicate nctx .unbound
  slots := List.replicate tslots .empty
  cacheBuilds := 0#64
  cacheHits := 0#64
  lastErr := 0#8
  errData0 := 0#64
  errData1 := 0#64
  errData2 := 0#64
  imemBytes := imemBytes
  imem := imem
  pending := []
  responses := []
  racing := []
  draws := 0

/-- The machine right after reset, with this hardware's default parameters (00_scope R6; `IMEM_BYTES` by log entry 2)
and an input memory nothing has written (log entry 3). -/
def State.reset : State := State.afterReset Config.nctx Config.tslots Config.imemBytes []

end Sys2Proof.Machine
end

