-- ==== Sys2Proof/Machine/Flags.lean ====
section
/-! DEFINITION. The bit layouts the spec gives its flag words: the FLAGS layout of 10_state R33 (`REFIN`, `REFOUT`),
`KIND` (R38) and `STATUS` (R45). The block has no condition codes (R47). -/

namespace Sys2Proof.Machine

/-- `REFIN = FLAGS[0]` (10_state R33). -/
def refinOf (flags : Word) : Bool := flags.getLsbD 0

/-- `REFOUT = FLAGS[1]` (10_state R33). -/
def refoutOf (flags : Word) : Bool := flags.getLsbD 1

/-- One bit as a data word. -/
def bitWord (b : Bool) : Word := if b then 1#64 else 0#64

/-- `refout << 1 | refin` (10_state R45, 44_context_commands R187). -/
def ParamSet.flagsWord (p : ParamSet) : Word := (bitWord p.refout <<< 1) ||| bitWord p.refin

/-- What a write to `STG_FLAGS` stores: bits 1:0, the reserved bits 63:2 reading 0 (10_state R33, R46). -/
def storedFlags (value : Word) : Word := value &&& 3#64

/-- The `KIND` encoding (10_state R38). -/
def Kind.code : Kind → BitVec 2
  | .none => 0#2
  | .bitwise => 1#2
  | .table => 2#2

/-- `STATUS`: bit 0 is `APS_VALID`, the others read 0 (10_state R45). -/
def statusWord (apsValid : Bool) : Word := bitWord apsValid

end Sys2Proof.Machine
end

