-- ==== Sys2Proof/Machine/Operands.lean ====
section
/-! DEFINITION. The operand forms of 30_encoding R83 that select a register or a field: the register map of 10_state R45
and the context field selectors of 44_context_commands R187, as names with their selectors and contents. -/

namespace Sys2Proof.Machine

/-- The mapped registers (10_state R45). -/
inductive Reg where
  | stgWidth | stgPoly | stgInit | stgFlags | stgXorout | stgCheck | stgName
  | apsWidth | apsPoly | apsInit | apsFlags | apsXorout | apsCheck | apsName | apsMask | apsMsb
  | status | cacheBuilds | cacheHits | lastErr | errData0 | errData1 | errData2
  | cfgNctx | cfgTslots | id
  deriving DecidableEq, Repr

/-- The `sel` column of 10_state R45. -/
def Reg.sel : Reg → BitVec 8
  | .stgWidth => 0x00#8
  | .stgPoly => 0x01#8
  | .stgInit => 0x02#8
  | .stgFlags => 0x03#8
  | .stgXorout => 0x04#8
  | .stgCheck => 0x05#8
  | .stgName => 0x06#8
  | .apsWidth => 0x10#8
  | .apsPoly => 0x11#8
  | .apsInit => 0x12#8
  | .apsFlags => 0x13#8
  | .apsXorout => 0x14#8
  | .apsCheck => 0x15#8
  | .apsName => 0x16#8
  | .apsMask => 0x17#8
  | .apsMsb => 0x18#8
  | .status => 0x20#8
  | .cacheBuilds => 0x21#8
  | .cacheHits => 0x22#8
  | .lastErr => 0x23#8
  | .errData0 => 0x24#8
  | .errData1 => 0x25#8
  | .errData2 => 0x26#8
  | .cfgNctx => 0x30#8
  | .cfgTslots => 0x31#8
  | .id => 0x38#8

/-- Every mapped register, in the order of 10_state R45. -/
def Reg.all : List Reg :=
  [.stgWidth, .stgPoly, .stgInit, .stgFlags, .stgXorout, .stgCheck, .stgName,
   .apsWidth, .apsPoly, .apsInit, .apsFlags, .apsXorout, .apsCheck, .apsName, .apsMask, .apsMsb,
   .status, .cacheBuilds, .cacheHits, .lastErr, .errData0, .errData1, .errData2, .cfgNctx, .cfgTslots, .id]

/-- The register a selector names; the other selectors are reserved (10_state R45). -/
def Reg.ofSel (sel : BitVec 8) : Option Reg := Reg.all.find? fun r => r.sel == sel

/-- `NCTX`, the number of engine contexts (00_scope R6, 10_state R37). -/
def State.nctx (s : State) : Nat := s.ctx.length

/-- `TSLOTS`, the number of table-store slots (00_scope R6, 10_state R41). -/
def State.tslots (s : State) : Nat := s.slots.length

/-- The `ID` register: "CRC" and command-set version 1 (10_state R44). -/
def idWord : Word := 0x0000000043524301#64

/-- The `content` column of 10_state R45. -/
def Reg.content (s : State) : Reg → Word
  | .stgWidth => s.stg.width
  | .stgPoly => s.stg.poly
  | .stgInit => s.stg.init
  | .stgFlags => s.stg.flags
  | .stgXorout => s.stg.xorout
  | .stgCheck => s.stg.check
  | .stgName => s.stg.name
  | .apsWidth => s.aps.width.setWidth 64
  | .apsPoly => s.aps.poly
  | .apsInit => s.aps.init
  | .apsFlags => s.aps.flagsWord
  | .apsXorout => s.aps.xorout
  | .apsCheck => s.aps.check
  | .apsName => s.aps.name
  | .apsMask => s.aps.mask
  | .apsMsb => s.aps.msb
  | .status => statusWord s.apsValid
  | .cacheBuilds => s.cacheBuilds
  | .cacheHits => s.cacheHits
  | .lastErr => s.lastErr.setWidth 64
  | .errData0 => s.errData0
  | .errData1 => s.errData1
  | .errData2 => s.errData2
  | .cfgNctx => BitVec.ofNat 64 s.nctx
  | .cfgTslots => BitVec.ofNat 64 s.tslots
  | .id => idWord

/-- The clear of the error record, all four words (10_state R46): what a host does where another machine would
return from an exception (60_exceptions R207). -/
def State.clearErr (s : State) : State :=
  { s with lastErr := 0#8, errData0 := 0#64, errData1 := 0#64, errData2 := 0#64 }

/-- What a write of `value` to a register does; `none` for a read-only register (10_state R46, 40_parameter_set R102). -/
def Reg.store (s : State) (value : Word) : Reg → Option State
  | .stgWidth => some { s with stg := { s.stg with width := value } }
  | .stgPoly => some { s with stg := { s.stg with poly := value } }
  | .stgInit => some { s with stg := { s.stg with init := value } }
  | .stgFlags => some { s with stg := { s.stg with flags := storedFlags value } }
  | .stgXorout => some { s with stg := { s.stg with xorout := value } }
  | .stgCheck => some { s with stg := { s.stg with check := value } }
  | .stgName => some { s with stg := { s.stg with name := value } }
  | .lastErr => some s.clearErr
  | .apsWidth | .apsPoly | .apsInit | .apsFlags | .apsXorout | .apsCheck | .apsName | .apsMask | .apsMsb => none
  | .status | .cacheBuilds | .cacheHits | .errData0 | .errData1 | .errData2 | .cfgNctx | .cfgTslots | .id => none

/-- The fields `CTX_READ` can select (44_context_commands R187). -/
inductive CtxField where
  | width | poly | init | flags | xorout | check | name | mask | msb | kind | start | slot
  deriving DecidableEq, Repr

/-- The `sel` column of 44_context_commands R187. -/
def CtxField.sel : CtxField → BitVec 8
  | .width => 0x00#8
  | .poly => 0x01#8
  | .init => 0x02#8
  | .flags => 0x03#8
  | .xorout => 0x04#8
  | .check => 0x05#8
  | .name => 0x06#8
  | .mask => 0x07#8
  | .msb => 0x08#8
  | .kind => 0x09#8
  | .start => 0x0A#8
  | .slot => 0x0B#8

/-- Every context field, in the order of 44_context_commands R187. -/
def CtxField.all : List CtxField :=
  [.width, .poly, .init, .flags, .xorout, .check, .name, .mask, .msb, .kind, .start, .slot]

/-- The context field a selector names; 0x0C to 0xFF are reserved (44_context_commands R187). -/
def CtxField.ofSel (sel : BitVec 8) : Option CtxField := CtxField.all.find? fun f => f.sel == sel

/-- The `value` column of 44_context_commands R187. -/
def CtxField.content (x : Context) : CtxField → Word
  | .width => x.ps.width.setWidth 64
  | .poly => x.ps.poly
  | .init => x.ps.init
  | .flags => x.ps.flagsWord
  | .xorout => x.ps.xorout
  | .check => x.ps.check
  | .name => x.ps.name
  | .mask => x.ps.mask
  | .msb => x.ps.msb
  | .kind => x.kind.code.setWidth 64
  | .start => x.start
  | .slot => x.slot.setWidth 64

end Sys2Proof.Machine
end

