-- ==== Sys2Proof/Machine/Ops.lean ====
section
/-! DEFINITION. The shared operations: responding (30_encoding R80), raising an error (60_exceptions R201, the block's
one form of taking an exception, R206), the common context checks (44_context_commands R181), the input memory
(20_memory R61, R68) and the hardware reset (70_reset R230). -/

namespace Sys2Proof.Machine

/-! ### Responses and errors -/

/-- The ten errors (60_exceptions R200). -/
inductive ErrCode where
  | illegalCommand | invalidParameter | checksumMismatch | noParams | ctxRange | ctxUnbound | wrongKind | cacheFull
  | illegalRegister | memRange
  deriving DecidableEq, Repr

/-- The `RCODE` column of 60_exceptions R200. -/
def ErrCode.code : ErrCode → BitVec 8
  | .illegalCommand => 1#8
  | .invalidParameter => 2#8
  | .checksumMismatch => 3#8
  | .noParams => 4#8
  | .ctxRange => 5#8
  | .ctxUnbound => 6#8
  | .wrongKind => 7#8
  | .cacheFull => 8#8
  | .illegalRegister => 9#8
  | .memRange => 10#8

/-- `respond(code, d0, d1)`: deliver the response (30_encoding R80). -/
def respond (code : BitVec 8) (d0 d1 : Word) (s : State) : State :=
  { s with responses := s.responses ++ [⟨code, d0, d1⟩] }

/-- `respond(OK, d0, 0)` (30_encoding R80, 60_exceptions R200). -/
def respondOk (d0 : Word) (s : State) : State := respond 0#8 d0 0#64 s

/-- `raise E(d0, d1, d2)`: write the error record, respond, and write nothing else (60_exceptions R201). -/
def raiseError (e : ErrCode) (d0 d1 d2 : Word) (s : State) : State :=
  respond e.code d0 d1 { s with lastErr := e.code, errData0 := d0, errData1 := d1, errData2 := d2 }

/-- What a command word that spells no command does (30_encoding R82, R86). -/
def illegalCommand (cmd : BitVec 32) (s : State) : State :=
  raiseError .illegalCommand (cmd.setWidth 64) 0#64 0#64 s

/-! ### Contexts -/

/-- `ctx[c]` (10_state R37); beyond the last context, which no command reaches, an unbound one. -/
def State.ctxAt (s : State) (c : Nat) : Context := s.ctx.getD c .unbound

/-- `ctx[c] <- x`. -/
def State.setCtx (s : State) (c : Nat) (x : Context) : State := { s with ctx := s.ctx.set c x }

/-- `slot[k]` (10_state R41); beyond the last slot, which no command reaches, an empty one. -/
def State.slotAt (s : State) (k : Nat) : Slot := s.slots.getD k .empty

/-- The last check of the decode procedure, `CTX_RANGE` (30_encoding R88), then the command's own rule on `ctx[c]`. -/
def onContext (c : BitVec 8) (s : State) (act : Context → State) : State :=
  if c.toNat < s.nctx then act (s.ctxAt c.toNat)
  else raiseError .ctxRange (c.setWidth 64) 0#64 0#64 s

/-- `CTX_UNBOUND` for a context of kind NONE (44_context_commands R181), else the command's own rule. -/
def ifBound (c : BitVec 8) (x : Context) (s : State) (act : State) : State :=
  if x.kind = .none then raiseError .ctxUnbound (c.setWidth 64) 0#64 0#64 s else act

/-- `CTX_RANGE`, then `CTX_UNBOUND`, then the command's own rule on the bound context (44_context_commands R181). -/
def onBound (c : BitVec 8) (s : State) (act : Context → State) : State :=
  onContext c s fun x => ifBound c x s (act x)

/-! ### The input memory -/

/-- The canonical form of the input memory: addresses strictly rising, no listed byte reading as an unlisted one. -/
def Memory.wf : Memory → Bool
  | [] => true
  | [(_, b)] => b != Config.unwritten
  | (a, b) :: (a', b') :: rest => b != Config.unwritten && decide (a < a') && Memory.wf ((a', b') :: rest)

/-- The byte at an address. -/
def Memory.read (m : Memory) (a : Nat) : Byte :=
  match m with
  | [] => Config.unwritten
  | (a', b) :: rest => if a = a' then b else Memory.read rest a

/-- Write a byte, keeping the canonical form. -/
def Memory.write (m : Memory) (a : Nat) (b : Byte) : Memory :=
  match m with
  | [] => if b = Config.unwritten then [] else [(a, b)]
  | (a', b') :: rest =>
    if a < a' then (if b = Config.unwritten then (a', b') :: rest else (a, b) :: (a', b') :: rest)
    else if a = a' then (if b = Config.unwritten then rest else (a, b) :: rest)
    else (a', b') :: Memory.write rest a b

/-- Write bytes one after the other, in their order. -/
def Memory.writeAll (m : Memory) (cells : List Host.Cell) : Memory :=
  cells.foldl (fun m cell => Memory.write m cell.1 cell.2) m

/-- The values other agents write to an address while the command in hand runs, in their order (20_memory R68). -/
def State.racingAt (s : State) (a : Nat) : List Byte :=
  (s.racing.filter fun cell => cell.1 = a).map fun cell => cell.2

/-- `MemRead(a, 1)` (20_memory R61). A byte another agent writes meanwhile reads as the old value or any value written
to it during the command, by a draw of the free value `Config.raceDraw` (20_memory R68, 93 I13; log entry 4). -/
def memRead (s : State) (a : Nat) : Byte × State :=
  match s.racingAt a with
  | [] => (s.imem.read a, s)
  | v :: vs =>
    let values := s.imem.read a :: v :: vs
    (values.getD (Config.raceDraw s.draws % values.length) (s.imem.read a), { s with draws := s.draws + 1 })

/-- The first of these cells that lies outside the input memory (20_memory R61). -/
def State.outsideInput (s : State) (cells : List Host.Cell) : Option Host.Cell :=
  cells.find? fun cell => decide (s.imemBytes ≤ cell.1)

/-- A host's write of one input byte between commands (70_reset R242), or the fault of log entry 9. -/
def hostWrite (a : Nat) (b : Byte) (s : State) : Host.Outcome State Fault Refusal :=
  if a < s.imemBytes then .next { s with imem := s.imem.write a b } else .fault (.noSuchInputByte a)

/-- After a command: what other agents wrote meanwhile is in the input memory. -/
def landRacing (s : State) : State :=
  { s with imem := s.imem.writeAll s.racing, racing := [] }

/-! ### Hardware reset -/

/-- The hardware reset (70_reset R230, R231): the block's state at the values of 10_state R50. The input memory, the
parameters and what the host still has to do are not the block's and stay. -/
def hardReset (s : State) : State :=
  { State.afterReset s.nctx s.tslots s.imemBytes s.imem with
    pending := s.pending, responses := s.responses, draws := s.draws }

end Sys2Proof.Machine
end

