-- ==== Sys2Proof/Machine/Reflector.lean ====
section
/-! DEFINITION. The masks of 00_scope R11, the bit-reflector network (41_bit_reflector R120) and `REFLECT` (R123). -/

namespace Sys2Proof.Machine

/-- `mask(w) = 2^w - 1`, computed in unbounded arithmetic (00_scope R11). -/
def maskOf (w : Nat) : Word := BitVec.ofNat 64 (2 ^ w - 1)

/-- `msb(w) = 2^(w-1)` (00_scope R11). -/
def msbOf (w : Nat) : Word := BitVec.ofNat 64 (2 ^ (w - 1))

/-- The low `k` output bits of the network for width `w`: output bit `j` is input bit `w-1-j` (41_bit_reflector R120). -/
def reverseUpTo (v : Word) (w : Nat) : Nat → Word
  | 0 => 0#64
  | k + 1 => reverseUpTo v w k ||| (bitWord (v.getLsbD (w - 1 - k)) <<< k)

/-- `reverse(v, w)` for `w` in 1..64; output bits at `w` and above are 0 (41_bit_reflector R120). -/
def reverse (v : Word) (w : Nat) : Word := reverseUpTo v w w

/-- `reverse(b, 8)` on an input byte (41_bit_reflector R122). -/
def reverseByte (b : Byte) : Byte := (reverse (b.setWidth 64) 8).setWidth 8

/-- `REFLECT width, value` (41_bit_reflector R123): no parameter set is read and nothing is written. -/
def execReflect (width : Nat) (value : Word) (s : State) : Host.Outcome State Fault Refusal :=
  .next (respondOk (reverse value width) s)

end Sys2Proof.Machine
end

