-- ==== Sys2Proof/Machine/Bitwise.lean ====
section
/-! DEFINITION. The bitwise engine: its datapath (42_bitwise_engine R130-R132, R135) and `BW_BIND` (R134). -/

namespace Sys2Proof.Machine

/-- One bit step of `BW_STEP` (42_bitwise_engine R131): test bit `width-1`, shift left by one, and XOR `poly` when the
tested bit differs from the input bit. -/
def bwBit (p : ParamSet) (reg : Word) (bit : Bool) : Word :=
  let top := (reg &&& p.msb) != 0#64
  if xor top bit then (reg <<< 1) ^^^ p.poly else reg <<< 1

/-- `BW_STEP(p, reg, b)`: the byte's bits from the most significant to the least, the byte reversed first when
`refin` (42_bitwise_engine R131). -/
def bwStep (p : ParamSet) (reg : Word) (b : Byte) : Word :=
  let b := if p.refin then reverseByte b else b
  [7, 6, 5, 4, 3, 2, 1, 0].foldl (fun r j => bwBit p r (b.getLsbD j)) reg

/-- `BW_VALUE(p, reg)` (42_bitwise_engine R132). -/
def bwValue (p : ParamSet) (reg : Word) : Word :=
  ((if p.refout then reverse reg p.width.toNat else reg) ^^^ p.xorout) &&& p.mask

/-- `BW_RUN(p, reg, bytes)` (42_bitwise_engine R135). -/
def bwRun (p : ParamSet) (reg : Word) (bytes : List Byte) : Word := bytes.foldl (bwStep p) reg

/-- A context freshly bound as a bitwise engine over `p`, which performs the engine reset (42_bitwise_engine R130,
R134). -/
def bwContext (p : ParamSet) : Context where
  kind := .bitwise
  ps := p
  start := p.init
  reg := p.init
  slot := 0#8

/-- `BW_BIND c` (42_bitwise_engine R134). -/
def execBwBind (c : BitVec 8) (s : State) : Host.Outcome State Fault Refusal :=
  .next (onContext c s fun _ =>
    if s.apsValid then respondOk 0#64 (s.setCtx c.toNat (bwContext s.aps))
    else raiseError .noParams 0#64 0#64 0#64 s)

end Sys2Proof.Machine
end

