-- ==== Sys2Proof/Machine/TableEngine.lean ====
section
/-! DEFINITION. The lookup-table generator (43_table_engine R150, R151), the table engine's datapath (R153-R155), the
table store (10_state R36, 43_table_engine R156, R157), `TB_BIND` (R158) and `TABLE_READ` (R159). -/

namespace Sys2Proof.Machine

/-- The helper parameter set `p'` (43_table_engine R150). -/
def helperPS (p : ParamSet) : ParamSet := { p with init := 0#64, refout := p.refin, xorout := 0#64 }

/-- Entry `i` of `TABLE_GEN(p)`: a fresh bitwise engine over `p'` fed the one byte `i` (43_table_engine R151). -/
def tableEntry (p : ParamSet) (i : Nat) : Word :=
  bwValue (helperPS p) (bwStep (helperPS p) (helperPS p).init (BitVec.ofNat 8 i))

/-- `TABLE_GEN(p)`: the 256 entries (43_table_engine R151). -/
def tableGen (p : ParamSet) : List Word := (List.range 256).map (tableEntry p)

/-- `TB_START(p)` (43_table_engine R153). -/
def tbStart (p : ParamSet) : Word := if p.refin then reverse p.init p.width.toNat else p.init

/-- `T[x & 0xFF]`. -/
def tableAt (t : List Word) (x : Word) : Word := t.getD (x &&& 0xFF#64).toNat 0#64

/-- `TB_STEP(p, T, reg, b)` with its three cases in their order (43_table_engine R154). -/
def tbStep (p : ParamSet) (t : List Word) (reg : Word) (b : Byte) : Word :=
  if p.refin then (reg >>> 8) ^^^ tableAt t (b.setWidth 64 ^^^ reg)
  else if p.width.toNat < 8 then tableAt t (b.setWidth 64 ^^^ (reg <<< (8 - p.width.toNat)))
  else tableAt t (b.setWidth 64 ^^^ (reg >>> (p.width.toNat - 8))) ^^^ (reg <<< 8)

/-- `TB_VALUE(p, reg)`, grouped as `BW_VALUE` is (43_table_engine R155, 90_conflicts C2). -/
def tbValue (p : ParamSet) (reg : Word) : Word :=
  ((if p.refout ≠ p.refin then reverse reg p.width.toNat else reg) ^^^ p.xorout) &&& p.mask

/-- `TB_RUN(p, T, reg, bytes)` (43_table_engine R160). -/
def tbRun (p : ParamSet) (t : List Word) (reg : Word) (bytes : List Byte) : Word := bytes.foldl (tbStep p t) reg

/-- ParameterSet equality: all eight fields, the name among them (10_state R36). -/
def ParamSet.same (p q : ParamSet) : Bool :=
  p.width == q.width && p.poly == q.poly && p.init == q.init && p.xorout == q.xorout && p.check == q.check &&
    p.refin == q.refin && p.refout == q.refout && p.name == q.name

/-- What a table-store lookup finds (43_table_engine R157). -/
inductive Lookup where
  | hit (k : Nat)
  | miss (k : Nat)
  | full
  deriving DecidableEq, Repr

/-- `LOOKUP(p)`: the valid slot with that key, else the lowest invalid slot, else full (43_table_engine R156, R157). -/
def lookup (slots : List Slot) (p : ParamSet) : Lookup :=
  match slots.findIdx? (fun sl => sl.valid && sl.key.same p) with
  | some k => .hit k
  | none =>
    match slots.findIdx? (fun sl => !sl.valid) with
    | some k => .miss k
    | none => .full

/-- A context freshly bound as a table engine over `p` with slot `k`, which performs the engine reset (43_table_engine
R158). -/
def tbContext (p : ParamSet) (k : Nat) : Context where
  kind := .table
  ps := p
  start := tbStart p
  reg := tbStart p
  slot := BitVec.ofNat 8 k

/-- The slot a build for `p` leaves (43_table_engine R158). -/
def builtSlot (p : ParamSet) : Slot := ⟨true, p, tableGen p⟩

/-- `TB_BIND c` (43_table_engine R158). -/
def execTbBind (c : BitVec 8) (s : State) : Host.Outcome State Fault Refusal :=
  .next (onContext c s fun _ =>
    if s.apsValid then
      match lookup s.slots s.aps with
      | .hit k =>
        respondOk 0#64 ({ s with cacheHits := s.cacheHits + 1#64 }.setCtx c.toNat (tbContext s.aps k))
      | .miss k =>
        respondOk 0#64 ({ s with slots := s.slots.set k (builtSlot s.aps), cacheBuilds := s.cacheBuilds + 1#64 }.setCtx
          c.toNat (tbContext s.aps k))
      | .full => raiseError .cacheFull (c.setWidth 64) (BitVec.ofNat 64 s.tslots) 0#64 s
    else raiseError .noParams 0#64 0#64 0#64 s)

/-- `TABLE_READ c, i` (43_table_engine R159). -/
def execTableRead (c index : BitVec 8) (s : State) : Host.Outcome State Fault Refusal :=
  .next (onBound c s fun x =>
    if x.kind ≠ .table then raiseError .wrongKind (c.setWidth 64) (x.kind.code.setWidth 64) 0#64 s
    else respondOk ((s.slotAt x.slot.toNat).table.getD index.toNat 0#64) s)

end Sys2Proof.Machine
end

