-- ==== Sys2Proof/Machine/ContextCommands.lean ====
section
/-! DEFINITION. The context commands (44_context_commands): `UNBIND`, `RESET`, `UPDATE_BYTE`, `UPDATE_BLOCK`, `VALUE`,
`CTX_READ`, with the per-kind functions of R180. -/

namespace Sys2Proof.Machine

/-- The register after one input byte, by the context's kind (44_context_commands R180). -/
def stepReg (s : State) (x : Context) (b : Byte) : Word :=
  match x.kind with
  | .none => x.reg
  | .bitwise => bwStep x.ps x.reg b
  | .table => tbStep x.ps (s.slotAt x.slot.toNat).table x.reg b

/-- `STEP(c, b)` (44_context_commands R180). -/
def stepCtx (c : Nat) (b : Byte) (s : State) : State :=
  s.setCtx c { s.ctxAt c with reg := stepReg s (s.ctxAt c) b }

/-- `VAL(c)`, by the context's kind (44_context_commands R180). -/
def ctxValue (x : Context) : Word :=
  match x.kind with
  | .none => 0#64
  | .bitwise => bwValue x.ps x.reg
  | .table => tbValue x.ps x.reg

/-- The loop of `UPDATE_BLOCK`: `n` bytes from address `a`, each read and consumed before the next (44_context_commands
R185, 20_memory R67). -/
def feedRun (c : Nat) : Nat → Nat → State → State
  | 0, _, s => s
  | n + 1, a, s => feedRun c n (a + 1) (stepCtx c (memRead s a).1 (memRead s a).2)

/-- `UNBIND c` (44_context_commands R182). -/
def execUnbind (c : BitVec 8) (s : State) : Host.Outcome State Fault Refusal :=
  .next (onContext c s fun _ => respondOk 0#64 (s.setCtx c.toNat .unbound))

/-- `RESET c`, the engine reset (44_context_commands R183). -/
def execReset (c : BitVec 8) (s : State) : Host.Outcome State Fault Refusal :=
  .next (onBound c s fun x => respondOk 0#64 (s.setCtx c.toNat { x with reg := x.start }))

/-- `UPDATE_BYTE c, b` (44_context_commands R184). -/
def execUpdateByte (c : BitVec 8) (b : Byte) (s : State) : Host.Outcome State Fault Refusal :=
  .next (onBound c s fun _ => respondOk 0#64 (stepCtx c.toNat b s))

/-- `UPDATE_BLOCK c, off, len`; the range check is in unbounded arithmetic, before any read (44_context_commands R185). -/
def execUpdateBlock (c : BitVec 8) (off len : Word) (s : State) : Host.Outcome State Fault Refusal :=
  .next (onBound c s fun _ =>
    if s.imemBytes < off.toNat + len.toNat then raiseError .memRange off len 0#64 s
    else respondOk 0#64 (feedRun c.toNat len.toNat off.toNat s))

/-- `VALUE c` (44_context_commands R186). -/
def execValue (c : BitVec 8) (s : State) : Host.Outcome State Fault Refusal :=
  .next (onBound c s fun x => respondOk (ctxValue x) s)

/-- `CTX_READ c, sel`: the selector is checked first, and `KIND` reads on every context (44_context_commands R187). -/
def execCtxRead (c sel : BitVec 8) (s : State) : Host.Outcome State Fault Refusal :=
  .next (onContext c s fun x =>
    match CtxField.ofSel sel with
    | none => raiseError .illegalRegister (sel.setWidth 64) 0#64 0#64 s
    | some .kind => respondOk (CtxField.content x .kind) s
    | some f => ifBound c x s (respondOk (CtxField.content x f) s))

end Sys2Proof.Machine
end

