-- ==== Sys2Proof/Machine/ParameterSet.lean ====
section
/-! DEFINITION. The ParameterSet commands (40_parameter_set): `REG_READ`, `REG_WRITE`, `PSET_COMMIT`, `SELF_TEST`. -/

namespace Sys2Proof.Machine

/-- `MakePS` over the staging registers, for a width in 1..64 (40_parameter_set R100). -/
def makePS (g : Staging) : ParamSet where
  width := g.width.setWidth 7
  poly := g.poly &&& maskOf g.width.toNat
  init := g.init &&& maskOf g.width.toNat
  refin := refinOf g.flags
  refout := refoutOf g.flags
  xorout := g.xorout &&& maskOf g.width.toNat
  check := g.check &&& maskOf g.width.toNat
  name := g.name
  mask := maskOf g.width.toNat
  msb := msbOf g.width.toNat

/-- `CHECKSTR`, the nine bytes of "123456789" (40_parameter_set R104). -/
def checkStr : List Byte :=
  [0x31#8, 0x32#8, 0x33#8, 0x34#8, 0x35#8, 0x36#8, 0x37#8, 0x38#8, 0x39#8]

/-- `SelfTestValue(p)`: a fresh bitwise engine over `p` fed `CHECKSTR` (40_parameter_set R104). -/
def selfTestValue (p : ParamSet) : Word := bwValue p (bwRun p p.init checkStr)

/-- `REG_READ sel` (40_parameter_set R101). -/
def execRegRead (sel : BitVec 8) (s : State) : Host.Outcome State Fault Refusal :=
  .next (match Reg.ofSel sel with
    | some r => respondOk (r.content s) s
    | none => raiseError .illegalRegister (sel.setWidth 64) 0#64 0#64 s)

/-- `REG_WRITE sel, value` (40_parameter_set R102, 10_state R46). -/
def execRegWrite (sel : BitVec 8) (value : Word) (s : State) : Host.Outcome State Fault Refusal :=
  .next (match (Reg.ofSel sel).bind (Reg.store s value) with
    | some s' => respondOk 0#64 s'
    | none => raiseError .illegalRegister (sel.setWidth 64) 1#64 0#64 s)

/-- `PSET_COMMIT`: the width check is on all 64 bits of `STG.WIDTH` (40_parameter_set R103, 10_state R32). -/
def execPsetCommit (s : State) : Host.Outcome State Fault Refusal :=
  .next (if 1 ≤ s.stg.width.toNat ∧ s.stg.width.toNat ≤ 64 then
      respondOk 0#64 { s with aps := makePS s.stg, apsValid := true }
    else raiseError .invalidParameter s.stg.width 0#64 0#64 s)

/-- `SELF_TEST`, on a scratch register (40_parameter_set R105). -/
def execSelfTest (s : State) : Host.Outcome State Fault Refusal :=
  .next (if s.apsValid = false then raiseError .noParams 0#64 0#64 0#64 s
    else if selfTestValue s.aps ≠ s.aps.check then
      raiseError .checksumMismatch (selfTestValue s.aps) s.aps.check s.aps.name s
    else respondOk (selfTestValue s.aps) s)

end Sys2Proof.Machine
end

