-- ==== Sys2Proof/Machine/Dispatch.lean ====
section
/-! DEFINITION. The dispatch of a decoded command to its meaning (30_encoding R85). -/

namespace Sys2Proof.Machine

/-- Perform one decoded command. -/
def exec (i : Instr) (s : State) : Host.Outcome State Fault Refusal :=
  match i with
  | .regRead sel => Sys2Proof.Machine.execRegRead sel s
  | .regWrite sel value => Sys2Proof.Machine.execRegWrite sel value s
  | .psetCommit => Sys2Proof.Machine.execPsetCommit s
  | .selfTest => Sys2Proof.Machine.execSelfTest s
  | .reflect width value => Sys2Proof.Machine.execReflect width value s
  | .bwBind c => Sys2Proof.Machine.execBwBind c s
  | .tbBind c => Sys2Proof.Machine.execTbBind c s
  | .unbind c => Sys2Proof.Machine.execUnbind c s
  | .reset c => Sys2Proof.Machine.execReset c s
  | .updateByte c byte => Sys2Proof.Machine.execUpdateByte c byte s
  | .updateBlock c off len => Sys2Proof.Machine.execUpdateBlock c off len s
  | .value c => Sys2Proof.Machine.execValue c s
  | .ctxRead c sel => Sys2Proof.Machine.execCtxRead c sel s
  | .tableRead c index => Sys2Proof.Machine.execTableRead c index s

end Sys2Proof.Machine
end

