-- ==== Sys2Proof/WellFormed.lean ====
section
/-! DEFINITION. Which commands have an encoding. Context indices, selectors, bytes and data words fill their fields
exactly, so their types check them; the one operand with a proper range is `REFLECT`'s width, 1..64
(30_encoding R83, R89). -/

namespace Sys2Proof

/-- The command has an encoding: a `REFLECT` width is at least 1 and at most 64 (30_encoding R83). -/
def Instr.wf : Instr → Bool
  | .regRead _ => true
  | .regWrite _ _ => true
  | .psetCommit => true
  | .selfTest => true
  | .reflect width _ => decide (1 ≤ width) && decide (width ≤ 64)
  | .bwBind _ => true
  | .tbBind _ => true
  | .unbind _ => true
  | .reset _ => true
  | .updateByte _ _ => true
  | .updateBlock _ _ _ => true
  | .value _ => true
  | .ctxRead _ _ => true
  | .tableRead _ _ => true

end Sys2Proof
end

