-- ==== Sys2Proof/Decode.lean ====
section
/-! DEFINITION. The decoder of 30_encoding R88, total on every transaction and rejecting by name, and after it the
encoder from the same table (R81, R85). The `CTX_RANGE` check that ends R88's procedure depends on `NCTX` and so
stands in the context commands' meanings (`Machine/Ops.lean`, `onContext`). -/

namespace Sys2Proof

/-- Why a command word spells no command (30_encoding R82), one name per check. -/
inductive DecodeError where
  /-- `OP` is not in the opcode table. -/
  | unknownOpcode
  /-- `RSV != 0`. -/
  | reservedNonzero
  /-- The command takes no context and `CTX != 0`. -/
  | ctxNonzero
  /-- The command takes no immediate and `IMM8 != 0`. -/
  | immNonzero
  /-- The command is `REFLECT` and `IMM8[7:6] != 0`. -/
  | widthNonzero
  deriving DecidableEq, Repr

/-- `OP = CMD[7:0]` (30_encoding R81). -/
def opField (cmd : BitVec 32) : BitVec 8 := cmd.extractLsb' 0 8

/-- `CTX = CMD[15:8]` (30_encoding R81). -/
def ctxField (cmd : BitVec 32) : BitVec 8 := cmd.extractLsb' 8 8

/-- `IMM8 = CMD[23:16]` (30_encoding R81). -/
def immField (cmd : BitVec 32) : BitVec 8 := cmd.extractLsb' 16 8

/-- `RSV = CMD[31:24]` (30_encoding R81). -/
def rsvField (cmd : BitVec 32) : BitVec 8 := cmd.extractLsb' 24 8

/-- The `OP` column of 30_encoding R85. -/
def Opcode.code : Opcode → BitVec 8
  | .regRead => 0x01#8
  | .regWrite => 0x02#8
  | .psetCommit => 0x03#8
  | .selfTest => 0x04#8
  | .reflect => 0x05#8
  | .bwBind => 0x10#8
  | .tbBind => 0x11#8
  | .unbind => 0x12#8
  | .reset => 0x13#8
  | .updateByte => 0x14#8
  | .updateBlock => 0x15#8
  | .value => 0x16#8
  | .ctxRead => 0x17#8
  | .tableRead => 0x18#8

/-- Every row of 30_encoding R85, in its order. -/
def Opcode.all : List Opcode :=
  [.regRead, .regWrite, .psetCommit, .selfTest, .reflect, .bwBind, .tbBind, .unbind, .reset, .updateByte,
   .updateBlock, .value, .ctxRead, .tableRead]

/-- The row of 30_encoding R85 with this opcode, if there is one (R86: every other value is reserved). -/
def Opcode.ofCode (op : BitVec 8) : Option Opcode := Opcode.all.find? fun o => o.code == op

/-- The `C` column of 30_encoding R85: the command takes a context. -/
def Opcode.takesCtx : Opcode → Bool
  | .regRead | .regWrite | .psetCommit | .selfTest | .reflect => false
  | .bwBind | .tbBind | .unbind | .reset | .updateByte | .updateBlock | .value | .ctxRead | .tableRead => true

/-- The `I` column of 30_encoding R85: the command takes an immediate. -/
def Opcode.takesImm : Opcode → Bool
  | .regRead | .regWrite | .reflect | .updateByte | .ctxRead | .tableRead => true
  | .psetCommit | .selfTest | .bwBind | .tbBind | .unbind | .reset | .updateBlock | .value => false

/-- `REFLECT`'s width, `IMM8[5:0] + 1` (30_encoding R83). -/
def reflectWidth (imm : BitVec 8) : Nat := (imm.extractLsb' 0 6).toNat + 1

/-- Operand assembly (30_encoding R83): the command of row `op` with the transaction's fields and data words. -/
def Opcode.operands (op : Opcode) (t : Transaction) : Instr :=
  match op with
  | .regRead => .regRead (immField t.cmd)
  | .regWrite => .regWrite (immField t.cmd) t.data0
  | .psetCommit => .psetCommit
  | .selfTest => .selfTest
  | .reflect => .reflect (reflectWidth (immField t.cmd)) t.data0
  | .bwBind => .bwBind (ctxField t.cmd)
  | .tbBind => .tbBind (ctxField t.cmd)
  | .unbind => .unbind (ctxField t.cmd)
  | .reset => .reset (ctxField t.cmd)
  | .updateByte => .updateByte (ctxField t.cmd) (immField t.cmd)
  | .updateBlock => .updateBlock (ctxField t.cmd) t.data0 t.data1
  | .value => .value (ctxField t.cmd)
  | .ctxRead => .ctxRead (ctxField t.cmd) (immField t.cmd)
  | .tableRead => .tableRead (ctxField t.cmd) (immField t.cmd)

/-- The decode procedure of 30_encoding R88, its checks in its order; the data words it does not name are not checked
(R80). -/
def decode (t : Transaction) : Except DecodeError Instr :=
  match Opcode.ofCode (opField t.cmd) with
  | none => .error .unknownOpcode
  | some op =>
    if rsvField t.cmd ≠ 0#8 then .error .reservedNonzero
    else if op.takesCtx = false ∧ ctxField t.cmd ≠ 0#8 then .error .ctxNonzero
    else if op.takesImm = false ∧ immField t.cmd ≠ 0#8 then .error .immNonzero
    else if op = .reflect ∧ (immField t.cmd).extractLsb' 6 2 ≠ 0#2 then .error .widthNonzero
    else .ok (op.operands t)

/-- The command word with these fields and `RSV = 0` (30_encoding R81). -/
def cmdWord (op ctx imm : BitVec 8) : BitVec 32 :=
  (imm.setWidth 32 <<< 16) ||| (ctx.setWidth 32 <<< 8) ||| op.setWidth 32

/-- The row of the opcode table a command belongs to (30_encoding R85). -/
def Instr.opcode : Instr → Opcode
  | .regRead _ => .regRead
  | .regWrite _ _ => .regWrite
  | .psetCommit => .psetCommit
  | .selfTest => .selfTest
  | .reflect _ _ => .reflect
  | .bwBind _ => .bwBind
  | .tbBind _ => .tbBind
  | .unbind _ => .unbind
  | .reset _ => .reset
  | .updateByte _ _ => .updateByte
  | .updateBlock _ _ _ => .updateBlock
  | .value _ => .value
  | .ctxRead _ _ => .ctxRead
  | .tableRead _ _ => .tableRead

/-- The transaction that spells a command (30_encoding R81, R83, R85); data words it does not use are 0. `REFLECT`
encodes `width - 1` (R89). -/
def encode : Instr → Transaction
  | .regRead sel => ⟨cmdWord 0x01#8 0#8 sel, 0#64, 0#64⟩
  | .regWrite sel v => ⟨cmdWord 0x02#8 0#8 sel, v, 0#64⟩
  | .psetCommit => ⟨cmdWord 0x03#8 0#8 0#8, 0#64, 0#64⟩
  | .selfTest => ⟨cmdWord 0x04#8 0#8 0#8, 0#64, 0#64⟩
  | .reflect w v => ⟨cmdWord 0x05#8 0#8 (BitVec.ofNat 8 (w - 1)), v, 0#64⟩
  | .bwBind c => ⟨cmdWord 0x10#8 c 0#8, 0#64, 0#64⟩
  | .tbBind c => ⟨cmdWord 0x11#8 c 0#8, 0#64, 0#64⟩
  | .unbind c => ⟨cmdWord 0x12#8 c 0#8, 0#64, 0#64⟩
  | .reset c => ⟨cmdWord 0x13#8 c 0#8, 0#64, 0#64⟩
  | .updateByte c b => ⟨cmdWord 0x14#8 c b, 0#64, 0#64⟩
  | .updateBlock c off len => ⟨cmdWord 0x15#8 c 0#8, off, len⟩
  | .value c => ⟨cmdWord 0x16#8 c 0#8, 0#64, 0#64⟩
  | .ctxRead c sel => ⟨cmdWord 0x17#8 c sel, 0#64, 0#64⟩
  | .tableRead c i => ⟨cmdWord 0x18#8 c i, 0#64, 0#64⟩

/-- A transaction from its bits, bit 0 the least significant of `CMD`, `DATA0` above `CMD` and `DATA1` above `DATA0`. -/
def Transaction.ofBits (w : Nat) : Transaction :=
  ⟨BitVec.ofNat 32 w, BitVec.ofNat 64 (w >>> 32), BitVec.ofNat 64 (w >>> 96)⟩

/-- The transaction whose lowest `nbits` bits are `w`'s and whose other bits are 0. -/
def Transaction.ofTableWord (nbits w : Nat) : Transaction := Transaction.ofBits (w % 2 ^ nbits)

/-- The command the decoder reads from the first `nbits` bits of `w`, the other bits 0. -/
def decodeTableWord (nbits w : Nat) : Option Instr :=
  match decode (Transaction.ofTableWord nbits w) with
  | .ok i => some i
  | .error _ => none

/-- The directive `.word 0xXXXXXXXX` (30_encoding R89): a raw command word with both data words 0. -/
def rawWord (cmd : BitVec 32) : Transaction := ⟨cmd, 0#64, 0#64⟩

/-! One word per constructor, written out from 30_encoding R85, the examples of the command rules and 95_test_vectors. -/

theorem decode_regRead_word : decode ⟨0x00220001#32, 0, 0⟩ = .ok (.regRead 0x22#8) := by decide
theorem decode_regWrite_word : decode ⟨0x00010002#32, 0x04C11DB7#64, 0⟩ = .ok (.regWrite 0x01#8 0x04C11DB7#64) := by
  decide
theorem decode_psetCommit_word : decode ⟨0x00000003#32, 0, 0⟩ = .ok .psetCommit := by decide
theorem decode_selfTest_word : decode ⟨0x00000004#32, 0, 0⟩ = .ok .selfTest := by decide
theorem decode_reflect_word : decode ⟨0x003F0005#32, 1#64, 0⟩ = .ok (.reflect 64 1#64) := by decide
theorem decode_bwBind_word : decode ⟨0x00000110#32, 0, 0⟩ = .ok (.bwBind 1#8) := by decide
theorem decode_tbBind_word : decode ⟨0x0000FF11#32, 0, 0⟩ = .ok (.tbBind 255#8) := by decide
theorem decode_unbind_word : decode ⟨0x00000112#32, 0, 0⟩ = .ok (.unbind 1#8) := by decide
theorem decode_reset_word : decode ⟨0x00000013#32, 0, 0⟩ = .ok (.reset 0#8) := by decide
theorem decode_updateByte_word : decode ⟨0x00320114#32, 0, 0⟩ = .ok (.updateByte 1#8 0x32#8) := by decide
theorem decode_updateBlock_word : decode ⟨0x00000115#32, 8#64, 2#64⟩ = .ok (.updateBlock 1#8 8#64 2#64) := by decide
theorem decode_value_word : decode ⟨0x00000216#32, 0, 0⟩ = .ok (.value 2#8) := by decide
theorem decode_ctxRead_word : decode ⟨0x00070217#32, 0, 0⟩ = .ok (.ctxRead 2#8 7#8) := by decide
theorem decode_tableRead_word : decode ⟨0x00FF0118#32, 0, 0⟩ = .ok (.tableRead 1#8 0xFF#8) := by decide

end Sys2Proof
end

