-- ==== Sys2Proof/Machine/HostPort.lean ====
section
/-! DEFINITION. The host's side of the command port (70_reset R241, R242): what surrounds a command when a step performs
it, and how a transaction is placed for the next step. -/

namespace Sys2Proof.Machine

/-- The state in which a command starts: it has left the host's list, and `racing` lands while it runs (20_memory
R68). -/
def beginCommand (racing : List Host.Cell) (rest : List HostAction) (s : State) : State :=
  { s with pending := rest, racing := racing }

/-- After a command: what other agents wrote meanwhile is in the input memory; a stop stays a stop. -/
def finishCommand : Host.Outcome State Fault Refusal → Host.Outcome State Fault Refusal
  | .next s => .next (landRacing s)
  | .fault f => .fault f
  | .refused r => .refused r

/-- Perform a transaction whose decoding is given: the command's meaning, or `ILLEGAL_COMMAND` (30_encoding R88). -/
def runDecoded (run : Instr → State → Host.Outcome State Fault Refusal) (t : Transaction) (s : State) :
    Host.Outcome State Fault Refusal :=
  match decode t with
  | .ok i => run i s
  | .error _ => .next (illegalCommand t.cmd s)

/-- One command on the port, between its start and its end (20_memory R67); other agents' writes must lie in the input
memory (log entry 9). -/
def runCommand (run : Instr → State → Host.Outcome State Fault Refusal) (t : Transaction) (racing : List Host.Cell)
    (rest : List HostAction) (s : State) : Host.Outcome State Fault Refusal :=
  match s.outsideInput racing with
  | some cell => .fault (.noSuchInputByte cell.1)
  | none => finishCommand (runDecoded run t (beginCommand racing rest s))

/-- The host's next action, by its kind (70_reset R242); with none the block is idle (60_exceptions R214). -/
def performNext (run : Instr → State → Host.Outcome State Fault Refusal) (s : State) :
    Host.Outcome State Fault Refusal :=
  match s.pending with
  | [] => .next s
  | .issue t racing :: rest => runCommand run t racing rest s
  | .writeInput a b :: rest => hostWrite a b { s with pending := rest }
  | .hardReset _ :: rest => .next (hardReset { s with pending := rest })

/-- The state whose next action is that a host issues `t`, no other agent writing meanwhile. -/
def issueNext (t : Transaction) (s : State) : State := { s with pending := .issue t [] :: s.pending }

end Sys2Proof.Machine
end

