-- ==== Sys2Proof/Machine/Step.lean ====
section
/-! DEFINITION. One step of the machine: the host's next action performed completely (20_memory R67). -/

namespace Sys2Proof.Machine

/-- One step: the first of the host's pending actions, a command by decoding and `exec` (20_memory R67, 70_reset R241). -/
def step (s : State) : Host.Outcome State Fault Refusal := performNext exec s

/-- `s` with the transaction whose first `nbits` bits are `w` (the others 0) as the host's next action. -/
def State.withFetchWord (s : State) (nbits w : Nat) : State := issueNext (Transaction.ofTableWord nbits w) s

end Sys2Proof.Machine
end

