-- ==== Sys2Proof/Machine/Assembler.lean ====
section
/-! DEFINITION. The assembler of 30_encoding R89: the line that spells each command, the reading of a line as the
transactions it stands for, and the pseudo-instructions as their expansions (R90). -/

namespace Sys2Proof.Machine

/-- The names of the registers (10_state R45). -/
def Reg.label : Reg → String
  | .stgWidth => "STG_WIDTH"
  | .stgPoly => "STG_POLY"
  | .stgInit => "STG_INIT"
  | .stgFlags => "STG_FLAGS"
  | .stgXorout => "STG_XOROUT"
  | .stgCheck => "STG_CHECK"
  | .stgName => "STG_NAME"
  | .apsWidth => "APS_WIDTH"
  | .apsPoly => "APS_POLY"
  | .apsInit => "APS_INIT"
  | .apsFlags => "APS_FLAGS"
  | .apsXorout => "APS_XOROUT"
  | .apsCheck => "APS_CHECK"
  | .apsName => "APS_NAME"
  | .apsMask => "APS_MASK"
  | .apsMsb => "APS_MSB"
  | .status => "STATUS"
  | .cacheBuilds => "CACHE_BUILDS"
  | .cacheHits => "CACHE_HITS"
  | .lastErr => "LAST_ERR"
  | .errData0 => "ERR_DATA0"
  | .errData1 => "ERR_DATA1"
  | .errData2 => "ERR_DATA2"
  | .cfgNctx => "CFG_NCTX"
  | .cfgTslots => "CFG_TSLOTS"
  | .id => "ID"

/-- The names of the context fields (44_context_commands R187). -/
def CtxField.label : CtxField → String
  | .width => "WIDTH"
  | .poly => "POLY"
  | .init => "INIT"
  | .flags => "FLAGS"
  | .xorout => "XOROUT"
  | .check => "CHECK"
  | .name => "NAME"
  | .mask => "MASK"
  | .msb => "MSB"
  | .kind => "KIND"
  | .start => "START"
  | .slot => "SLOT"

/-- A number as the assembler may write it, in decimal (30_encoding R89). -/
def asmNumber (n : Nat) : String := toString n

/-- A context, written `c<n>` (30_encoding R89). -/
def asmContext (c : BitVec 8) : String := "c" ++ asmNumber c.toNat

/-- A register selector, by its name or as a number (30_encoding R89). -/
def asmReg (sel : BitVec 8) : String :=
  match Reg.ofSel sel with
  | some r => r.label
  | none => asmNumber sel.toNat

/-- A context field selector, by its name or as a number (30_encoding R89). -/
def asmCtxField (sel : BitVec 8) : String :=
  match CtxField.ofSel sel with
  | some f => f.label
  | none => asmNumber sel.toNat

/-- The line that spells a command (30_encoding R89); `REFLECT` is written with the true width. -/
def asmLine : Instr → String
  | .regRead sel => "REG_READ " ++ asmReg sel
  | .regWrite sel v => "REG_WRITE " ++ asmReg sel ++ ", " ++ asmNumber v.toNat
  | .psetCommit => "PSET_COMMIT"
  | .selfTest => "SELF_TEST"
  | .reflect w v => "REFLECT " ++ asmNumber w ++ ", " ++ asmNumber v.toNat
  | .bwBind c => "BW_BIND " ++ asmContext c
  | .tbBind c => "TB_BIND " ++ asmContext c
  | .unbind c => "UNBIND " ++ asmContext c
  | .reset c => "RESET " ++ asmContext c
  | .updateByte c b => "UPDATE_BYTE " ++ asmContext c ++ ", " ++ asmNumber b.toNat
  | .updateBlock c off len =>
    "UPDATE_BLOCK " ++ asmContext c ++ ", " ++ asmNumber off.toNat ++ ", " ++ asmNumber len.toNat
  | .value c => "VALUE " ++ asmContext c
  | .ctxRead c sel => "CTX_READ " ++ asmContext c ++ ", " ++ asmCtxField sel
  | .tableRead c i => "TABLE_READ " ++ asmContext c ++ ", " ++ asmNumber i.toNat

/-- `PSET_LOAD width, poly, init, refin, refout, xorout, check, name` (30_encoding R90). -/
def psetLoad (width poly init : Word) (refin refout : Bool) (xorout check name : Word) : List Instr :=
  [.regWrite Reg.stgWidth.sel width, .regWrite Reg.stgPoly.sel poly, .regWrite Reg.stgInit.sel init,
   .regWrite Reg.stgFlags.sel ((bitWord refout <<< 1) ||| bitWord refin), .regWrite Reg.stgXorout.sel xorout,
   .regWrite Reg.stgCheck.sel check, .regWrite Reg.stgName.sel name, .psetCommit]

/-- `CLEAR_ERR` (30_encoding R90). -/
def clearErrCmd : List Instr := [.regWrite Reg.lastErr.sel 0#64]

/-- `UPDATE_BYTES c, b0, ..., bk` (30_encoding R90). -/
def updateBytes (c : BitVec 8) (bytes : List Byte) : List Instr := bytes.map (.updateByte c)

/-! ### Reading a line -/

/-- A line cut at a separator. -/
def cutAt (sep : Char) : List Char → List (List Char)
  | [] => [[]]
  | c :: cs =>
    match cutAt sep cs with
    | [] => [[c]]
    | piece :: pieces => if c = sep then [] :: piece :: pieces else (c :: piece) :: pieces

/-- A piece of a line without the blanks before and after it. -/
def trimBlanks (cs : List Char) : List Char :=
  ((cs.dropWhile (· == ' ')).reverse.dropWhile (· == ' ')).reverse

/-- The value of a digit in a base up to 16. -/
def digitOf (base : Nat) (c : Char) : Option Nat :=
  let n := c.toNat
  let v :=
    if 48 ≤ n ∧ n ≤ 57 then n - 48
    else if 65 ≤ n ∧ n ≤ 70 then n - 55
    else if 97 ≤ n ∧ n ≤ 102 then n - 87
    else base
  if v < base then some v else none

/-- The number that digits spell, most significant first, after `acc`. -/
def readDigits (base acc : Nat) : List Char → Option Nat
  | [] => some acc
  | c :: cs =>
    match digitOf base c with
    | some v => readDigits base (acc * base + v) cs
    | none => none

/-- A number, decimal or `0x` hexadecimal (30_encoding R89). -/
def readNumber : List Char → Option Nat
  | [] => none
  | '0' :: 'x' :: c :: cs => readDigits 16 0 (c :: cs)
  | c :: cs => readDigits 10 0 (c :: cs)

/-- A number that fits in `w` bits. -/
def readBits (w : Nat) (cs : List Char) : Option (BitVec w) :=
  match readNumber cs with
  | some n => if n < 2 ^ w then some (BitVec.ofNat w n) else none
  | none => none

/-- A context, written `c<n>` with `n` in decimal (30_encoding R89). -/
def readContext : List Char → Option (BitVec 8)
  | 'c' :: d :: ds =>
    match readDigits 10 0 (d :: ds) with
    | some n => if n < 256 then some (BitVec.ofNat 8 n) else none
    | none => none
  | _ => none

/-- A register selector, by its name or as a number (30_encoding R89, 10_state R45). -/
def readReg (cs : List Char) : Option (BitVec 8) :=
  match Reg.all.find? fun r => r.label.toList == cs with
  | some r => some r.sel
  | none => readBits 8 cs

/-- A context field selector, by its name or as a number (30_encoding R89, 44_context_commands R187). -/
def readCtxField (cs : List Char) : Option (BitVec 8) :=
  match CtxField.all.find? fun f => f.label.toList == cs with
  | some f => some f.sel
  | none => readBits 8 cs

/-- `REFLECT`'s true width, 1..64 (30_encoding R89). DESIGN CHOICE (log entry 14), safe: R89 names no base for it; it is
read in decimal or `0x` hexadecimal, as R89's other numbers are. -/
def readWidth (cs : List Char) : Option Nat :=
  match readNumber cs with
  | some n => if 1 ≤ n ∧ n ≤ 64 then some n else none
  | none => none

/-- A flag of `PSET_LOAD`, 0 or 1 (30_encoding R90). -/
def readFlag (cs : List Char) : Option Bool :=
  match readBits 1 cs with
  | some b => some (b == 1#1)
  | none => none

/-- The commands that a mnemonic with these operands stands for: one for a command, its expansion for a
pseudo-instruction (30_encoding R89, R90). -/
def readCommand (mnemonic : List Char) (operands : List (List Char)) : Option (List Instr) :=
  if mnemonic = "REG_READ".toList then
    match operands with
    | [a] => do return [.regRead (← readReg a)]
    | _ => none
  else if mnemonic = "REG_WRITE".toList then
    match operands with
    | [a, b] => do return [.regWrite (← readReg a) (← readBits 64 b)]
    | _ => none
  else if mnemonic = "PSET_COMMIT".toList then
    match operands with
    | [] => some [.psetCommit]
    | _ => none
  else if mnemonic = "SELF_TEST".toList then
    match operands with
    | [] => some [.selfTest]
    | _ => none
  else if mnemonic = "REFLECT".toList then
    match operands with
    | [a, b] => do return [.reflect (← readWidth a) (← readBits 64 b)]
    | _ => none
  else if mnemonic = "BW_BIND".toList then
    match operands with
    | [a] => do return [.bwBind (← readContext a)]
    | _ => none
  else if mnemonic = "TB_BIND".toList then
    match operands with
    | [a] => do return [.tbBind (← readContext a)]
    | _ => none
  else if mnemonic = "UNBIND".toList then
    match operands with
    | [a] => do return [.unbind (← readContext a)]
    | _ => none
  else if mnemonic = "RESET".toList then
    match operands with
    | [a] => do return [.reset (← readContext a)]
    | _ => none
  else if mnemonic = "UPDATE_BYTE".toList then
    match operands with
    | [a, b] => do return [.updateByte (← readContext a) (← readBits 8 b)]
    | _ => none
  else if mnemonic = "UPDATE_BLOCK".toList then
    match operands with
    | [a, b, d] => do return [.updateBlock (← readContext a) (← readBits 64 b) (← readBits 64 d)]
    | _ => none
  else if mnemonic = "VALUE".toList then
    match operands with
    | [a] => do return [.value (← readContext a)]
    | _ => none
  else if mnemonic = "CTX_READ".toList then
    match operands with
    | [a, b] => do return [.ctxRead (← readContext a) (← readCtxField b)]
    | _ => none
  else if mnemonic = "TABLE_READ".toList then
    match operands with
    | [a, b] => do return [.tableRead (← readContext a) (← readBits 8 b)]
    | _ => none
  else if mnemonic = "PSET_LOAD".toList then
    match operands with
    | [a, b, d, e, f, g, h, k] => do
      return psetLoad (← readBits 64 a) (← readBits 64 b) (← readBits 64 d) (← readFlag e) (← readFlag f)
        (← readBits 64 g) (← readBits 64 h) (← readBits 64 k)
    | _ => none
  else if mnemonic = "CLEAR_ERR".toList then
    match operands with
    | [] => some clearErrCmd
    | _ => none
  else if mnemonic = "UPDATE_BYTES".toList then
    match operands with
    | a :: b :: bs => do return updateBytes (← readContext a) (← (b :: bs).mapM (readBits 8))
    | _ => none
  else none

/-- The operands of a line, from what follows its mnemonic. -/
def readOperands (cs : List Char) : List (List Char) :=
  match trimBlanks cs with
  | [] => []
  | c :: rest => (cutAt ',' (c :: rest)).map trimBlanks

/-- The transactions that a line of assembly stands for, or none for a line that the assembler does not read; `.word`
gives a raw command word (30_encoding R89). DESIGN CHOICE (log entry 14), safe: R89 writes eight digits after `.word`'s
`0x` and does not say that fewer or more are no line; any number of digits is read whose value fits in 32 bits. -/
def assembleChars (line : List Char) : Option (List Transaction) :=
  let line := trimBlanks line
  let mnemonic := line.takeWhile (· != ' ')
  let operands := readOperands (line.dropWhile (· != ' '))
  if mnemonic = ".word".toList then
    match operands with
    | ['0' :: 'x' :: ds] => do return [rawWord (← readBits 32 ('0' :: 'x' :: ds))]
    | _ => none
  else
    match readCommand mnemonic operands with
    | some is => some (is.map encode)
    | none => none

/-- The assembler on a line of text (30_encoding R89). -/
def assemble (line : String) : Option (List Transaction) := assembleChars line.toList

end Sys2Proof.Machine
end

