-- ==== Sys2Proof/Safety.lean ====
section
/-! DEFINITION. The terms the claims use: what a valid parameter set, context and table slot are (10_state R34, R37, R40,
R41), the invariant of the machine, what a response adds, and which command names what. -/

namespace Sys2Proof

/-! ### Which command names what -/

/-- The context a command names, for the context commands (30_encoding R85, column C). -/
def Instr.ctxIndex : Instr → Option (BitVec 8)
  | .regRead _ | .regWrite _ _ | .psetCommit | .selfTest | .reflect _ _ => none
  | .bwBind c | .tbBind c | .unbind c | .reset c | .updateByte c _ | .updateBlock c _ _ | .value c | .ctxRead c _
  | .tableRead c _ => some c

/-- The response codes a command may return: `OK` and its row of 60_exceptions R204. -/
def Instr.mayReturn : Instr → List (BitVec 8)
  | .regRead _ => [0#8, 1#8, 9#8]
  | .regWrite _ _ => [0#8, 1#8, 9#8]
  | .psetCommit => [0#8, 1#8, 2#8]
  | .selfTest => [0#8, 1#8, 4#8, 3#8]
  | .reflect _ _ => [0#8, 1#8]
  | .bwBind _ => [0#8, 1#8, 5#8, 4#8]
  | .tbBind _ => [0#8, 1#8, 5#8, 4#8, 8#8]
  | .unbind _ => [0#8, 1#8, 5#8]
  | .reset _ => [0#8, 1#8, 5#8, 6#8]
  | .updateByte _ _ => [0#8, 1#8, 5#8, 6#8]
  | .updateBlock _ _ _ => [0#8, 1#8, 5#8, 6#8, 10#8]
  | .value _ => [0#8, 1#8, 5#8, 6#8]
  | .ctxRead _ _ => [0#8, 1#8, 5#8, 9#8, 6#8]
  | .tableRead _ _ => [0#8, 1#8, 5#8, 6#8, 7#8]

/-- The commands that write no state when they succeed (40 R101, R105; 41 R123; 43 R159; 44 R186, R187). -/
def Instr.readsOnly : Instr → Bool
  | .regRead _ | .selfTest | .reflect _ _ | .value _ | .ctxRead _ _ | .tableRead _ _ => true
  | .regWrite _ _ | .psetCommit | .bwBind _ | .tbBind _ | .unbind _ | .reset _ | .updateByte _ _
  | .updateBlock _ _ _ => false

/-- The commands that may write `KIND`, `PS`, `START` and `SLOT` of the context they name (10_state R37). -/
def Instr.binds : Instr → Bool
  | .bwBind _ | .tbBind _ | .unbind _ => true
  | .regRead _ | .regWrite _ _ | .psetCommit | .selfTest | .reflect _ _ | .reset _ | .updateByte _ _
  | .updateBlock _ _ _ | .value _ | .ctxRead _ _ | .tableRead _ _ => false

end Sys2Proof

namespace Sys2Proof.Machine

/-! ### What a command's answer adds -/

/-- `s` after a response is delivered and nothing else happens (30_encoding R80). -/
def State.answer (s : State) (code : BitVec 8) (d0 d1 : Word) : State :=
  { s with responses := s.responses ++ [⟨code, d0, d1⟩] }

/-- `s` after a command failed with this code and these detail words (60_exceptions R201). -/
def State.failed (s : State) (code : BitVec 8) (d0 d1 d2 : Word) : State :=
  { s with lastErr := code, errData0 := d0, errData1 := d1, errData2 := d2,
           responses := s.responses ++ [⟨code, d0, d1⟩] }

/-- A step from `s` raises `ILLEGAL_COMMAND(zext_64(CMD), 0, 0)` for the command word of `t` and has no other effect
(30_encoding R82); every byte of the input memory that no other agent writes meanwhile (`ws`) reads as before. When
the writes of `ws` land is left open here (log entry 4). -/
def RaisesIllegal (s : State) (t : Transaction) (ws : List Host.Cell) (rest : List HostAction) : Prop :=
  ∃ m : Memory, step s = .next { s.failed 1#8 (t.cmd.setWidth 64) 0#64 0#64 with pending := rest, racing := [], imem := m } ∧
    (ws = [] → m = s.imem) ∧ ∀ a, (∀ w ∈ ws, w.1 ≠ a) → m.read a = s.imem.read a

/-- Every command word with opcode `op` whose context, immediate and reserved bytes are `bad` raises
`ILLEGAL_COMMAND(zext_64(CMD), 0, 0)` with no other effect, whatever its data words and whatever other agents write to
the input memory meanwhile (30_encoding R82; the premise that they write bytes it has is log entry 9's). -/
def IllegalWhen (op : Nat) (bad : Nat → Nat → Nat → Prop) : Prop :=
  ∀ (s : State) (t : Transaction) (ws : List Host.Cell) (rest : List HostAction), s.pending = .issue t ws :: rest →
    (∀ w ∈ ws, w.1 < s.imemBytes) → t.cmd.toNat % 256 = op →
    bad (t.cmd.toNat / 256 % 256) (t.cmd.toNat / 65536 % 256) (t.cmd.toNat / 16777216) →
      RaisesIllegal s t ws rest

/-! ### Valid records -/

/-- A parameter set as `PSET_COMMIT` leaves it (10_state R34). -/
structure ParamSet.Valid (p : ParamSet) : Prop where
  width_pos : 1 ≤ p.width.toNat
  width_le : p.width.toNat ≤ 64
  poly_lt : p.poly.toNat < 2 ^ p.width.toNat
  init_lt : p.init.toNat < 2 ^ p.width.toNat
  xorout_lt : p.xorout.toNat < 2 ^ p.width.toNat
  check_lt : p.check.toNat < 2 ^ p.width.toNat
  mask_eq : p.mask.toNat = 2 ^ p.width.toNat - 1
  msb_eq : p.msb.toNat = 2 ^ (p.width.toNat - 1)

/-- Equality of parameter sets: the eight fields of 10_state R36. -/
def ParamSet.EqualEight (p q : ParamSet) : Prop :=
  p.width = q.width ∧ p.poly = q.poly ∧ p.init = q.init ∧ p.xorout = q.xorout ∧ p.check = q.check ∧
    p.refin = q.refin ∧ p.refout = q.refout ∧ p.name = q.name

/-- A slot of the table store: invalid with key 0 and 256 entries of any value, which R50 leaves unspecified, or built
for its key (10_state R41, R50). -/
def Slot.Ok (sl : Slot) : Prop :=
  (sl.valid = false → sl.key = ParamSet.zero ∧ sl.table.length = 256) ∧
    (sl.valid = true → sl.key.Valid ∧ sl.table = tableGen sl.key)

/-- A table context's register has no bits above the width in the cases whose step would read them (43_table_engine
R154). -/
def Context.RegFits (x : Context) : Prop :=
  x.ps.refin = true ∨ x.ps.width.toNat < 8 → x.reg.toNat < 2 ^ x.ps.width.toNat

/-- A context: all zero when unbound; a valid copy of a parameter set and the start value of its engine when bound, and
for a table engine the slot built for that set (10_state R37, R40). -/
def Context.Ok (slots : List Slot) (x : Context) : Prop :=
  match x.kind with
  | .none => x = Context.unbound
  | .bitwise => x.ps.Valid ∧ x.start = x.ps.init ∧ x.slot = 0#8
  | .table =>
    x.ps.Valid ∧ x.start = tbStart x.ps ∧ x.RegFits ∧
      ∃ sl, slots[x.slot.toNat]? = some sl ∧ sl.valid = true ∧ sl.key = x.ps

/-- No two valid slots have equal keys (43_table_engine R157). -/
def KeysUnique (slots : List Slot) : Prop :=
  ∀ (j k : Nat) (sl sl' : Slot), slots[j]? = some sl → slots[k]? = some sl' → sl.valid = true → sl'.valid = true →
    sl.key.EqualEight sl'.key → j = k

/-- No valid slot has the key of `p` (43_table_engine R157). -/
def NoKey (slots : List Slot) (p : ParamSet) : Prop :=
  ∀ sl ∈ slots, ¬ (sl.valid = true ∧ sl.key.EqualEight p)

/-! ### The invariant -/

/-- What holds of the block and the input memory in every state that a run reaches. -/
structure State.BlockInv (s : State) : Prop where
  /-- `NCTX` is 1..256 (00_scope R6). -/
  nctx_range : 1 ≤ s.ctx.length ∧ s.ctx.length ≤ 256
  /-- `TSLOTS` is 1..256 (00_scope R6). -/
  tslots_range : 1 ≤ s.slots.length ∧ s.slots.length ≤ 256
  /-- `IMEM_BYTES` is at most 2^64 (00_scope R6). -/
  imem_size : s.imemBytes ≤ 2 ^ 64
  /-- The input memory is in its canonical form, the model's own (log entry 3). -/
  imem_wf : Memory.wf s.imem = true
  /-- The input memory has bytes below `IMEM_BYTES` only (20_memory R61). -/
  imem_range : ∀ cell ∈ s.imem, cell.1 < s.imemBytes
  /-- The reserved bits of `STG_FLAGS` are 0 (10_state R33). -/
  flags_reserved : s.stg.flags.toNat < 4
  /-- `APS` is a valid set once `APS_VALID` is 1 (10_state R34). -/
  aps_valid : s.apsValid = true → s.aps.Valid
  /-- `APS` is all zero before that (10_state R45, R50). -/
  aps_zero : s.apsValid = false → s.aps = ParamSet.zero
  /-- Every context is as its kind says (10_state R37, R40). -/
  ctx_ok : ∀ x ∈ s.ctx, x.Ok s.slots
  /-- Every table slot is invalid with key 0, its entries open, or built for its key (10_state R41, R50). -/
  slots_ok : ∀ sl ∈ s.slots, sl.Ok
  /-- No two valid slots have equal keys (43_table_engine R157). -/
  keys_unique : KeysUnique s.slots
  /-- `LAST_ERR` is 0 or an error code (60_exceptions R200). -/
  lastErr_le : s.lastErr.toNat ≤ 10

/-- The invariant between steps: `BlockInv`, and no other agent's write under way. -/
def State.Inv (s : State) : Prop := s.BlockInv ∧ s.racing = []

/-! ### Runs of bytes -/

/-- The engine's run over bytes, by the context's kind, with the table the context uses (42_bitwise_engine R135,
43_table_engine R160, 44_context_commands R180). -/
def runReg (s : State) (x : Context) (bytes : List Byte) : Word :=
  match x.kind with
  | .none => x.reg
  | .bitwise => bwRun x.ps x.reg bytes
  | .table => tbRun x.ps (s.slotAt x.slot.toNat).table x.reg bytes

/-! ### Bits of `REG` above the width -/

/-- Two contexts that differ at most in the bits of `REG` at `width` and above (10_state R39). -/
def Context.AgreeBelow (x y : Context) : Prop :=
  x.kind = y.kind ∧ x.ps = y.ps ∧ x.start = y.start ∧ x.slot = y.slot ∧
    x.reg.toNat % 2 ^ x.ps.width.toNat = y.reg.toNat % 2 ^ y.ps.width.toNat

/-- Two states that differ at most in those bits of their contexts' registers (10_state R39, R48). -/
def State.AgreeBelow (s t : State) : Prop :=
  t = { s with ctx := t.ctx } ∧ List.Forall₂ Context.AgreeBelow s.ctx t.ctx

/-- Run commands one after the other (20_memory R67). -/
def execAll : List Instr → State → Host.Outcome State Fault Refusal
  | [], s => .next s
  | i :: rest, s =>
    match exec i s with
    | .next t => execAll rest t
    | .fault f => .fault f
    | .refused r => .refused r

end Sys2Proof.Machine
end

