-- ==== Sys2Proof/Certificates/Slice0/Obligations.lean ====
section
/-! DEFINITION. The statements for the provers, each from the spec's numbered rules. `s.answer` is `s` with one response
added, `s.failed` is `s` with the error record written and one response added, and nothing else changed
(`Sys2Proof/Safety.lean`). -/

open Sys2Proof Sys2Proof.Machine

/-! ### Encoding -/

/-- Decoding what the encoder writes for a command with an encoding gives the command back (30_encoding R81, R83, R85,
R88). -/
def Obligations.DecodeOfEncodeIsIdentity : Prop :=
  ∀ i : Instr, i.wf = true → decode (encode i) = .ok i

/-- Each legal command word has one meaning: a command the decoder reads has an encoding, that encoding's word is the
word read, and its 64-bit operands are the transaction's data words (30_encoding R83, R85, R87). -/
def Obligations.DecodedCommandHasThatWord : Prop :=
  ∀ (t : Transaction) (i : Instr), decode t = .ok i →
    i.wf = true ∧ (encode i).cmd = t.cmd ∧
      (∀ sel v, i = .regWrite sel v → v = t.data0) ∧
      (∀ w v, i = .reflect w v → v = t.data0) ∧
      (∀ c off len, i = .updateBlock c off len → off = t.data0 ∧ len = t.data1)

/-- The words that spell a command are those one row's match and mask admit (30_encoding R85, R86; the rows of
opcode_table.json). -/
def Obligations.LegalWordsAreTableRows : Prop :=
  ∀ t : Transaction, (∃ i, decode t = .ok i) ↔
    ∃ row ∈ ([(0x01#32, 0xFF00FFFF#32), (0x02#32, 0xFF00FFFF#32), (0x03#32, 0xFFFFFFFF#32), (0x04#32, 0xFFFFFFFF#32),
        (0x05#32, 0xFFC0FFFF#32), (0x10#32, 0xFFFF00FF#32), (0x11#32, 0xFFFF00FF#32), (0x12#32, 0xFFFF00FF#32),
        (0x13#32, 0xFFFF00FF#32), (0x14#32, 0xFF0000FF#32), (0x15#32, 0xFFFF00FF#32), (0x16#32, 0xFFFF00FF#32),
        (0x17#32, 0xFF0000FF#32), (0x18#32, 0xFF0000FF#32)] : List (BitVec 32 × BitVec 32)),
      t.cmd &&& row.2 = row.1

/-- A few of the words the spec writes out, one per group of opcodes (40 R102, R103; 41 R123; 42 R134; 43 R158, R159;
44 R184, R185, R187). -/
def Obligations.SpecExampleWordsDecode : Prop :=
  decode ⟨0x00010002#32, 0x04C11DB7#64, 0⟩ = .ok (.regWrite 0x01#8 0x04C11DB7#64) ∧
    decode ⟨0x00000003#32, 0, 0⟩ = .ok .psetCommit ∧
    decode ⟨0x001F0005#32, 0x04C11DB7#64, 0⟩ = .ok (.reflect 32 0x04C11DB7#64) ∧
    decode ⟨0x00000010#32, 0, 0⟩ = .ok (.bwBind 0#8) ∧
    decode ⟨0x00000011#32, 0, 0⟩ = .ok (.tbBind 0#8) ∧
    decode ⟨0x00310014#32, 0, 0⟩ = .ok (.updateByte 0#8 0x31#8) ∧
    decode ⟨0x00000015#32, 0, 9⟩ = .ok (.updateBlock 0#8 0 9) ∧
    decode ⟨0x00070217#32, 0, 0⟩ = .ok (.ctxRead 2#8 0x07#8) ∧
    decode ⟨0x00800018#32, 0, 0⟩ = .ok (.tableRead 0#8 0x80#8)

/-- The assembler reads lines that the spec writes out as the words it gives for them, `.word` and a
pseudo-instruction among them (30_encoding R89, R90; the examples of 40 R101, R102; 41 R123; 44 R182, R184, R185,
R187; 43 R159). -/
def Obligations.AssemblerReadsSpecLines : Prop :=
  assemble "REG_READ CACHE_HITS" = some [⟨0x00220001#32, 0, 0⟩] ∧
    assemble "REG_WRITE STG_POLY, 0x04C11DB7" = some [⟨0x00010002#32, 0x04C11DB7#64, 0⟩] ∧
    assemble "REFLECT 32, 0x04C11DB7" = some [⟨0x001F0005#32, 0x04C11DB7#64, 0⟩] ∧
    assemble "UNBIND c1" = some [⟨0x00000112#32, 0, 0⟩] ∧
    assemble "UPDATE_BYTE c0, 0x31" = some [⟨0x00310014#32, 0, 0⟩] ∧
    assemble "UPDATE_BLOCK c0, 0, 9" = some [⟨0x00000015#32, 0, 9⟩] ∧
    assemble "CTX_READ c2, MASK" = some [⟨0x00070217#32, 0, 0⟩] ∧
    assemble "TABLE_READ c0, 0x80" = some [⟨0x00800018#32, 0, 0⟩] ∧
    assemble ".word 0x00400005" = some [⟨0x00400005#32, 0, 0⟩] ∧
    assemble "CLEAR_ERR" = some [⟨0x00230002#32, 0, 0⟩] ∧
    assemble "UPDATE_BYTES c1, 0x31, 50" = some [⟨0x00310114#32, 0, 0⟩, ⟨0x00320114#32, 0, 0⟩]

/-- A command word that fails one of the five checks of 30_encoding R82, its fields taken arithmetically from the
word, raises `ILLEGAL_COMMAND(zext_64(CMD), 0, 0)` with no other effect, whatever its data words and whatever other
agents write to the input memory meanwhile. The premise that they write bytes it has is log entry 9's; when their
writes land is left open (log entry 4). -/
def Obligations.MalformedWordRaisesIllegalCommand : Prop :=
  ∀ (s : State) (t : Transaction) (ws : List Host.Cell) (rest : List HostAction), s.pending = .issue t ws :: rest →
    (∀ w ∈ ws, w.1 < s.imemBytes) →
    (let op := t.cmd.toNat % 256
     let ctx := t.cmd.toNat / 256 % 256
     let imm := t.cmd.toNat / 65536 % 256
     let rsv := t.cmd.toNat / 16777216
     op ∉ [1, 2, 3, 4, 5, 16, 17, 18, 19, 20, 21, 22, 23, 24] ∨ rsv ≠ 0 ∨
       (op ∈ [1, 2, 3, 4, 5] ∧ ctx ≠ 0) ∨ (op ∈ [3, 4, 16, 17, 18, 19, 21, 22] ∧ imm ≠ 0) ∨
       (op = 5 ∧ 64 ≤ imm)) →
    RaisesIllegal s t ws rest

/-! ### Steps, the host and reset -/

/-- A step whose next action is a command that decodes to `i` is `exec i`, one whole command (30_encoding R88,
20_memory section 4). What stands around `exec` is the model's choice: the action is taken off the host's list (log
entry 1), the other agents' writes `ws` are under way during the command and in the input memory when it ends (log
entry 4), and the premise that they lie in the input memory keeps off the fault of log entry 9. -/
def Obligations.StepRunsDecodedCommand : Prop :=
  ∀ (s : State) (t : Transaction) (ws : List Host.Cell) (rest : List HostAction) (i : Instr),
    s.pending = .issue t ws :: rest → decode t = .ok i → (∀ w ∈ ws, w.1 < s.imemBytes) →
      step s =
        match exec i { s with pending := rest, racing := ws } with
        | .next u => .next { u with imem := u.imem.writeAll ws, racing := [] }
        | .fault f => .fault f
        | .refused r => .refused r

/-- What a step does with the host's other doings: with none pending the block stays idle; a host's write of an input
byte changes that byte alone; a write outside the input memory is the model's fault of log entry 9 (20_memory R61,
70_reset R242; the idle step and the fault are the model's choices, log entries 6 and 9). -/
def Obligations.HostActionsOnInputMemory : Prop :=
  (∀ s : State, s.pending = [] → step s = .next s) ∧
    (∀ (s : State) (a : Nat) (b : Byte) (rest : List HostAction), s.pending = .writeInput a b :: rest →
      a < s.imemBytes → Memory.wf s.imem = true →
        ∃ t, step s = .next t ∧ t = { s with pending := rest, imem := t.imem } ∧ Memory.wf t.imem = true ∧
          t.imem.read a = b ∧ ∀ c, c ≠ a → t.imem.read c = s.imem.read c) ∧
    (∀ (s : State) (a : Nat) (b : Byte) (rest : List HostAction), s.pending = .writeInput a b :: rest →
      s.imemBytes ≤ a → step s = .fault (.noSuchInputByte a))

/-- The hardware reset sets every piece of the block's state (70_reset R230): staging, `APS`, error record and
counters 0, `APS_VALID = 0`, every context NONE and all 0, every slot invalid with its key 0; the constant registers
keep their values, the input memory is not touched, and no response is sent. -/
def Obligations.HardwareResetRestoresBlock : Prop :=
  ∀ (s : State) (inFlight : Option Transaction) (rest : List HostAction), s.pending = .hardReset inFlight :: rest →
    ∃ t, step s = .next t ∧
      t.stg = ⟨0, 0, 0, 0, 0, 0, 0⟩ ∧ t.aps = ⟨0, 0, 0, false, false, 0, 0, 0, 0, 0⟩ ∧ t.apsValid = false ∧
      t.lastErr = 0 ∧ t.errData0 = 0 ∧ t.errData1 = 0 ∧ t.errData2 = 0 ∧ t.cacheBuilds = 0 ∧ t.cacheHits = 0 ∧
      t.ctx.length = s.ctx.length ∧
      (∀ x ∈ t.ctx, x = ⟨.none, ⟨0, 0, 0, false, false, 0, 0, 0, 0, 0⟩, 0, 0, 0⟩) ∧
      t.slots.length = s.slots.length ∧
      (∀ sl ∈ t.slots, sl.valid = false ∧ sl.key = ⟨0, 0, 0, false, false, 0, 0, 0, 0, 0⟩) ∧
      (∀ r ∈ [Reg.id, Reg.cfgNctx, Reg.cfgTslots], r.content t = r.content s) ∧
      t.imem = s.imem ∧ t.imemBytes = s.imemBytes ∧ t.pending = rest ∧ t.responses = s.responses

/-- The machine after reset meets the invariant (10_state R50): `State.reset`, which has the default `NCTX` and
`TSLOTS` (00_scope R6, log entry 8) and the model's choices of `IMEM_BYTES` and of unwritten bytes (log entries 2 and
3), and the machine after reset with every choice of the parameters and of the input memory's contents. The invariant
asks of an invalid slot that its key is 0 and that it has 256 entries, and nothing of their values (log entry 5);
that the input memory is in its canonical form is the model's own clause (log entry 3). -/
def Obligations.ResetMeetsInvariant : Prop :=
  State.reset.Inv ∧
    ∀ (nctx tslots bytes : Nat) (m : Memory), 1 ≤ nctx → nctx ≤ 256 → 1 ≤ tslots → tslots ≤ 256 → bytes ≤ 2 ^ 64 →
      Memory.wf m = true → (∀ cell ∈ m, cell.1 < bytes) → (State.afterReset nctx tslots bytes m).Inv

/-- Every step from a state that meets the invariant leads to a state that meets it: the parameters in their ranges,
`APS` valid once committed and 0 before, unbound contexts all 0 and every bound context's set valid, start values and
slots right, valid slots built for their keys and their keys distinct, invalid slots with key 0 and 256 entries whose
values are open (log entry 5), table registers within their width where their step needs it, reserved flag bits 0,
`LAST_ERR` 0 or an error code, the input memory in range (00_scope R6; 10_state R33, R34, R37, R40, R41, R50;
43_table_engine R154, R157, R159, R161; 20_memory R61; 60_exceptions R200), and two clauses that are the model's own:
the input memory in its canonical form (log entry 3), and no other agent's write under way between steps (log entry
4). -/
def Obligations.StepKeepsInvariant : Prop :=
  ∀ s t : State, s.Inv → step s = .next t → t.Inv

/-! ### Register access and the parameter set -/

/-- `REG_READ` (40_parameter_set R101) over the register map (10_state R45): its encoding, and `ILLEGAL_COMMAND` for
its other words; the content of each mapped selector with no state written, and `ILLEGAL_REGISTER(sel, 0, 0)` for
every other; in a state that meets the invariant STG_FLAGS answers bits 63:2 as 0, and the APS registers answer 0
while `APS_VALID` is 0. -/
def Obligations.RegReadAnswersRegisterMap : Prop :=
  (∀ (sel : BitVec 8) (d0 d1 : Word), decode ⟨BitVec.ofNat 32 (0x01 + 0x10000 * sel.toNat), d0, d1⟩ = .ok (.regRead sel)) ∧
    IllegalWhen 0x01 (fun ctx _ rsv => ctx ≠ 0 ∨ rsv ≠ 0) ∧
    ∀ s : State,
      let map : List (BitVec 8 × Word) :=
        [(0x00#8, s.stg.width), (0x01#8, s.stg.poly), (0x02#8, s.stg.init), (0x03#8, s.stg.flags),
         (0x04#8, s.stg.xorout), (0x05#8, s.stg.check), (0x06#8, s.stg.name),
         (0x10#8, BitVec.ofNat 64 s.aps.width.toNat), (0x11#8, s.aps.poly), (0x12#8, s.aps.init),
         (0x13#8, BitVec.ofNat 64 (2 * s.aps.refout.toNat + s.aps.refin.toNat)), (0x14#8, s.aps.xorout),
         (0x15#8, s.aps.check), (0x16#8, s.aps.name), (0x17#8, s.aps.mask), (0x18#8, s.aps.msb),
         (0x20#8, BitVec.ofNat 64 s.apsValid.toNat), (0x21#8, s.cacheBuilds), (0x22#8, s.cacheHits),
         (0x23#8, BitVec.ofNat 64 s.lastErr.toNat), (0x24#8, s.errData0), (0x25#8, s.errData1), (0x26#8, s.errData2),
         (0x30#8, BitVec.ofNat 64 s.ctx.length), (0x31#8, BitVec.ofNat 64 s.slots.length), (0x38#8, 0x43524301#64)]
      (∀ p ∈ map, exec (.regRead p.1) s = .next (s.answer 0#8 p.2 0#64)) ∧
        (∀ sel, sel ∉ map.map Prod.fst → exec (.regRead sel) s = .next (s.failed 9#8 (sel.setWidth 64) 0#64 0#64)) ∧
        (s.BlockInv →
          (∃ v : Word, v.toNat < 4 ∧ exec (.regRead 0x03#8) s = .next (s.answer 0#8 v 0#64)) ∧
            (s.apsValid = false → ∀ sel : BitVec 8, 0x10 ≤ sel.toNat → sel.toNat ≤ 0x18 →
              exec (.regRead sel) s = .next (s.answer 0#8 0#64 0#64)))

/-- `REG_WRITE` (40_parameter_set R102, 10_state R46): its encoding, and `ILLEGAL_COMMAND` for its other words; each
staging selector stores `DATA0` (the flags its two low bits), selector 0x23 clears the error record, and every other
selector raises `ILLEGAL_REGISTER(sel, 1, 0)`. -/
def Obligations.RegWriteStoresClearsOrFails : Prop :=
  (∀ (sel : BitVec 8) (d0 d1 : Word),
      decode ⟨BitVec.ofNat 32 (0x02 + 0x10000 * sel.toNat), d0, d1⟩ = .ok (.regWrite sel d0)) ∧
    IllegalWhen 0x02 (fun ctx _ rsv => ctx ≠ 0 ∨ rsv ≠ 0) ∧
    ∀ (s : State) (v : Word),
      exec (.regWrite 0x00#8 v) s = .next (State.answer { s with stg := { s.stg with width := v } } 0#8 0#64 0#64) ∧
      exec (.regWrite 0x01#8 v) s = .next (State.answer { s with stg := { s.stg with poly := v } } 0#8 0#64 0#64) ∧
      exec (.regWrite 0x02#8 v) s = .next (State.answer { s with stg := { s.stg with init := v } } 0#8 0#64 0#64) ∧
      exec (.regWrite 0x03#8 v) s =
        .next (State.answer { s with stg := { s.stg with flags := BitVec.ofNat 64 (v.toNat % 4) } } 0#8 0#64 0#64) ∧
      exec (.regWrite 0x04#8 v) s = .next (State.answer { s with stg := { s.stg with xorout := v } } 0#8 0#64 0#64) ∧
      exec (.regWrite 0x05#8 v) s = .next (State.answer { s with stg := { s.stg with check := v } } 0#8 0#64 0#64) ∧
      exec (.regWrite 0x06#8 v) s = .next (State.answer { s with stg := { s.stg with name := v } } 0#8 0#64 0#64) ∧
      exec (.regWrite 0x23#8 v) s =
        .next (State.answer { s with lastErr := 0, errData0 := 0, errData1 := 0, errData2 := 0 } 0#8 0#64 0#64) ∧
      ∀ sel : BitVec 8, 7 ≤ sel.toNat → sel ≠ 0x23#8 →
        exec (.regWrite sel v) s = .next (s.failed 9#8 (sel.setWidth 64) 1#64 0#64)

/-- `PSET_COMMIT` (40_parameter_set R100, R103): its encoding, and `ILLEGAL_COMMAND` for its other words; with
`STG.WIDTH` in 1..64 it builds `APS` from the staging registers, masked to the width, and sets `APS_VALID`; with any
other 64-bit width it raises `INVALID_PARAMETER(width, 0, 0)` and leaves both. -/
def Obligations.PsetCommitBuildsOrRejects : Prop :=
  (∀ d0 d1 : Word, decode ⟨0x00000003#32, d0, d1⟩ = .ok .psetCommit) ∧
    IllegalWhen 0x03 (fun ctx imm rsv => ctx ≠ 0 ∨ imm ≠ 0 ∨ rsv ≠ 0) ∧
    ∀ s : State,
      (1 ≤ s.stg.width.toNat → s.stg.width.toNat ≤ 64 →
        exec .psetCommit s =
          .next (State.answer
            { s with
              apsValid := true
              aps :=
                { width := BitVec.ofNat 7 s.stg.width.toNat
                  poly := BitVec.ofNat 64 (s.stg.poly.toNat % 2 ^ s.stg.width.toNat)
                  init := BitVec.ofNat 64 (s.stg.init.toNat % 2 ^ s.stg.width.toNat)
                  refin := s.stg.flags.getLsbD 0
                  refout := s.stg.flags.getLsbD 1
                  xorout := BitVec.ofNat 64 (s.stg.xorout.toNat % 2 ^ s.stg.width.toNat)
                  check := BitVec.ofNat 64 (s.stg.check.toNat % 2 ^ s.stg.width.toNat)
                  name := s.stg.name
                  mask := BitVec.ofNat 64 (2 ^ s.stg.width.toNat - 1)
                  msb := BitVec.ofNat 64 (2 ^ (s.stg.width.toNat - 1)) } } 0#8 0#64 0#64)) ∧
      (s.stg.width.toNat = 0 ∨ 64 < s.stg.width.toNat →
        exec .psetCommit s = .next (s.failed 2#8 s.stg.width 0#64 0#64))

/-- `SELF_TEST` (40_parameter_set R104, R105): its encoding, and `ILLEGAL_COMMAND` for its other words; `NO_PARAMS`
before a commit; else the bitwise engine's value over the nine bytes of "123456789", answered when it equals `check`
and raised as `CHECKSUM_MISMATCH` with the name tag when it does not. No context changes. -/
def Obligations.SelfTestAnswersOrFails : Prop :=
  (∀ d0 d1 : Word, decode ⟨0x00000004#32, d0, d1⟩ = .ok .selfTest) ∧
    IllegalWhen 0x04 (fun ctx imm rsv => ctx ≠ 0 ∨ imm ≠ 0 ∨ rsv ≠ 0) ∧
    ∀ s : State,
      let v := bwValue s.aps
        (bwRun s.aps s.aps.init [0x31#8, 0x32#8, 0x33#8, 0x34#8, 0x35#8, 0x36#8, 0x37#8, 0x38#8, 0x39#8])
      (s.apsValid = false → exec .selfTest s = .next (s.failed 4#8 0#64 0#64 0#64)) ∧
      (s.apsValid = true → v = s.aps.check → exec .selfTest s = .next (s.answer 0#8 v 0#64)) ∧
      (s.apsValid = true → v ≠ s.aps.check → exec .selfTest s = .next (s.failed 3#8 v s.aps.check s.aps.name))

/-- `REFLECT` (41_bit_reflector R120, R123): its encoding, and `ILLEGAL_COMMAND` for its other words; the answer's
bit `j` is the operand's bit `width-1-j` below the width and 0 at the width and above, and no state is written. -/
def Obligations.ReflectReversesLowBits : Prop :=
  (∀ (w : Nat) (d0 d1 : Word), 1 ≤ w → w ≤ 64 →
      decode ⟨BitVec.ofNat 32 (0x05 + 0x10000 * (w - 1)), d0, d1⟩ = .ok (.reflect w d0)) ∧
    IllegalWhen 0x05 (fun ctx imm rsv => ctx ≠ 0 ∨ 64 ≤ imm ∨ rsv ≠ 0) ∧
    ∀ (w : Nat) (v : Word) (s : State), 1 ≤ w → w ≤ 64 →
      ∃ r : Word, exec (.reflect w v) s = .next (s.answer 0#8 r 0#64) ∧
        ∀ j, r.getLsbD j = (decide (j < w) && v.getLsbD (w - 1 - j))

/-! ### Binding contexts -/

/-- `BW_BIND` (42_bitwise_engine R130, R134): its encoding, and `ILLEGAL_COMMAND` for its other words; the context
becomes a bitwise engine over a copy of `APS`, reset; `CTX_RANGE` and `NO_PARAMS` otherwise, in that order. -/
def Obligations.BwBindBindsActiveSet : Prop :=
  (∀ (c : BitVec 8) (d0 d1 : Word), decode ⟨BitVec.ofNat 32 (0x10 + 0x100 * c.toNat), d0, d1⟩ = .ok (.bwBind c)) ∧
    IllegalWhen 0x10 (fun _ imm rsv => imm ≠ 0 ∨ rsv ≠ 0) ∧
    ∀ (s : State) (c : BitVec 8),
      (s.ctx.length ≤ c.toNat → exec (.bwBind c) s = .next (s.failed 5#8 (c.setWidth 64) 0#64 0#64)) ∧
      (c.toNat < s.ctx.length → s.apsValid = false → exec (.bwBind c) s = .next (s.failed 4#8 0#64 0#64 0#64)) ∧
      (c.toNat < s.ctx.length → s.apsValid = true →
        exec (.bwBind c) s =
          .next (State.answer
            { s with
              ctx := s.ctx.set c.toNat
                { kind := .bitwise, ps := s.aps, start := s.aps.init, reg := s.aps.init, slot := 0 } } 0#8 0#64 0#64))

/-- `TB_BIND` (43_table_engine R153, R156, R157, R158): its encoding, and `ILLEGAL_COMMAND` for its other words; a
hit uses the first valid slot whose eight key fields equal `APS`'s and counts a hit; a miss builds the lowest invalid
slot and counts a build; a full store raises `CACHE_FULL(c, TSLOTS, 0)`; the context becomes a table engine over that
slot, reset to the start value; `CTX_RANGE` and `NO_PARAMS` come first, in that order. -/
def Obligations.TbBindServesBuildsOrFails : Prop :=
  (∀ (c : BitVec 8) (d0 d1 : Word), decode ⟨BitVec.ofNat 32 (0x11 + 0x100 * c.toNat), d0, d1⟩ = .ok (.tbBind c)) ∧
    IllegalWhen 0x11 (fun _ imm rsv => imm ≠ 0 ∨ rsv ≠ 0) ∧
    ∀ (s : State) (c : BitVec 8),
      let start := if s.aps.refin then reverse s.aps.init s.aps.width.toNat else s.aps.init
      let bound : Nat → Context := fun k =>
        { kind := .table, ps := s.aps, start := start, reg := start, slot := BitVec.ofNat 8 k }
      (s.ctx.length ≤ c.toNat → exec (.tbBind c) s = .next (s.failed 5#8 (c.setWidth 64) 0#64 0#64)) ∧
      (c.toNat < s.ctx.length → s.apsValid = false → exec (.tbBind c) s = .next (s.failed 4#8 0#64 0#64 0#64)) ∧
      (∀ (k : Nat) (sl : Slot), c.toNat < s.ctx.length → s.apsValid = true → s.slots[k]? = some sl →
        sl.valid = true → sl.key.EqualEight s.aps →
        (∀ (j : Nat) (sl' : Slot), j < k → s.slots[j]? = some sl' → ¬ (sl'.valid = true ∧ sl'.key.EqualEight s.aps)) →
          exec (.tbBind c) s =
            .next (State.answer
              { s with ctx := s.ctx.set c.toNat (bound k), cacheHits := s.cacheHits + 1 } 0#8 0#64 0#64)) ∧
      (∀ (k : Nat) (sl : Slot), c.toNat < s.ctx.length → s.apsValid = true → NoKey s.slots s.aps →
        s.slots[k]? = some sl → sl.valid = false →
        (∀ (j : Nat) (sl' : Slot), j < k → s.slots[j]? = some sl' → sl'.valid = true) →
          exec (.tbBind c) s =
            .next (State.answer
              { s with
                ctx := s.ctx.set c.toNat (bound k)
                slots := s.slots.set k { valid := true, key := s.aps, table := tableGen s.aps }
                cacheBuilds := s.cacheBuilds + 1 } 0#8 0#64 0#64)) ∧
      (c.toNat < s.ctx.length → s.apsValid = true → NoKey s.slots s.aps → (∀ sl ∈ s.slots, sl.valid = true) →
        exec (.tbBind c) s =
          .next (s.failed 8#8 (c.setWidth 64) (BitVec.ofNat 64 s.slots.length) 0#64))

/-- `UNBIND` (44_context_commands R182): its encoding, and `ILLEGAL_COMMAND` for its other words; the context becomes
NONE and all 0, bound or not; no slot and no counter changes; in a state that meets the invariant, unbinding an
unbound context changes nothing but for the response; `CTX_RANGE` beyond the last context. -/
def Obligations.UnbindClearsContext : Prop :=
  (∀ (c : BitVec 8) (d0 d1 : Word), decode ⟨BitVec.ofNat 32 (0x12 + 0x100 * c.toNat), d0, d1⟩ = .ok (.unbind c)) ∧
    IllegalWhen 0x12 (fun _ imm rsv => imm ≠ 0 ∨ rsv ≠ 0) ∧
    ∀ (s : State) (c : BitVec 8),
      (s.ctx.length ≤ c.toNat → exec (.unbind c) s = .next (s.failed 5#8 (c.setWidth 64) 0#64 0#64)) ∧
      (c.toNat < s.ctx.length →
        exec (.unbind c) s =
          .next (State.answer
            { s with
              ctx := s.ctx.set c.toNat
                { kind := .none, ps := ⟨0, 0, 0, false, false, 0, 0, 0, 0, 0⟩, start := 0, reg := 0, slot := 0 } }
            0#8 0#64 0#64)) ∧
      (∀ x, s.BlockInv → s.ctx[c.toNat]? = some x → x.kind = .none →
        exec (.unbind c) s = .next (s.answer 0#8 0#64 0#64))

/-! ### Running contexts -/

/-- `RESET` (44_context_commands R183): its encoding, and `ILLEGAL_COMMAND` for its other words; `REG <- START` of a
bound context and nothing else; `CTX_RANGE` and `CTX_UNBOUND` otherwise. -/
def Obligations.EngineResetReloadsStart : Prop :=
  (∀ (c : BitVec 8) (d0 d1 : Word), decode ⟨BitVec.ofNat 32 (0x13 + 0x100 * c.toNat), d0, d1⟩ = .ok (.reset c)) ∧
    IllegalWhen 0x13 (fun _ imm rsv => imm ≠ 0 ∨ rsv ≠ 0) ∧
    ∀ (s : State) (c : BitVec 8),
      (s.ctx.length ≤ c.toNat → exec (.reset c) s = .next (s.failed 5#8 (c.setWidth 64) 0#64 0#64)) ∧
      ∀ x, s.ctx[c.toNat]? = some x →
        (x.kind = .none → exec (.reset c) s = .next (s.failed 6#8 (c.setWidth 64) 0#64 0#64)) ∧
        (x.kind ≠ .none →
          exec (.reset c) s =
            .next (State.answer { s with ctx := s.ctx.set c.toNat { x with reg := x.start } } 0#8 0#64 0#64))

/-- `UPDATE_BYTE` (44_context_commands R180, R184; 43_table_engine R154): its encoding, and `ILLEGAL_COMMAND` for its
other words; a bitwise context takes one `BW_STEP`, a table context one table step by the three cases of R154 over
its slot's table, and nothing else changes; `CTX_RANGE` and `CTX_UNBOUND` otherwise. -/
def Obligations.UpdateByteStepsEngine : Prop :=
  (∀ (c b : BitVec 8) (d0 d1 : Word),
      decode ⟨BitVec.ofNat 32 (0x14 + 0x100 * c.toNat + 0x10000 * b.toNat), d0, d1⟩ = .ok (.updateByte c b)) ∧
    IllegalWhen 0x14 (fun _ _ rsv => rsv ≠ 0) ∧
    ∀ (s : State) (c b : BitVec 8),
      (s.ctx.length ≤ c.toNat → exec (.updateByte c b) s = .next (s.failed 5#8 (c.setWidth 64) 0#64 0#64)) ∧
      ∀ x, s.ctx[c.toNat]? = some x →
        (x.kind = .none → exec (.updateByte c b) s = .next (s.failed 6#8 (c.setWidth 64) 0#64 0#64)) ∧
        (x.kind = .bitwise →
          exec (.updateByte c b) s =
            .next (State.answer { s with ctx := s.ctx.set c.toNat { x with reg := bwStep x.ps x.reg b } }
              0#8 0#64 0#64)) ∧
        (∀ sl, x.kind = .table → s.slots[x.slot.toNat]? = some sl →
          exec (.updateByte c b) s =
            .next (State.answer
              { s with
                ctx := s.ctx.set c.toNat
                  { x with
                    reg :=
                      if x.ps.refin = true then
                        BitVec.ofNat 64 (x.reg.toNat / 256) ^^^ sl.table.getD ((b.toNat ^^^ x.reg.toNat) % 256) 0
                      else if x.ps.width.toNat < 8 then
                        sl.table.getD ((b.toNat ^^^ x.reg.toNat * 2 ^ (8 - x.ps.width.toNat)) % 256) 0
                      else
                        sl.table.getD ((b.toNat ^^^ x.reg.toNat / 2 ^ (x.ps.width.toNat - 8)) % 256) 0 ^^^
                          BitVec.ofNat 64 (x.reg.toNat * 256) } } 0#8 0#64 0#64))

/-- `UPDATE_BLOCK` (44_context_commands R185): its encoding, and `ILLEGAL_COMMAND` for its other words; the bytes of
the run are fed in rising address order to the context's engine and nothing else changes (but the model's own draw
counter, log entry 4, when another agent writes the run), each byte the input memory's, or a value another agent
writes to it meanwhile (20_memory R68); `CTX_RANGE`, `CTX_UNBOUND` and, when offset plus length in unbounded
arithmetic exceeds `IMEM_BYTES`, `MEM_RANGE(off, len, 0)` otherwise, in that order. -/
def Obligations.UpdateBlockFeedsRun : Prop :=
  (∀ (c : BitVec 8) (d0 d1 : Word),
      decode ⟨BitVec.ofNat 32 (0x15 + 0x100 * c.toNat), d0, d1⟩ = .ok (.updateBlock c d0 d1)) ∧
    IllegalWhen 0x15 (fun _ imm rsv => imm ≠ 0 ∨ rsv ≠ 0) ∧
    ∀ (s : State) (c : BitVec 8) (off len : Word),
      (s.ctx.length ≤ c.toNat → exec (.updateBlock c off len) s = .next (s.failed 5#8 (c.setWidth 64) 0#64 0#64)) ∧
      ∀ x, s.ctx[c.toNat]? = some x →
        (x.kind = .none → exec (.updateBlock c off len) s = .next (s.failed 6#8 (c.setWidth 64) 0#64 0#64)) ∧
        (x.kind ≠ .none → s.imemBytes < off.toNat + len.toNat →
          exec (.updateBlock c off len) s = .next (s.failed 10#8 off len 0#64)) ∧
        (x.kind ≠ .none → off.toNat + len.toNat ≤ s.imemBytes →
          ∃ (bytes : List Byte) (d : Nat), bytes.length = len.toNat ∧
            (∀ (k : Nat) (b : Byte), bytes[k]? = some b →
              b = s.imem.read (off.toNat + k) ∨ (off.toNat + k, b) ∈ s.racing) ∧
            (s.racing = [] → d = s.draws) ∧
            exec (.updateBlock c off len) s =
              .next (State.answer { s with ctx := s.ctx.set c.toNat { x with reg := runReg s x bytes }, draws := d }
                0#8 0#64 0#64))

/-- A host's write before the command is seen by it, and a byte that another agent writes while it runs reads as the
old value or one written meanwhile (20_memory R68): a write of `b` at `a` and then `UPDATE_BLOCK` with the writes
`ws` racing it, as two steps. The draw and when the racing writes land are the model's form of it (log entry 4). -/
def Obligations.HostWriteIsSeenRacedByteIsADraw : Prop :=
  ∀ (s : State) (a : Nat) (b : Byte) (c : BitVec 8) (off len : Word) (ws : List Host.Cell) (rest : List HostAction)
    (x : Context),
    s.pending = .writeInput a b :: .issue (encode (.updateBlock c off len)) ws :: rest →
    s.ctx[c.toNat]? = some x → x.kind ≠ .none → a < s.imemBytes → (∀ w ∈ ws, w.1 < s.imemBytes) →
    off.toNat + len.toNat ≤ s.imemBytes → Memory.wf s.imem = true →
      ∃ (s1 : State) (bytes : List Byte) (d : Nat), step s = .next s1 ∧ bytes.length = len.toNat ∧
        (∀ (k : Nat) (y : Byte), bytes[k]? = some y →
          (y = if off.toNat + k = a then b else s.imem.read (off.toNat + k)) ∨ (off.toNat + k, y) ∈ ws) ∧
        step s1 =
          .next (State.answer
            { s with
              pending := rest
              racing := []
              imem := Memory.writeAll (s.imem.write a b) ws
              ctx := s.ctx.set c.toNat { x with reg := runReg s x bytes }
              draws := d } 0#8 0#64 0#64)

/-- `VALUE` (44_context_commands R180, R186; 42_bitwise_engine R132; 43_table_engine R155): its encoding, and
`ILLEGAL_COMMAND` for its other words; the answer is, bit by bit below the width, the register's bit (reflected over
the width when `refout` is set for a bitwise engine, when `refout` differs from `refin` for a table engine) XOR
`xorout`'s, and 0 above; no state is written; `CTX_RANGE` and `CTX_UNBOUND` otherwise. -/
def Obligations.ValueAnswersCrc : Prop :=
  (∀ (c : BitVec 8) (d0 d1 : Word), decode ⟨BitVec.ofNat 32 (0x16 + 0x100 * c.toNat), d0, d1⟩ = .ok (.value c)) ∧
    IllegalWhen 0x16 (fun _ imm rsv => imm ≠ 0 ∨ rsv ≠ 0) ∧
    ∀ (s : State) (c : BitVec 8),
      (s.ctx.length ≤ c.toNat → exec (.value c) s = .next (s.failed 5#8 (c.setWidth 64) 0#64 0#64)) ∧
      ∀ x, s.ctx[c.toNat]? = some x →
        (x.kind = .none → exec (.value c) s = .next (s.failed 6#8 (c.setWidth 64) 0#64 0#64)) ∧
        (x.kind ≠ .none → x.ps.Valid →
          ∃ v : Word, exec (.value c) s = .next (s.answer 0#8 v 0#64) ∧
            ∀ j, v.getLsbD j =
              (decide (j < x.ps.width.toNat) &&
                (xor (x.reg.getLsbD
                    (if (x.kind = .bitwise ∧ x.ps.refout = true) ∨ (x.kind = .table ∧ x.ps.refout ≠ x.ps.refin) then
                      x.ps.width.toNat - 1 - j else j))
                  (x.ps.xorout.getLsbD j))))

/-- `CTX_READ` (44_context_commands R187): its encoding, and `ILLEGAL_COMMAND` for its other words; a reserved
selector raises `ILLEGAL_REGISTER(sel, 0, 0)` on any context; `KIND` answers on any context; the other eleven fields
answer on a bound one and raise `CTX_UNBOUND` on an unbound one; `CTX_RANGE` beyond the last context. No state is
written. -/
def Obligations.CtxReadAnswersField : Prop :=
  (∀ (c sel : BitVec 8) (d0 d1 : Word),
      decode ⟨BitVec.ofNat 32 (0x17 + 0x100 * c.toNat + 0x10000 * sel.toNat), d0, d1⟩ = .ok (.ctxRead c sel)) ∧
    IllegalWhen 0x17 (fun _ _ rsv => rsv ≠ 0) ∧
    ∀ (s : State) (c sel : BitVec 8),
      (s.ctx.length ≤ c.toNat → exec (.ctxRead c sel) s = .next (s.failed 5#8 (c.setWidth 64) 0#64 0#64)) ∧
      ∀ x, s.ctx[c.toNat]? = some x →
        (0x0C ≤ sel.toNat → exec (.ctxRead c sel) s = .next (s.failed 9#8 (sel.setWidth 64) 0#64 0#64)) ∧
        (x.kind = .none → sel.toNat ≤ 0x0B → sel ≠ 0x09#8 →
          exec (.ctxRead c sel) s = .next (s.failed 6#8 (c.setWidth 64) 0#64 0#64)) ∧
        exec (.ctxRead c 0x09#8) s =
          .next (s.answer 0#8 (match x.kind with | .none => 0 | .bitwise => 1 | .table => 2) 0#64) ∧
        (x.kind ≠ .none →
          ∀ p ∈ ([(0x00#8, BitVec.ofNat 64 x.ps.width.toNat), (0x01#8, x.ps.poly), (0x02#8, x.ps.init),
              (0x03#8, BitVec.ofNat 64 (2 * x.ps.refout.toNat + x.ps.refin.toNat)), (0x04#8, x.ps.xorout),
              (0x05#8, x.ps.check), (0x06#8, x.ps.name), (0x07#8, x.ps.mask), (0x08#8, x.ps.msb), (0x0A#8, x.start),
              (0x0B#8, BitVec.ofNat 64 x.slot.toNat)] : List (BitVec 8 × Word)),
            exec (.ctxRead c p.1) s = .next (s.answer 0#8 p.2 0#64)) ∧
        (s.BlockInv → x.kind = .bitwise → exec (.ctxRead c 0x0B#8) s = .next (s.answer 0#8 0#64 0#64))

/-- `TABLE_READ` (43_table_engine R159): its encoding, and `ILLEGAL_COMMAND` for its other words; the answer is the
entry of the table context's slot and no state is written; in a state that meets the invariant that slot is valid and
its entry 0 reads 0; `CTX_RANGE`, `CTX_UNBOUND` and, on a bitwise context, `WRONG_KIND(c, 1, 0)` otherwise. -/
def Obligations.TableReadAnswersEntry : Prop :=
  (∀ (c i : BitVec 8) (d0 d1 : Word),
      decode ⟨BitVec.ofNat 32 (0x18 + 0x100 * c.toNat + 0x10000 * i.toNat), d0, d1⟩ = .ok (.tableRead c i)) ∧
    IllegalWhen 0x18 (fun _ _ rsv => rsv ≠ 0) ∧
    ∀ (s : State) (c i : BitVec 8),
      (s.ctx.length ≤ c.toNat → exec (.tableRead c i) s = .next (s.failed 5#8 (c.setWidth 64) 0#64 0#64)) ∧
      ∀ x, s.ctx[c.toNat]? = some x →
        (x.kind = .none → exec (.tableRead c i) s = .next (s.failed 6#8 (c.setWidth 64) 0#64 0#64)) ∧
        (x.kind = .bitwise → exec (.tableRead c i) s = .next (s.failed 7#8 (c.setWidth 64) 1#64 0#64)) ∧
        (∀ (sl : Slot) (e : Word), x.kind = .table → s.slots[x.slot.toNat]? = some sl → sl.table[i.toNat]? = some e →
          exec (.tableRead c i) s = .next (s.answer 0#8 e 0#64)) ∧
        (s.BlockInv → x.kind = .table →
          (∃ sl, s.slots[x.slot.toNat]? = some sl ∧ sl.valid = true ∧ sl.table.length = 256) ∧
            exec (.tableRead c 0x00#8) s = .next (s.answer 0#8 0#64 0#64))

/-- In a state that meets the invariant, `TABLE_READ c, i` on a table context answers entry `i` of the table
generated for that context's own parameter set: the value of a fresh bitwise engine over the helper set after the one
byte `i` (43_table_engine R150, R151, R159). -/
def Obligations.TableReadAnswersGeneratedEntry : Prop :=
  ∀ (s : State) (c i : BitVec 8) (x : Context), s.BlockInv → s.ctx[c.toNat]? = some x → x.kind = .table →
    exec (.tableRead c i) s =
      .next (s.answer 0#8
        (bwValue { x.ps with init := 0, refout := x.ps.refin, xorout := 0 }
          (bwStep { x.ps with init := 0, refout := x.ps.refin, xorout := 0 } 0 i)) 0#64)

/-! ### Rules over all commands -/

/-- Every context command on an index at or beyond `NCTX` raises `CTX_RANGE(c, 0, 0)`, before any other check of its
own (30_encoding R83, R88; 60_exceptions R203). -/
def Obligations.ContextCommandsCheckRange : Prop :=
  ∀ (i : Instr) (c : BitVec 8) (s : State), i.ctxIndex = some c → s.ctx.length ≤ c.toNat →
    exec i s = .next (s.failed 5#8 (c.setWidth 64) 0#64 0#64)

/-- The five commands of 44_context_commands R181, and `CTX_READ` with every mapped selector but KIND, raise
`CTX_UNBOUND(c, 0, 0)` on a context of kind NONE; for a bound context and an in-range run none of `RESET`,
`UPDATE_BYTE`, `UPDATE_BLOCK` and `VALUE` fails. -/
def Obligations.UnboundContextRaisesBoundNeverFails : Prop :=
  ∀ (s : State) (c : BitVec 8) (x : Context), s.ctx[c.toNat]? = some x →
    (x.kind = .none →
      ∀ i : Instr,
        (i = .reset c ∨ (∃ b, i = .updateByte c b) ∨ (∃ off len, i = .updateBlock c off len) ∨ i = .value c ∨
          (∃ k, i = .tableRead c k) ∨ ∃ sel, i = .ctxRead c sel ∧ sel.toNat ≤ 0x0B ∧ sel ≠ 0x09#8) →
        exec i s = .next (s.failed 6#8 (c.setWidth 64) 0#64 0#64)) ∧
    (x.kind ≠ .none →
      ∀ i : Instr,
        (i = .reset c ∨ (∃ b, i = .updateByte c b) ∨
          (∃ off len, i = .updateBlock c off len ∧ off.toNat + len.toNat ≤ s.imemBytes) ∨ i = .value c) →
        ∃ t r, exec i s = .next t ∧ t.responses = s.responses ++ [r] ∧ r.rcode = 0#8)

/-- Every command ends, in a next state, with exactly one more response, whose code is 0 to 10 and whose `RDATA1` is
0 on success: no command faults, stops or is refused (30_encoding R80; 60_exceptions R200, R207, R214). -/
def Obligations.EveryCommandAnswersOnce : Prop :=
  ∀ (i : Instr) (s : State), ∃ t r, exec i s = .next t ∧ t.responses = s.responses ++ [r] ∧ r.rcode.toNat ≤ 10 ∧
    (r.rcode = 0#8 → r.rdata1 = 0#64)

/-- A command that answers an error writes the error record and nothing else: `LAST_ERR` is the code, `ERR_DATA0` and
`ERR_DATA1` are the response's data words (60_exceptions R201). -/
def Obligations.FailedCommandWritesOnlyErrorRecord : Prop :=
  ∀ (i : Instr) (s t : State) (r : Response), exec i s = .next t → t.responses = s.responses ++ [r] → r.rcode ≠ 0#8 →
    ∃ d2, t = { s with lastErr := r.rcode, errData0 := r.rdata0, errData1 := r.rdata1, errData2 := d2,
                       responses := s.responses ++ [r] }

/-- A command that succeeds leaves the error record unchanged, but for `REG_WRITE LAST_ERR`, which clears it
(60_exceptions R207, 10_state R43). -/
def Obligations.SuccessKeepsErrorRecord : Prop :=
  ∀ (i : Instr) (s t : State) (r : Response), exec i s = .next t → t.responses = s.responses ++ [r] → r.rcode = 0#8 →
    ((∀ v, i ≠ .regWrite 0x23#8 v) →
      t.lastErr = s.lastErr ∧ t.errData0 = s.errData0 ∧ t.errData1 = s.errData1 ∧ t.errData2 = s.errData2) ∧
    ((∃ v, i = .regWrite 0x23#8 v) → t.lastErr = 0 ∧ t.errData0 = 0 ∧ t.errData1 = 0 ∧ t.errData2 = 0)

/-- No command answers an error outside its row of 60_exceptions R204. -/
def Obligations.ErrorsStayInTheirRow : Prop :=
  ∀ (i : Instr) (s t : State) (r : Response), exec i s = .next t → t.responses = s.responses ++ [r] →
    r.rcode ∈ i.mayReturn

/-- Only `PSET_COMMIT` writes `APS` and `APS_VALID`, only `REG_WRITE` writes staging, and no command clears
`APS_VALID` (10_state R31, R34, R35). -/
def Obligations.ParameterRegistersHaveOneWriter : Prop :=
  ∀ (i : Instr) (s t : State), exec i s = .next t →
    (i ≠ .psetCommit → t.aps = s.aps ∧ t.apsValid = s.apsValid) ∧
    ((∀ sel v, i ≠ .regWrite sel v) → t.stg = s.stg) ∧
    (s.apsValid = true → t.apsValid = true)

/-- A context is changed only by a command that names it; `REG_WRITE` and `PSET_COMMIT` change none (70_reset R238).
-/
def Obligations.ContextChangesOnlyWhenNamed : Prop :=
  ∀ (i : Instr) (s t : State), exec i s = .next t →
    t.ctx.length = s.ctx.length ∧
    (∀ (d : Nat), (∀ c, i.ctxIndex = some c → c.toNat ≠ d) → t.ctx[d]? = s.ctx[d]?) ∧
    (i.ctxIndex = none → t.ctx = s.ctx)

/-- Only `BW_BIND`, `TB_BIND` and `UNBIND` write a context's kind, parameter set, start value and slot; only they,
`RESET` and the update commands write its register (10_state R37). -/
def Obligations.BindingFieldsHaveTheirWriters : Prop :=
  ∀ (i : Instr) (s t : State) (d : Nat) (x y : Context), exec i s = .next t → s.ctx[d]? = some x → t.ctx[d]? = some y →
    (i.binds = false → y.kind = x.kind ∧ y.ps = x.ps ∧ y.start = x.start ∧ y.slot = x.slot) ∧
    (i.binds = false → (∀ c, i ≠ .reset c) → (∀ c b, i ≠ .updateByte c b) → (∀ c off len, i ≠ .updateBlock c off len) →
      y = x)

/-- The table store and its two counters are written by `TB_BIND` alone, and no command changes a slot that is valid
or the number of slots (10_state R41, R42; 43_table_engine R157, R161). -/
def Obligations.NoCommandChangesAValidSlot : Prop :=
  ∀ (i : Instr) (s t : State), exec i s = .next t →
    ((∀ c, i ≠ .tbBind c) → t.slots = s.slots ∧ t.cacheBuilds = s.cacheBuilds ∧ t.cacheHits = s.cacheHits) ∧
    t.slots.length = s.slots.length ∧
    ∀ (k : Nat) (sl : Slot), s.slots[k]? = some sl → sl.valid = true → t.slots[k]? = some sl

/-- A successful `TB_BIND` counts either one hit and leaves the store as it is, or one build and fills exactly one
invalid slot, the counters modulo 2^64; the number of valid slots never falls (10_state R42, 43_table_engine R158).
-/
def Obligations.TableBindsAreCounted : Prop :=
  ∀ (c : BitVec 8) (s t : State) (r : Response), exec (.tbBind c) s = .next t → t.responses = s.responses ++ [r] →
    r.rcode = 0#8 →
      (t.cacheHits = s.cacheHits + 1 ∧ t.cacheBuilds = s.cacheBuilds ∧ t.slots = s.slots) ∨
      (t.cacheHits = s.cacheHits ∧ t.cacheBuilds = s.cacheBuilds + 1 ∧
        (t.slots.filter Slot.valid).length = (s.slots.filter Slot.valid).length + 1)

/-- No command writes the input memory, changes a parameter, or touches what the host still has to do: every byte
reads as before (20_memory R61, R67; 70_reset R242). -/
def Obligations.NoCommandWritesInputMemory : Prop :=
  ∀ (i : Instr) (s t : State), exec i s = .next t →
    (∀ a, t.imem.read a = s.imem.read a) ∧ t.imem = s.imem ∧ t.imemBytes = s.imemBytes ∧
      t.ctx.length = s.ctx.length ∧ t.slots.length = s.slots.length ∧ t.pending = s.pending ∧ t.racing = s.racing

/-- A successful `REG_READ`, `SELF_TEST`, `REFLECT`, `VALUE`, `CTX_READ` or `TABLE_READ` writes no state (40 R101,
R105; 41 R123; 43 R159; 44 R186, R187). -/
def Obligations.ReadCommandsWriteNothing : Prop :=
  ∀ (i : Instr) (s t : State) (r : Response), i.readsOnly = true → exec i s = .next t →
    t.responses = s.responses ++ [r] → r.rcode = 0#8 → t = { s with responses := s.responses ++ [r] }

/-! ### What cannot be observed -/

/-- No command reads a response: from states that differ in the responses delivered so far alone, a command does the
same and adds the same response (10_state R49). -/
def Obligations.ResponsesAreNeverRead : Prop :=
  ∀ (i : Instr) (s : State) (rs : List Response), ∃ (t : State) (r : Response),
    exec i s = .next t ∧ t.responses = s.responses ++ [r] ∧
      exec i { s with responses := rs } = .next { t with responses := rs ++ [r] }

/-- The bits of `REG` at `width` and above are observed by no command: from two states that meet the invariant and
differ in those bits alone, every command answers the same and leads to two states that differ in those bits alone
(10_state R39, R48). -/
def Obligations.HighRegisterBitsUnobservable : Prop :=
  ∀ (i : Instr) (s t : State), s.BlockInv → t.BlockInv → s.AgreeBelow t →
    ∃ s' t', exec i s = .next s' ∧ exec i t = .next t' ∧ s'.responses = t'.responses ∧ s'.AgreeBelow t'

/-! ### The datapath -/

/-- The laws of the reflector, for every width 1..64 and every word (41_bit_reflector R121 (a) to (f)). -/
def Obligations.ReflectorLaws : Prop :=
  ∀ (w : Nat) (v a b : Word), 1 ≤ w → w ≤ 64 →
    reverse v w ≤ maskOf w ∧
    reverse v w = reverse (v &&& maskOf w) w ∧
    reverse (reverse v w) w = v &&& maskOf w ∧
    reverse 0 w = 0 ∧ reverse (maskOf w) w = maskOf w ∧
    reverse (a ^^^ b) w = reverse a w ^^^ reverse b w ∧
    reverse v 1 = v &&& 1

/-- `BW_STEP` bit by bit (42_bitwise_engine R131): it takes the byte's bits from the most significant to the least, or
from the least to the most when `refin`, and each bit step shifts all 64 bits left by one and XORs `poly` when bit
`width-1` differs from the input bit. -/
def Obligations.BitwiseStepBits : Prop :=
  (∀ (p : ParamSet) (reg : Word) (bit : Bool) (j : Nat), p.Valid → j < 64 →
      (bwBit p reg bit).getLsbD j =
        xor (decide (1 ≤ j) && reg.getLsbD (j - 1))
          ((xor (reg.getLsbD (p.width.toNat - 1)) bit) && p.poly.getLsbD j)) ∧
    ∀ (p : ParamSet) (reg : Word) (b : Byte),
      bwStep p reg b =
        (if p.refin = true then
          [b.getLsbD 0, b.getLsbD 1, b.getLsbD 2, b.getLsbD 3, b.getLsbD 4, b.getLsbD 5, b.getLsbD 6, b.getLsbD 7]
        else
          [b.getLsbD 7, b.getLsbD 6, b.getLsbD 5, b.getLsbD 4, b.getLsbD 3, b.getLsbD 2, b.getLsbD 1,
            b.getLsbD 0]).foldl (bwBit p) reg

/-- Only the low `width` bits of the register matter to the bitwise engine (42_bitwise_engine R133). -/
def Obligations.BitwiseLowBitsMatter : Prop :=
  ∀ (p : ParamSet) (reg : Word) (b : Byte), p.Valid →
    bwStep p reg b &&& p.mask = bwStep p (reg &&& p.mask) b &&& p.mask ∧
    bwValue p reg = bwValue p (reg &&& p.mask)

/-- The laws of the table generator, for every valid set (43_table_engine R152 (a) to (d)). -/
def Obligations.TableGeneratorLaws : Prop :=
  ∀ (p q : ParamSet), p.Valid → q.Valid →
    (tableGen p).length = 256 ∧
    (∀ e ∈ tableGen p, e ≤ maskOf p.width.toNat) ∧
    (tableGen p)[0]? = some 0 ∧
    (∀ (a b : Byte) (ea eb : Word), (tableGen p)[a.toNat]? = some ea → (tableGen p)[b.toNat]? = some eb →
      (tableGen p)[(a ^^^ b).toNat]? = some (ea ^^^ eb)) ∧
    (p.width = q.width → p.poly = q.poly → p.refin = q.refin → tableGen p = tableGen q)

/-- Cross-engine equivalence, the primary correctness invariant: for every valid set and every byte sequence the table
engine over the generated table and the bitwise engine give the same value (43_table_engine R160). -/
def Obligations.EnginesAgree : Prop :=
  ∀ (p : ParamSet) (bytes : List Byte), p.Valid →
    tbValue p (tbRun p (tableGen p) (tbStart p) bytes) = bwValue p (bwRun p p.init bytes)

/-! ### Sequences of commands -/

/-- `UPDATE_BLOCK c, off, len` leaves the same state, but for the responses, as `UPDATE_BYTE` of the run's bytes in
order (44_context_commands R188 (a), 30_encoding R90 `UPDATE_BYTES`). -/
def Obligations.BlockEqualsByteUpdates : Prop :=
  ∀ (s : State) (c : BitVec 8) (off len : Word) (x : Context), s.ctx[c.toNat]? = some x → x.kind ≠ .none →
    off.toNat + len.toNat ≤ s.imemBytes → s.racing = [] →
      ∃ t u, exec (.updateBlock c off len) s = .next t ∧
        execAll (updateBytes c ((List.range len.toNat).map fun k => s.imem.read (off.toNat + k))) s = .next u ∧
        t = { u with responses := s.responses ++ [⟨0, 0, 0⟩] } ∧
        u.responses = s.responses ++ List.replicate len.toNat ⟨0, 0, 0⟩

/-- A run fed in two blocks leaves the same state, but for the responses, as the run fed in one (44_context_commands
R188 (b)). -/
def Obligations.BlockSplits : Prop :=
  ∀ (s : State) (c : BitVec 8) (off n m off' nm : Word) (x : Context), s.ctx[c.toNat]? = some x → x.kind ≠ .none →
    s.racing = [] → off.toNat + n.toNat + m.toNat ≤ s.imemBytes → off'.toNat = off.toNat + n.toNat →
    nm.toNat = n.toNat + m.toNat →
      ∃ t u, execAll [.updateBlock c off n, .updateBlock c off' m] s = .next t ∧
        exec (.updateBlock c off nm) s = .next u ∧ u = { t with responses := s.responses ++ [⟨0, 0, 0⟩] }

/-- `RESET c` and then `VALUE c` answer the empty-input value of 42_bitwise_engine R136 (b), the same for both engines
(44_context_commands R188 (d)). -/
def Obligations.ValueAfterResetIsEmptyInput : Prop :=
  ∀ (s : State) (c : BitVec 8) (x : Context), s.BlockInv → s.ctx[c.toNat]? = some x → x.kind ≠ .none →
    ∃ t, execAll [.reset c, .value c] s = .next t ∧
      t.responses = s.responses ++
        [⟨0, 0, 0⟩,
         ⟨0, ((if x.ps.refout = true then reverse x.ps.init x.ps.width.toNat else x.ps.init) ^^^ x.ps.xorout) &&&
            x.ps.mask, 0⟩]

/-- In states that meet the invariant, a table context and a bitwise context over the same set, both reset and fed the
same run, answer the same `VALUE` (43_table_engine R160, by commands). -/
def Obligations.ResetUpdateValueAgreeAcrossEngines : Prop :=
  ∀ (s : State) (c d : BitVec 8) (off len : Word) (x y : Context), s.BlockInv → s.racing = [] → c ≠ d →
    s.ctx[c.toNat]? = some x → s.ctx[d.toNat]? = some y → x.kind = .bitwise → y.kind = .table → x.ps = y.ps →
    off.toNat + len.toNat ≤ s.imemBytes →
      ∃ t v, execAll [.reset c, .updateBlock c off len, .reset d, .updateBlock d off len, .value c, .value d] s =
          .next t ∧
        t.responses = s.responses ++
          [⟨0, 0, 0⟩, ⟨0, 0, 0⟩, ⟨0, 0, 0⟩, ⟨0, 0, 0⟩, ⟨0, v, 0⟩, ⟨0, v, 0⟩]

/-- `PSET_LOAD` expands to the seven staging writes and a commit and succeeds exactly when the commit does: a width in
1..64 leaves `APS` built of its operands, any other raises `INVALID_PARAMETER` and leaves `APS` (30_encoding R90). -/
def Obligations.PsetLoadSucceedsExactlyWhenCommitDoes : Prop :=
  ∀ (s : State) (width poly init xorout check name : Word) (refin refout : Bool),
    ∃ t r, execAll (psetLoad width poly init refin refout xorout check name) s = .next t ∧
      t.responses = s.responses ++ List.replicate 7 ⟨0, 0, 0⟩ ++ [r] ∧
      (1 ≤ width.toNat ∧ width.toNat ≤ 64 → r = ⟨0, 0, 0⟩ ∧ t.apsValid = true ∧ t.aps.Valid ∧
        t.aps.width.toNat = width.toNat ∧ t.aps.poly.toNat = poly.toNat % 2 ^ width.toNat ∧
        t.aps.init.toNat = init.toNat % 2 ^ width.toNat ∧ t.aps.refin = refin ∧ t.aps.refout = refout ∧
        t.aps.xorout.toNat = xorout.toNat % 2 ^ width.toNat ∧ t.aps.check.toNat = check.toNat % 2 ^ width.toNat ∧
        t.aps.name = name) ∧
      (¬ (1 ≤ width.toNat ∧ width.toNat ≤ 64) → r = ⟨2, width, 0⟩ ∧ t.apsValid = s.apsValid ∧ t.aps = s.aps)

/-! ### A word that decodes to no command, beside other agents' writes -/

/-- A step whose next action is a transaction that decodes to no command raises `ILLEGAL_COMMAND(zext_64(CMD), 0, 0)`
and does nothing else (30_encoding R82, R88). What stands around it is the model's choice, as for a command: the
action is taken off the host's list (log entry 1), the other agents' writes `ws` are in the input memory when it ends
(log entry 4), and the premise that they lie in the input memory keeps off the fault of log entry 9. -/
def Obligations.StepAnswersUndecodedWord : Prop :=
  ∀ (s : State) (t : Transaction) (ws : List Host.Cell) (rest : List HostAction) (e : DecodeError),
    s.pending = .issue t ws :: rest → decode t = .error e → (∀ w ∈ ws, w.1 < s.imemBytes) →
      step s =
        .next
          { s.failed 1#8 (t.cmd.setWidth 64) 0#64 0#64 with
            pending := rest
            racing := []
            imem := s.imem.writeAll ws }
end

