-- ==== Sys2Proof/Laws/Datapath.lean ====
section
/-! SUPPORT. The first laws of the datapath: the masks and the reflector bit by bit (00_scope R11, 41_bit_reflector R120),
what a valid parameter set says of them, the shape of a generated table, and what a lookup finds (43_table_engine
R157). -/

namespace Sys2Proof.Machine

/-! ### Masks -/

theorem toNat_maskOf (w : Nat) (h : w ≤ 64) : (maskOf w).toNat = 2 ^ w - 1 := by
  have : 2 ^ w ≤ 2 ^ 64 := Nat.pow_le_pow_right (by decide) h
  simp only [maskOf, BitVec.toNat_ofNat]
  exact Nat.mod_eq_of_lt (by omega)

theorem toNat_msbOf (w : Nat) (h1 : 1 ≤ w) (h : w ≤ 64) : (msbOf w).toNat = 2 ^ (w - 1) := by
  have : 2 ^ (w - 1) < 2 ^ 64 := Nat.pow_lt_pow_right (by decide) (by omega)
  simp only [msbOf, BitVec.toNat_ofNat]
  exact Nat.mod_eq_of_lt this

theorem getLsbD_maskOf (w i : Nat) (h : w ≤ 64) : (maskOf w).getLsbD i = decide (i < w) := by
  rw [← BitVec.testBit_toNat, toNat_maskOf w h, Nat.testBit_two_pow_sub_one]

theorem getLsbD_msbOf (w i : Nat) (h1 : 1 ≤ w) (h : w ≤ 64) : (msbOf w).getLsbD i = decide (w - 1 = i) := by
  rw [← BitVec.testBit_toNat, toNat_msbOf w h1 h, Nat.testBit_two_pow]

theorem toNat_and_maskOf (v : Word) (w : Nat) (h : w ≤ 64) : (v &&& maskOf w).toNat = v.toNat % 2 ^ w := by
  rw [BitVec.toNat_and, toNat_maskOf w h, Nat.and_two_pow_sub_one_eq_mod]

theorem ParamSet.Valid.mask_maskOf {p : ParamSet} (h : p.Valid) : p.mask = maskOf p.width.toNat := by
  apply BitVec.eq_of_toNat_eq
  rw [h.mask_eq, toNat_maskOf _ h.width_le]

theorem ParamSet.Valid.msb_msbOf {p : ParamSet} (h : p.Valid) : p.msb = msbOf p.width.toNat := by
  apply BitVec.eq_of_toNat_eq
  rw [h.msb_eq, toNat_msbOf _ h.width_pos h.width_le]

/-! ### The reflector -/

@[simp] theorem getLsbD_bitWord (b : Bool) (i : Nat) : (bitWord b).getLsbD i = (decide (i = 0) && b) := by
  cases b <;> by_cases h : i = 0 <;> simp [bitWord, h]

theorem getLsbD_reverseUpTo (v : Word) (w k i : Nat) (hk : k ≤ 64) :
    (reverseUpTo v w k).getLsbD i = (decide (i < k) && v.getLsbD (w - 1 - i)) := by
  induction k with
  | zero => simp [reverseUpTo]
  | succ k ih =>
    have ih := ih (by omega)
    simp only [reverseUpTo, BitVec.getLsbD_or, ih, BitVec.getLsbD_shiftLeft, getLsbD_bitWord]
    rcases Nat.lt_trichotomy i k with h | h | h
    · simp [h, show i < k + 1 by omega]
    · subst h
      simp [show i < 64 by omega]
    · simp [show ¬ i < k by omega, show ¬ i < k + 1 by omega, show ¬ i - k = 0 by omega]

/-- Output bit `i` of the network is input bit `w-1-i` below the width, and 0 at the width and above (41_bit_reflector
R120). -/
theorem getLsbD_reverse (v : Word) (w i : Nat) (h : w ≤ 64) :
    (reverse v w).getLsbD i = (decide (i < w) && v.getLsbD (w - 1 - i)) :=
  getLsbD_reverseUpTo v w w i h

/-- A word whose bits at `w` and above are 0 is below `2 ^ w`. -/
theorem toNat_lt_of_getLsbD (v : Word) (w : Nat) (h : ∀ i, w ≤ i → v.getLsbD i = false) : v.toNat < 2 ^ w := by
  apply Nat.lt_pow_two_of_testBit
  intro i hi
  rw [BitVec.testBit_toNat]
  exact h i hi

theorem getLsbD_of_toNat_lt (v : Word) (w i : Nat) (h : v.toNat < 2 ^ w) (hi : w ≤ i) : v.getLsbD i = false := by
  rw [← BitVec.testBit_toNat]
  exact Nat.testBit_lt_two_pow (lt_of_lt_of_le h (Nat.pow_le_pow_right (by decide) hi))

theorem reverse_lt (v : Word) (w : Nat) (h : w ≤ 64) : (reverse v w).toNat < 2 ^ w := by
  apply toNat_lt_of_getLsbD
  intro i hi
  rw [getLsbD_reverse v w i h]
  simp [Nat.not_lt.2 hi]

/-! ### Tables -/

theorem tableGen_length (p : ParamSet) : (tableGen p).length = 256 := by simp [tableGen]

theorem tableGen_getD (p : ParamSet) (i : Nat) (h : i < 256) : (tableGen p).getD i 0#64 = tableEntry p i := by
  simp [tableGen, List.getD_eq_getElem?_getD, h]

theorem tableAt_tableGen (p : ParamSet) (x : Word) :
    tableAt (tableGen p) x = tableEntry p (x.toNat % 256) := by
  have e : (x &&& 0xFF#64).toNat = x.toNat % 256 := by
    rw [BitVec.toNat_and]
    exact Nat.and_two_pow_sub_one_eq_mod x.toNat 8
  rw [tableAt, e, tableGen_getD p _ (Nat.mod_lt _ (by decide))]

/-! ### The table store -/

theorem ParamSet.same_iff (p q : ParamSet) : p.same q = true ↔ p.EqualEight q := by
  simp [ParamSet.same, ParamSet.EqualEight, and_assoc]

/-- A hit is the first valid slot with that key (43_table_engine R156, R157). -/
theorem lookup_eq_hit (slots : List Slot) (p : ParamSet) (k : Nat) :
    lookup slots p = .hit k ↔
      (∃ sl, slots[k]? = some sl ∧ sl.valid = true ∧ sl.key.EqualEight p) ∧
        ∀ j sl, j < k → slots[j]? = some sl → ¬ (sl.valid = true ∧ sl.key.EqualEight p) := by
  have key : lookup slots p = .hit k ↔ slots.findIdx? (fun sl => sl.valid && sl.key.same p) = some k := by
    unfold lookup
    split
    · rename_i j hj
      simp [hj]
    · rename_i hn
      split <;> simp [hn]
  rw [key, List.findIdx?_eq_some_iff_getElem]
  constructor
  · rintro ⟨h, hk, hlt⟩
    refine ⟨⟨slots[k], by simp [h], ?_⟩, ?_⟩
    · simpa [ParamSet.same_iff] using hk
    · intro j sl hj hsl
      obtain ⟨hjl, rfl⟩ := List.getElem?_eq_some_iff.1 hsl
      have := hlt j hj
      rw [← ParamSet.same_iff]
      simpa using this
  · rintro ⟨⟨sl, hsl, hv, he⟩, hlt⟩
    obtain ⟨hkl, rfl⟩ := List.getElem?_eq_some_iff.1 hsl
    refine ⟨hkl, by simp [hv, (ParamSet.same_iff _ _).2 he], ?_⟩
    intro j hj
    have := hlt j slots[j] hj (by simp)
    rw [← ParamSet.same_iff] at this
    simpa using this

theorem findIdx?_key_eq_none (slots : List Slot) (p : ParamSet) :
    slots.findIdx? (fun sl => sl.valid && sl.key.same p) = none ↔ NoKey slots p := by
  simp only [List.findIdx?_eq_none_iff, NoKey, ← ParamSet.same_iff]
  simp

/-- A miss names the lowest invalid slot, when no valid slot has the key (43_table_engine R157). -/
theorem lookup_eq_miss (slots : List Slot) (p : ParamSet) (k : Nat) :
    lookup slots p = .miss k ↔
      NoKey slots p ∧ (∃ sl, slots[k]? = some sl ∧ sl.valid = false) ∧
        ∀ j sl, j < k → slots[j]? = some sl → sl.valid = true := by
  have key : lookup slots p = .miss k ↔
      NoKey slots p ∧ slots.findIdx? (fun sl => !sl.valid) = some k := by
    rw [← findIdx?_key_eq_none]
    unfold lookup
    split
    · rename_i j hj
      simp [hj]
    · rename_i hn
      split <;> simp [*]
  rw [key, List.findIdx?_eq_some_iff_getElem]
  refine and_congr_right fun _ => ?_
  constructor
  · rintro ⟨h, hk, hlt⟩
    refine ⟨⟨slots[k], by simp [h], by simpa using hk⟩, ?_⟩
    intro j sl hj hsl
    obtain ⟨hjl, rfl⟩ := List.getElem?_eq_some_iff.1 hsl
    simpa using hlt j hj
  · rintro ⟨⟨sl, hsl, hv⟩, hlt⟩
    obtain ⟨hkl, rfl⟩ := List.getElem?_eq_some_iff.1 hsl
    exact ⟨hkl, by simp [hv], fun j hj => by simp [hlt j slots[j] hj (by simp)]⟩

/-- The store is full for `p`: no valid slot has the key and no slot is invalid (43_table_engine R157). -/
theorem lookup_eq_full (slots : List Slot) (p : ParamSet) :
    lookup slots p = .full ↔ NoKey slots p ∧ ∀ sl ∈ slots, sl.valid = true := by
  have key : lookup slots p = .full ↔ NoKey slots p ∧ slots.findIdx? (fun sl => !sl.valid) = none := by
    rw [← findIdx?_key_eq_none]
    unfold lookup
    split
    · rename_i j hj
      simp [hj]
    · rename_i hn
      split <;> simp [*]
  rw [key]
  simp [List.findIdx?_eq_none_iff]

end Sys2Proof.Machine
end

