-- ==== Sys2Proof/Laws/Engines.lean ====
section
/-! SUPPORT. The bitwise engine as a linear map: what `BW_STEP` does to sums of registers and bytes, and when it only
shifts (42_bitwise_engine R131, R133; 43_table_engine R160). -/

namespace Sys2Proof.Machine

theorem bitWord_false : bitWord false = 0#64 := rfl

theorem getLsbD_reverseByte (b : Byte) (i : Nat) (h : i < 8) : (reverseByte b).getLsbD i = b.getLsbD (7 - i) := by
  rw [reverseByte, BitVec.getLsbD_setWidth, getLsbD_reverse _ _ _ (by decide), BitVec.getLsbD_setWidth]
  simp [h, show 7 - i < 64 by omega]

theorem reverseByte_xor (a b : Byte) : reverseByte (a ^^^ b) = reverseByte a ^^^ reverseByte b := by
  apply BitVec.eq_of_getLsbD_eq
  intro i hi
  rw [BitVec.getLsbD_xor, getLsbD_reverseByte _ _ hi, getLsbD_reverseByte _ _ hi, getLsbD_reverseByte _ _ hi,
    BitVec.getLsbD_xor]

/-- The tested bit of a bit step is bit `width-1` of the register (42_bitwise_engine R131). -/
theorem top_eq {p : ParamSet} (hp : p.Valid) (reg : Word) :
    ((reg &&& p.msb) != 0#64) = reg.getLsbD (p.width.toNat - 1) := by
  have h1 := hp.width_pos
  have h2 := hp.width_le
  rw [hp.msb_msbOf]
  cases hb : reg.getLsbD (p.width.toNat - 1)
  · simp only [bne_eq_false_iff_eq]
    apply BitVec.eq_of_getLsbD_eq
    intro i _
    rw [BitVec.getLsbD_and, getLsbD_msbOf _ _ h1 h2]
    by_cases h : p.width.toNat - 1 = i
    · subst h; simp [hb]
    · simp [h]
  · simp only [bne_iff_ne, ne_eq]
    intro h
    have := congrArg (fun v => v.getLsbD (p.width.toNat - 1)) h
    simp [BitVec.getLsbD_and, getLsbD_msbOf _ _ h1 h2, hb] at this

/-- A bit step as a formula (42_bitwise_engine R131). -/
theorem bwBit_eq {p : ParamSet} (hp : p.Valid) (reg : Word) (bit : Bool) :
    bwBit p reg bit =
      (reg <<< 1) ^^^ (if xor (reg.getLsbD (p.width.toNat - 1)) bit then p.poly else 0#64) := by
  simp only [bwBit, top_eq hp]
  split <;> simp

/-- A bit step is linear in the register and the bit together. -/
theorem bwBit_xor {p : ParamSet} (hp : p.Valid) (r r' : Word) (a a' : Bool) :
    bwBit p (r ^^^ r') (xor a a') = bwBit p r a ^^^ bwBit p r' a' := by
  rw [bwBit_eq hp, bwBit_eq hp, bwBit_eq hp, BitVec.getLsbD_xor, BitVec.shiftLeft_xor_distrib]
  have sum : ∀ x y : Bool, (if xor x y then p.poly else 0#64) =
      (if x then p.poly else 0#64) ^^^ (if y then p.poly else 0#64) := by
    intro x y
    cases x <;> cases y <;> simp
  have bits : ∀ x y z w : Bool, xor (xor x y) (xor z w) = xor (xor x z) (xor y w) := by decide
  rw [bits, sum]
  ac_rfl

/-- Bit steps over the bits `f j` of these positions are linear. -/
theorem bwFeed_xor {p : ParamSet} (hp : p.Valid) (f g : Nat → Bool) (js : List Nat) (r r' : Word) :
    js.foldl (fun r j => bwBit p r (xor (f j) (g j))) (r ^^^ r') =
      js.foldl (fun r j => bwBit p r (f j)) r ^^^ js.foldl (fun r j => bwBit p r (g j)) r' := by
  induction js generalizing r r' with
  | nil => rfl
  | cons j js ih =>
    simp only [List.foldl_cons]
    rw [bwBit_xor hp, ih]

/-- `BW_STEP` is linear in the register and the byte together. -/
theorem bwStep_xor {p : ParamSet} (hp : p.Valid) (r r' : Word) (b b' : Byte) :
    bwStep p (r ^^^ r') (b ^^^ b') = bwStep p r b ^^^ bwStep p r' b' := by
  have h := bwFeed_xor hp (fun j => (if p.refin then reverseByte b else b).getLsbD j)
    (fun j => (if p.refin then reverseByte b' else b').getLsbD j) [7, 6, 5, 4, 3, 2, 1, 0] r r'
  rw [bwStep, bwStep, bwStep, ← h]
  congr 1
  funext r j
  split
  · rw [reverseByte_xor, BitVec.getLsbD_xor]
  · rw [BitVec.getLsbD_xor]

/-- A bit step whose input bit equals the tested bit only shifts (42_bitwise_engine R131). -/
theorem bwBit_shift {p : ParamSet} (hp : p.Valid) (reg : Word) (bit : Bool)
    (h : bit = reg.getLsbD (p.width.toNat - 1)) : bwBit p reg bit = reg <<< 1 := by
  rw [bwBit_eq hp, h]
  simp

/-- Bit `width-1` after `j` shifts. -/
theorem getLsbD_top_shift (reg : Word) (w j : Nat) (h1 : 1 ≤ w) (h2 : w ≤ 64) :
    (reg <<< j).getLsbD (w - 1) = (decide (j < w) && reg.getLsbD (w - 1 - j)) := by
  rw [BitVec.getLsbD_shiftLeft]
  by_cases h : j < w
  · simp [h, show w - 1 < 64 by omega, show ¬ w - 1 < j by omega]
  · simp [h, show w - 1 < j by omega]

/-- `BW_STEP` only shifts the register by 8 when the bits it takes in turn are the ones the register tests. -/
theorem bwStep_shift {p : ParamSet} (hp : p.Valid) (reg : Word) (b : Byte)
    (h : ∀ j, j < 8 → (if p.refin then reverseByte b else b).getLsbD (7 - j) =
      (decide (j < p.width.toNat) && reg.getLsbD (p.width.toNat - 1 - j))) :
    bwStep p reg b = reg <<< 8 := by
  have step : ∀ j, j < 8 →
      bwBit p (reg <<< j) ((if p.refin then reverseByte b else b).getLsbD (7 - j)) = reg <<< (j + 1) := by
    intro j hj
    rw [bwBit_shift hp _ _ (by rw [h j hj, getLsbD_top_shift _ _ _ hp.width_pos hp.width_le]), BitVec.shiftLeft_add]
  have e0 : reg = reg <<< 0 := by simp
  rw [bwStep]
  simp only [List.foldl_cons, List.foldl_nil]
  conv_lhs => rw [e0]
  rw [step 0 (by decide), step 1 (by decide), step 2 (by decide), step 3 (by decide), step 4 (by decide),
    step 5 (by decide), step 6 (by decide), step 7 (by decide)]

/-- `BW_STEP` splits into a shift of the register and a step of the zero register, when `h` is the byte whose bits the
register tests (43_table_engine R160). -/
theorem bwStep_split {p : ParamSet} (hp : p.Valid) (reg : Word) (b h : Byte)
    (hh : ∀ j, j < 8 → (if p.refin then reverseByte h else h).getLsbD (7 - j) =
      (decide (j < p.width.toNat) && reg.getLsbD (p.width.toNat - 1 - j))) :
    bwStep p reg b = (reg <<< 8) ^^^ bwStep p 0#64 (b ^^^ h) := by
  rw [← bwStep_shift hp reg h hh, ← bwStep_xor hp, BitVec.xor_zero]
  rw [show h ^^^ (b ^^^ h) = b by rw [BitVec.xor_comm b h, ← BitVec.xor_assoc, BitVec.xor_self, BitVec.zero_xor]]

/-- `bwStep` reads `width`, `poly`, `refin` and the derived `msb` only. -/
theorem bwStep_congr {p q : ParamSet} (h1 : p.poly = q.poly) (h2 : p.refin = q.refin) (h3 : p.msb = q.msb)
    (reg : Word) (b : Byte) : bwStep p reg b = bwStep q reg b := by
  simp [bwStep, bwBit, h1, h2, h3]

/-- A table entry is the low bits of a bitwise step of the zero register, reversed when `refin` (43_table_engine R150,
R151). -/
theorem tableEntry_eq (p : ParamSet) (i : Nat) :
    tableEntry p i =
      (if p.refin then reverse (bwStep p 0#64 (BitVec.ofNat 8 i)) p.width.toNat
       else bwStep p 0#64 (BitVec.ofNat 8 i)) &&& p.mask := by
  have e : bwStep (helperPS p) 0#64 (BitVec.ofNat 8 i) = bwStep p 0#64 (BitVec.ofNat 8 i) :=
    bwStep_congr rfl rfl rfl _ _
  show ((if p.refin then reverse (bwStep (helperPS p) 0#64 (BitVec.ofNat 8 i)) p.width.toNat
    else bwStep (helperPS p) 0#64 (BitVec.ofNat 8 i)) ^^^ 0#64) &&& p.mask = _
  rw [BitVec.xor_zero, e]

end Sys2Proof.Machine
end

