-- ==== Sys2Proof/Laws/Memory.lean ====
section
/-! SUPPORT. The laws of the input memory: every operation keeps the canonical form, a read after a write to the same
address gives the byte written, and a write leaves every other address alone. -/

namespace Sys2Proof.Machine

/-- Every listed address is above `a`. -/
def Memory.Above (a : Nat) (m : Memory) : Prop := ∀ cell ∈ m, a < cell.1

theorem Memory.wf_cons (a : Nat) (b : Byte) (m : Memory) :
    Memory.wf ((a, b) :: m) = true ↔ b ≠ Config.unwritten ∧ Memory.Above a m ∧ Memory.wf m = true := by
  induction m generalizing a b with
  | nil => simp [Memory.wf, Memory.Above]
  | cons cell rest ih =>
    obtain ⟨a', b'⟩ := cell
    simp only [Memory.wf, Bool.and_eq_true, bne_iff_ne, decide_eq_true_eq, Memory.Above, List.mem_cons,
      forall_eq_or_imp]
    rw [ih a' b']
    constructor
    · rintro ⟨⟨hb, hlt⟩, hb', habove, hwf⟩
      exact ⟨hb, ⟨hlt, fun x hx => lt_trans hlt (habove x hx)⟩, hb', habove, hwf⟩
    · rintro ⟨hb, ⟨hlt, _⟩, hrest⟩
      exact ⟨⟨hb, hlt⟩, hrest⟩

theorem Memory.wf_nil : Memory.wf [] = true := rfl

theorem Memory.read_of_above (m : Memory) (a : Nat) (h : Memory.Above a m) : m.read a = Config.unwritten := by
  induction m with
  | nil => rfl
  | cons cell rest ih =>
    have h1 := h cell (by simp)
    have h2 : Memory.read rest a = Config.unwritten := ih fun x hx => h x (by simp [hx])
    simp [Memory.read, h2, Nat.ne_of_lt h1]

theorem Memory.mem_write (m : Memory) (a : Nat) (b : Byte) (cell : Host.Cell) (h : cell ∈ m.write a b) :
    cell ∈ m ∨ cell.1 = a := by
  induction m with
  | nil =>
    unfold Memory.write at h
    split at h <;> simp_all
  | cons cell' rest ih =>
    unfold Memory.write at h
    split at h
    · split at h <;> simp_all; rcases h with rfl | h | h <;> simp_all
    · split at h
      · split at h <;> simp_all; rcases h with rfl | h <;> simp_all
      · rcases List.mem_cons.1 h with h | h
        · simp [h]
        · rcases ih h with h | h <;> simp [h]

theorem Memory.above_write (m : Memory) (a c : Nat) (b : Byte) (h : Memory.Above c m) (hca : c < a) :
    Memory.Above c (m.write a b) := by
  intro x hx
  rcases Memory.mem_write m a b x hx with hx | rfl
  · exact h x hx
  · exact hca

theorem Memory.wf_write (m : Memory) (a : Nat) (b : Byte) (h : Memory.wf m = true) :
    Memory.wf (m.write a b) = true := by
  induction m with
  | nil =>
    unfold Memory.write
    split <;> simp_all [Memory.wf]
  | cons cell rest ih =>
    obtain ⟨a', b'⟩ := cell
    have h0 := h
    obtain ⟨hb', habove, hrest⟩ := (Memory.wf_cons a' b' rest).1 h
    unfold Memory.write
    split
    · rename_i hlt
      split
      · exact h0
      · rename_i hb
        refine (Memory.wf_cons _ _ _).2 ⟨hb, ?_, h0⟩
        intro x hx
        rcases List.mem_cons.1 hx with rfl | hx
        · exact hlt
        · exact lt_trans hlt (habove x hx)
    · split
      · rename_i _ heq
        split
        · exact hrest
        · rename_i hb
          exact (Memory.wf_cons _ _ _).2 ⟨hb, heq ▸ habove, hrest⟩
      · rename_i hlt hne
        exact (Memory.wf_cons _ _ _).2
          ⟨hb', Memory.above_write rest a a' b habove (by omega), ih hrest⟩

theorem Memory.wf_writeAll (cells : List Host.Cell) (m : Memory) (h : Memory.wf m = true) :
    Memory.wf (m.writeAll cells) = true := by
  unfold Memory.writeAll
  induction cells generalizing m with
  | nil => exact h
  | cons cell rest ih => exact ih _ (Memory.wf_write m _ _ h)

theorem Memory.read_write_same (m : Memory) (a : Nat) (b : Byte) (h : Memory.wf m = true) :
    (m.write a b).read a = b := by
  induction m with
  | nil =>
    unfold Memory.write
    split <;> simp_all [Memory.read]
  | cons cell rest ih =>
    obtain ⟨a', b'⟩ := cell
    obtain ⟨_, habove, hrest⟩ := (Memory.wf_cons a' b' rest).1 h
    unfold Memory.write
    split
    · rename_i hlt
      have : Memory.read rest a = Config.unwritten :=
        Memory.read_of_above rest a fun x hx => lt_trans hlt (habove x hx)
      split <;> simp_all [Memory.read, Nat.ne_of_lt hlt]
    · split
      · rename_i _ heq
        have := Memory.read_of_above rest a (heq ▸ habove)
        split <;> simp_all [Memory.read]
      · simp_all [Memory.read]

theorem Memory.read_write_other (m : Memory) (a c : Nat) (b : Byte) (hne : c ≠ a) :
    (m.write a b).read c = m.read c := by
  induction m with
  | nil =>
    unfold Memory.write
    split <;> simp [Memory.read, hne]
  | cons cell rest ih =>
    obtain ⟨a', b'⟩ := cell
    unfold Memory.write
    split
    · split <;> simp [Memory.read, hne]
    · split
      · rename_i _ heq
        subst heq
        split <;> simp [Memory.read, hne]
      · simp [Memory.read, ih]

theorem Memory.mem_writeAll (cells : List Host.Cell) (m : Memory) (cell : Host.Cell) (h : cell ∈ m.writeAll cells) :
    cell ∈ m ∨ ∃ w ∈ cells, cell.1 = w.1 := by
  unfold Memory.writeAll at h
  induction cells generalizing m with
  | nil => exact .inl h
  | cons w rest ih =>
    rcases ih _ h with h | ⟨w', hw', he⟩
    · rcases Memory.mem_write m w.1 w.2 cell h with h | h
      · exact .inl h
      · exact .inr ⟨w, by simp, h⟩
    · exact .inr ⟨w', by simp [hw'], he⟩

/-- A byte that none of these writes names reads as before. -/
theorem Memory.read_writeAll_other (cells : List Host.Cell) (m : Memory) (a : Nat) (h : ∀ w ∈ cells, w.1 ≠ a) :
    (m.writeAll cells).read a = m.read a := by
  unfold Memory.writeAll
  induction cells generalizing m with
  | nil => rfl
  | cons w rest ih =>
    rw [List.foldl_cons, ih _ fun w' hw' => h w' (by simp [hw'])]
    exact Memory.read_write_other m w.1 a w.2 (h w (by simp)).symm

end Sys2Proof.Machine
end

