-- ==== Sys2Proof/Laws/Operands.lean ====
section
/-! SUPPORT. The selector maps: a selector names the register or field whose selector it is, and the reserved selectors
are those no register or field has (10_state R45, 44_context_commands R187); the opcode map likewise (30_encoding
R85). -/

namespace Sys2Proof.Machine

theorem Reg.ofSel_sel (r : Reg) : Reg.ofSel r.sel = some r := by cases r <;> decide

theorem Reg.mem_all (r : Reg) : r ∈ Reg.all := by cases r <;> decide

theorem Reg.ofSel_eq_some (sel : BitVec 8) (r : Reg) : Reg.ofSel sel = some r ↔ r.sel = sel := by
  constructor
  · intro h
    simpa using List.find?_some h
  · rintro rfl
    exact Reg.ofSel_sel r

theorem Reg.ofSel_eq_none (sel : BitVec 8) : Reg.ofSel sel = none ↔ ∀ r : Reg, r.sel ≠ sel := by
  constructor
  · intro h r hr
    simp [← hr, Reg.ofSel_sel] at h
  · intro h
    cases hs : Reg.ofSel sel with
    | none => rfl
    | some r => exact absurd ((Reg.ofSel_eq_some sel r).1 hs) (h r)

theorem CtxField.ofSel_sel (f : CtxField) : CtxField.ofSel f.sel = some f := by cases f <;> decide

theorem CtxField.ofSel_eq_some (sel : BitVec 8) (f : CtxField) : CtxField.ofSel sel = some f ↔ f.sel = sel := by
  constructor
  · intro h
    simpa using List.find?_some h
  · rintro rfl
    exact CtxField.ofSel_sel f

theorem CtxField.ofSel_eq_none (sel : BitVec 8) : CtxField.ofSel sel = none ↔ ∀ f : CtxField, f.sel ≠ sel := by
  constructor
  · intro h f hf
    simp [← hf, CtxField.ofSel_sel] at h
  · intro h
    cases hs : CtxField.ofSel sel with
    | none => rfl
    | some f => exact absurd ((CtxField.ofSel_eq_some sel f).1 hs) (h f)

end Sys2Proof.Machine

namespace Sys2Proof

theorem Opcode.ofCode_code (o : Opcode) : Opcode.ofCode o.code = some o := by cases o <;> decide

theorem Opcode.ofCode_eq_some (op : BitVec 8) (o : Opcode) : Opcode.ofCode op = some o ↔ o.code = op := by
  constructor
  · intro h
    simpa using List.find?_some h
  · rintro rfl
    exact Opcode.ofCode_code o

theorem Opcode.ofCode_eq_none (op : BitVec 8) : Opcode.ofCode op = none ↔ ∀ o : Opcode, o.code ≠ op := by
  constructor
  · intro h o ho
    simp [← ho, Opcode.ofCode_code] at h
  · intro h
    cases hs : Opcode.ofCode op with
    | none => rfl
    | some o => exact absurd ((Opcode.ofCode_eq_some op o).1 hs) (h o)

/-- The bits of a command word, byte by byte (30_encoding R81). -/
theorem getLsbD_cmdWord (op ctx imm : BitVec 8) (i : Nat) :
    (cmdWord op ctx imm).getLsbD i =
      if i < 8 then op.getLsbD i else if i < 16 then ctx.getLsbD (i - 8)
      else if i < 24 then imm.getLsbD (i - 16) else false := by
  have hop : 8 ≤ i → op.getLsbD i = false := BitVec.getLsbD_of_ge op i
  have hctx : 16 ≤ i → ctx.getLsbD (i - 8) = false := fun h => BitVec.getLsbD_of_ge ctx _ (by omega)
  have himm : 24 ≤ i → imm.getLsbD (i - 16) = false := fun h => BitVec.getLsbD_of_ge imm _ (by omega)
  simp only [cmdWord, BitVec.getLsbD_or, BitVec.getLsbD_shiftLeft, BitVec.getLsbD_setWidth]
  by_cases h8 : i < 8
  · have h16 : i < 16 := by omega
    simp [h8, h16, show i < 32 by omega]
  · by_cases h16 : i < 16
    · simp [h8, h16, hop (by omega), show i < 32 by omega, show i - 8 < 32 by omega]
    · by_cases h24 : i < 24
      · simp [h8, h16, h24, hop (by omega), hctx (by omega), show i < 32 by omega, show i - 16 < 32 by omega]
      · simp [h8, h16, h24, hop (by omega), hctx (by omega), himm (by omega)]

theorem opField_cmdWord (op ctx imm : BitVec 8) : opField (cmdWord op ctx imm) = op := by
  apply BitVec.eq_of_getLsbD_eq
  intro i hi
  simp [opField, getLsbD_cmdWord, hi]

theorem ctxField_cmdWord (op ctx imm : BitVec 8) : ctxField (cmdWord op ctx imm) = ctx := by
  apply BitVec.eq_of_getLsbD_eq
  intro i hi
  simp [ctxField, getLsbD_cmdWord, hi, show 8 + i < 16 by omega]

theorem immField_cmdWord (op ctx imm : BitVec 8) : immField (cmdWord op ctx imm) = imm := by
  apply BitVec.eq_of_getLsbD_eq
  intro i hi
  simp [immField, getLsbD_cmdWord, hi, show 16 + i < 24 by omega, show ¬ 16 + i < 8 by omega]

theorem rsvField_cmdWord (op ctx imm : BitVec 8) : rsvField (cmdWord op ctx imm) = 0#8 := by
  apply BitVec.eq_of_getLsbD_eq
  intro i hi
  simp [rsvField, getLsbD_cmdWord, show ¬ 24 + i < 8 by omega, show ¬ 24 + i < 16 by omega]

/-- A word whose reserved byte is 0 is rebuilt from its other three bytes. -/
theorem cmdWord_fields (cmd : BitVec 32) (h : rsvField cmd = 0#8) :
    cmdWord (opField cmd) (ctxField cmd) (immField cmd) = cmd := by
  apply BitVec.eq_of_getLsbD_eq
  intro i hi
  have hr : 24 ≤ i → cmd.getLsbD i = false := by
    intro hge
    have := congrArg (fun v : BitVec 8 => v.getLsbD (i - 24)) h
    simpa [rsvField, show i - 24 < 8 by omega, show 24 + (i - 24) = i by omega] using this
  rw [getLsbD_cmdWord]
  split
  · simp [opField, *]
  · split
    · simp [ctxField, show i - 8 < 8 by omega, show 8 + (i - 8) = i by omega]
    · split
      · simp [immField, show i - 16 < 8 by omega, show 16 + (i - 16) = i by omega]
      · exact (hr (by omega)).symm

/-- A command word as the number its fields spell (30_encoding R81). -/
theorem ofNat_eq_cmdWord (op ctx imm : BitVec 8) :
    BitVec.ofNat 32 (op.toNat + 0x100 * ctx.toNat + 0x10000 * imm.toNat) = cmdWord op ctx imm := by
  apply BitVec.eq_of_toNat_eq
  have h1 := op.isLt
  have h2 := ctx.isLt
  have h3 := imm.isLt
  have e1 : (imm.setWidth 32 <<< 16).toNat = imm.toNat <<< 16 := by
    simp only [BitVec.toNat_shiftLeft, BitVec.toNat_setWidth, Nat.shiftLeft_eq]
    omega
  have e2 : (ctx.setWidth 32 <<< 8).toNat = ctx.toNat <<< 8 := by
    simp only [BitVec.toNat_shiftLeft, BitVec.toNat_setWidth, Nat.shiftLeft_eq]
    omega
  have e3 : (op.setWidth 32).toNat = op.toNat := by
    simp only [BitVec.toNat_setWidth]
    omega
  have e4 : ctx.toNat <<< 8 ||| op.toNat = ctx.toNat <<< 8 + op.toNat := (Nat.shiftLeft_add_eq_or_of_lt h1 _).symm
  have h5 : ctx.toNat <<< 8 + op.toNat < 2 ^ 16 := by
    simp only [Nat.shiftLeft_eq]
    omega
  rw [cmdWord, BitVec.or_assoc, BitVec.toNat_or, BitVec.toNat_or, e1, e2, e3, e4,
    ← Nat.shiftLeft_add_eq_or_of_lt h5]
  simp only [BitVec.toNat_ofNat, Nat.shiftLeft_eq]
  omega

/-- A word of a row whose fields pass the row's checks decodes to that row's command (30_encoding R88). -/
theorem decode_cmdWord (o : Opcode) (ctx imm : BitVec 8) (d0 d1 : Word) (hctx : o.takesCtx = false → ctx = 0#8)
    (himm : o.takesImm = false → imm = 0#8) (hw : o = .reflect → imm.extractLsb' 6 2 = 0#2) :
    decode ⟨cmdWord o.code ctx imm, d0, d1⟩ = .ok (o.operands ⟨cmdWord o.code ctx imm, d0, d1⟩) := by
  have h2 : ¬ (o.takesCtx = false ∧ ctx ≠ 0#8) := fun h => h.2 (hctx h.1)
  have h3 : ¬ (o.takesImm = false ∧ imm ≠ 0#8) := fun h => h.2 (himm h.1)
  have h4 : ¬ (o = .reflect ∧ imm.extractLsb' 6 2 ≠ 0#2) := fun h => h.2 (hw h.1)
  simp only [decode, opField_cmdWord, ctxField_cmdWord, immField_cmdWord, rsvField_cmdWord, Opcode.ofCode_code]
  simp only [ne_eq, not_true_eq_false, if_false, if_neg h2, if_neg h3, if_neg h4]

/-- What a word that decodes looks like: a row of the table, its fields passing that row's checks (30_encoding R88). -/
theorem decode_eq_ok {t : Transaction} {i : Instr} (h : decode t = .ok i) :
    ∃ o : Opcode, t.cmd = cmdWord o.code (ctxField t.cmd) (immField t.cmd) ∧ i = o.operands t ∧
      (o.takesCtx = false → ctxField t.cmd = 0#8) ∧ (o.takesImm = false → immField t.cmd = 0#8) ∧
      (o = .reflect → (immField t.cmd).extractLsb' 6 2 = 0#2) := by
  unfold decode at h
  split at h
  · cases h
  · rename_i o ho
    rw [Opcode.ofCode_eq_some] at ho
    split at h
    · cases h
    · rename_i hr
      split at h
      · cases h
      · rename_i hc
        split at h
        · cases h
        · rename_i hi
          split at h
          · cases h
          · rename_i hw
            cases h
            refine ⟨o, ?_, rfl, ?_, ?_, ?_⟩
            · rw [ho]
              exact (cmdWord_fields t.cmd (by simpa using hr)).symm
            · intro e
              simpa [e] using hc
            · intro e
              simpa [e] using hi
            · intro e
              simpa [e] using hw

end Sys2Proof
end

