-- ==== Sys2Proof/Laws/State.lean ====
section
/-! SUPPORT. One lemma per field per state update, true by unfolding the update once, so that no later proof unfolds a
record update. -/

namespace Sys2Proof.Machine

@[simp] theorem State.setCtx_stg (s : State) (c : Nat) (x : Context) : (s.setCtx c x).stg = s.stg := rfl
@[simp] theorem State.setCtx_aps (s : State) (c : Nat) (x : Context) : (s.setCtx c x).aps = s.aps := rfl
@[simp] theorem State.setCtx_apsValid (s : State) (c : Nat) (x : Context) : (s.setCtx c x).apsValid = s.apsValid := rfl
@[simp] theorem State.setCtx_ctx (s : State) (c : Nat) (x : Context) : (s.setCtx c x).ctx = s.ctx.set c x := rfl
@[simp] theorem State.setCtx_slots (s : State) (c : Nat) (x : Context) : (s.setCtx c x).slots = s.slots := rfl
@[simp] theorem State.setCtx_cacheBuilds (s : State) (c : Nat) (x : Context) : (s.setCtx c x).cacheBuilds = s.cacheBuilds := rfl
@[simp] theorem State.setCtx_cacheHits (s : State) (c : Nat) (x : Context) : (s.setCtx c x).cacheHits = s.cacheHits := rfl
@[simp] theorem State.setCtx_lastErr (s : State) (c : Nat) (x : Context) : (s.setCtx c x).lastErr = s.lastErr := rfl
@[simp] theorem State.setCtx_errData0 (s : State) (c : Nat) (x : Context) : (s.setCtx c x).errData0 = s.errData0 := rfl
@[simp] theorem State.setCtx_errData1 (s : State) (c : Nat) (x : Context) : (s.setCtx c x).errData1 = s.errData1 := rfl
@[simp] theorem State.setCtx_errData2 (s : State) (c : Nat) (x : Context) : (s.setCtx c x).errData2 = s.errData2 := rfl
@[simp] theorem State.setCtx_imemBytes (s : State) (c : Nat) (x : Context) : (s.setCtx c x).imemBytes = s.imemBytes := rfl
@[simp] theorem State.setCtx_imem (s : State) (c : Nat) (x : Context) : (s.setCtx c x).imem = s.imem := rfl
@[simp] theorem State.setCtx_pending (s : State) (c : Nat) (x : Context) : (s.setCtx c x).pending = s.pending := rfl
@[simp] theorem State.setCtx_responses (s : State) (c : Nat) (x : Context) : (s.setCtx c x).responses = s.responses := rfl
@[simp] theorem State.setCtx_racing (s : State) (c : Nat) (x : Context) : (s.setCtx c x).racing = s.racing := rfl
@[simp] theorem State.setCtx_draws (s : State) (c : Nat) (x : Context) : (s.setCtx c x).draws = s.draws := rfl

@[simp] theorem State.answer_stg (s : State) (e : BitVec 8) (d0 d1 : Word) : (s.answer e d0 d1).stg = s.stg := rfl
@[simp] theorem State.answer_aps (s : State) (e : BitVec 8) (d0 d1 : Word) : (s.answer e d0 d1).aps = s.aps := rfl
@[simp] theorem State.answer_apsValid (s : State) (e : BitVec 8) (d0 d1 : Word) : (s.answer e d0 d1).apsValid = s.apsValid := rfl
@[simp] theorem State.answer_ctx (s : State) (e : BitVec 8) (d0 d1 : Word) : (s.answer e d0 d1).ctx = s.ctx := rfl
@[simp] theorem State.answer_slots (s : State) (e : BitVec 8) (d0 d1 : Word) : (s.answer e d0 d1).slots = s.slots := rfl
@[simp] theorem State.answer_cacheBuilds (s : State) (e : BitVec 8) (d0 d1 : Word) : (s.answer e d0 d1).cacheBuilds = s.cacheBuilds := rfl
@[simp] theorem State.answer_cacheHits (s : State) (e : BitVec 8) (d0 d1 : Word) : (s.answer e d0 d1).cacheHits = s.cacheHits := rfl
@[simp] theorem State.answer_lastErr (s : State) (e : BitVec 8) (d0 d1 : Word) : (s.answer e d0 d1).lastErr = s.lastErr := rfl
@[simp] theorem State.answer_errData0 (s : State) (e : BitVec 8) (d0 d1 : Word) : (s.answer e d0 d1).errData0 = s.errData0 := rfl
@[simp] theorem State.answer_errData1 (s : State) (e : BitVec 8) (d0 d1 : Word) : (s.answer e d0 d1).errData1 = s.errData1 := rfl
@[simp] theorem State.answer_errData2 (s : State) (e : BitVec 8) (d0 d1 : Word) : (s.answer e d0 d1).errData2 = s.errData2 := rfl
@[simp] theorem State.answer_imemBytes (s : State) (e : BitVec 8) (d0 d1 : Word) : (s.answer e d0 d1).imemBytes = s.imemBytes := rfl
@[simp] theorem State.answer_imem (s : State) (e : BitVec 8) (d0 d1 : Word) : (s.answer e d0 d1).imem = s.imem := rfl
@[simp] theorem State.answer_pending (s : State) (e : BitVec 8) (d0 d1 : Word) : (s.answer e d0 d1).pending = s.pending := rfl
@[simp] theorem State.answer_responses (s : State) (e : BitVec 8) (d0 d1 : Word) : (s.answer e d0 d1).responses = s.responses ++ [⟨e, d0, d1⟩] := rfl
@[simp] theorem State.answer_racing (s : State) (e : BitVec 8) (d0 d1 : Word) : (s.answer e d0 d1).racing = s.racing := rfl
@[simp] theorem State.answer_draws (s : State) (e : BitVec 8) (d0 d1 : Word) : (s.answer e d0 d1).draws = s.draws := rfl

@[simp] theorem State.failed_stg (s : State) (e : BitVec 8) (d0 d1 d2 : Word) : (s.failed e d0 d1 d2).stg = s.stg := rfl
@[simp] theorem State.failed_aps (s : State) (e : BitVec 8) (d0 d1 d2 : Word) : (s.failed e d0 d1 d2).aps = s.aps := rfl
@[simp] theorem State.failed_apsValid (s : State) (e : BitVec 8) (d0 d1 d2 : Word) : (s.failed e d0 d1 d2).apsValid = s.apsValid := rfl
@[simp] theorem State.failed_ctx (s : State) (e : BitVec 8) (d0 d1 d2 : Word) : (s.failed e d0 d1 d2).ctx = s.ctx := rfl
@[simp] theorem State.failed_slots (s : State) (e : BitVec 8) (d0 d1 d2 : Word) : (s.failed e d0 d1 d2).slots = s.slots := rfl
@[simp] theorem State.failed_cacheBuilds (s : State) (e : BitVec 8) (d0 d1 d2 : Word) : (s.failed e d0 d1 d2).cacheBuilds = s.cacheBuilds := rfl
@[simp] theorem State.failed_cacheHits (s : State) (e : BitVec 8) (d0 d1 d2 : Word) : (s.failed e d0 d1 d2).cacheHits = s.cacheHits := rfl
@[simp] theorem State.failed_lastErr (s : State) (e : BitVec 8) (d0 d1 d2 : Word) : (s.failed e d0 d1 d2).lastErr = e := rfl
@[simp] theorem State.failed_errData0 (s : State) (e : BitVec 8) (d0 d1 d2 : Word) : (s.failed e d0 d1 d2).errData0 = d0 := rfl
@[simp] theorem State.failed_errData1 (s : State) (e : BitVec 8) (d0 d1 d2 : Word) : (s.failed e d0 d1 d2).errData1 = d1 := rfl
@[simp] theorem State.failed_errData2 (s : State) (e : BitVec 8) (d0 d1 d2 : Word) : (s.failed e d0 d1 d2).errData2 = d2 := rfl
@[simp] theorem State.failed_imemBytes (s : State) (e : BitVec 8) (d0 d1 d2 : Word) : (s.failed e d0 d1 d2).imemBytes = s.imemBytes := rfl
@[simp] theorem State.failed_imem (s : State) (e : BitVec 8) (d0 d1 d2 : Word) : (s.failed e d0 d1 d2).imem = s.imem := rfl
@[simp] theorem State.failed_pending (s : State) (e : BitVec 8) (d0 d1 d2 : Word) : (s.failed e d0 d1 d2).pending = s.pending := rfl
@[simp] theorem State.failed_responses (s : State) (e : BitVec 8) (d0 d1 d2 : Word) : (s.failed e d0 d1 d2).responses = s.responses ++ [⟨e, d0, d1⟩] := rfl
@[simp] theorem State.failed_racing (s : State) (e : BitVec 8) (d0 d1 d2 : Word) : (s.failed e d0 d1 d2).racing = s.racing := rfl
@[simp] theorem State.failed_draws (s : State) (e : BitVec 8) (d0 d1 d2 : Word) : (s.failed e d0 d1 d2).draws = s.draws := rfl

@[simp] theorem State.clearErr_stg (s : State) : (s.clearErr).stg = s.stg := rfl
@[simp] theorem State.clearErr_aps (s : State) : (s.clearErr).aps = s.aps := rfl
@[simp] theorem State.clearErr_apsValid (s : State) : (s.clearErr).apsValid = s.apsValid := rfl
@[simp] theorem State.clearErr_ctx (s : State) : (s.clearErr).ctx = s.ctx := rfl
@[simp] theorem State.clearErr_slots (s : State) : (s.clearErr).slots = s.slots := rfl
@[simp] theorem State.clearErr_cacheBuilds (s : State) : (s.clearErr).cacheBuilds = s.cacheBuilds := rfl
@[simp] theorem State.clearErr_cacheHits (s : State) : (s.clearErr).cacheHits = s.cacheHits := rfl
@[simp] theorem State.clearErr_lastErr (s : State) : (s.clearErr).lastErr = 0#8 := rfl
@[simp] theorem State.clearErr_errData0 (s : State) : (s.clearErr).errData0 = 0#64 := rfl
@[simp] theorem State.clearErr_errData1 (s : State) : (s.clearErr).errData1 = 0#64 := rfl
@[simp] theorem State.clearErr_errData2 (s : State) : (s.clearErr).errData2 = 0#64 := rfl
@[simp] theorem State.clearErr_imemBytes (s : State) : (s.clearErr).imemBytes = s.imemBytes := rfl
@[simp] theorem State.clearErr_imem (s : State) : (s.clearErr).imem = s.imem := rfl
@[simp] theorem State.clearErr_pending (s : State) : (s.clearErr).pending = s.pending := rfl
@[simp] theorem State.clearErr_responses (s : State) : (s.clearErr).responses = s.responses := rfl
@[simp] theorem State.clearErr_racing (s : State) : (s.clearErr).racing = s.racing := rfl
@[simp] theorem State.clearErr_draws (s : State) : (s.clearErr).draws = s.draws := rfl

@[simp] theorem landRacing_stg (s : State) : (landRacing s).stg = s.stg := rfl
@[simp] theorem landRacing_aps (s : State) : (landRacing s).aps = s.aps := rfl
@[simp] theorem landRacing_apsValid (s : State) : (landRacing s).apsValid = s.apsValid := rfl
@[simp] theorem landRacing_ctx (s : State) : (landRacing s).ctx = s.ctx := rfl
@[simp] theorem landRacing_slots (s : State) : (landRacing s).slots = s.slots := rfl
@[simp] theorem landRacing_cacheBuilds (s : State) : (landRacing s).cacheBuilds = s.cacheBuilds := rfl
@[simp] theorem landRacing_cacheHits (s : State) : (landRacing s).cacheHits = s.cacheHits := rfl
@[simp] theorem landRacing_lastErr (s : State) : (landRacing s).lastErr = s.lastErr := rfl
@[simp] theorem landRacing_errData0 (s : State) : (landRacing s).errData0 = s.errData0 := rfl
@[simp] theorem landRacing_errData1 (s : State) : (landRacing s).errData1 = s.errData1 := rfl
@[simp] theorem landRacing_errData2 (s : State) : (landRacing s).errData2 = s.errData2 := rfl
@[simp] theorem landRacing_imemBytes (s : State) : (landRacing s).imemBytes = s.imemBytes := rfl
@[simp] theorem landRacing_imem (s : State) : (landRacing s).imem = s.imem.writeAll s.racing := rfl
@[simp] theorem landRacing_pending (s : State) : (landRacing s).pending = s.pending := rfl
@[simp] theorem landRacing_responses (s : State) : (landRacing s).responses = s.responses := rfl
@[simp] theorem landRacing_racing (s : State) : (landRacing s).racing = [] := rfl
@[simp] theorem landRacing_draws (s : State) : (landRacing s).draws = s.draws := rfl

@[simp] theorem beginCommand_stg (s : State) (ws : List Host.Cell) (rest : List HostAction) : (beginCommand ws rest s).stg = s.stg := rfl
@[simp] theorem beginCommand_aps (s : State) (ws : List Host.Cell) (rest : List HostAction) : (beginCommand ws rest s).aps = s.aps := rfl
@[simp] theorem beginCommand_apsValid (s : State) (ws : List Host.Cell) (rest : List HostAction) : (beginCommand ws rest s).apsValid = s.apsValid := rfl
@[simp] theorem beginCommand_ctx (s : State) (ws : List Host.Cell) (rest : List HostAction) : (beginCommand ws rest s).ctx = s.ctx := rfl
@[simp] theorem beginCommand_slots (s : State) (ws : List Host.Cell) (rest : List HostAction) : (beginCommand ws rest s).slots = s.slots := rfl
@[simp] theorem beginCommand_cacheBuilds (s : State) (ws : List Host.Cell) (rest : List HostAction) : (beginCommand ws rest s).cacheBuilds = s.cacheBuilds := rfl
@[simp] theorem beginCommand_cacheHits (s : State) (ws : List Host.Cell) (rest : List HostAction) : (beginCommand ws rest s).cacheHits = s.cacheHits := rfl
@[simp] theorem beginCommand_lastErr (s : State) (ws : List Host.Cell) (rest : List HostAction) : (beginCommand ws rest s).lastErr = s.lastErr := rfl
@[simp] theorem beginCommand_errData0 (s : State) (ws : List Host.Cell) (rest : List HostAction) : (beginCommand ws rest s).errData0 = s.errData0 := rfl
@[simp] theorem beginCommand_errData1 (s : State) (ws : List Host.Cell) (rest : List HostAction) : (beginCommand ws rest s).errData1 = s.errData1 := rfl
@[simp] theorem beginCommand_errData2 (s : State) (ws : List Host.Cell) (rest : List HostAction) : (beginCommand ws rest s).errData2 = s.errData2 := rfl
@[simp] theorem beginCommand_imemBytes (s : State) (ws : List Host.Cell) (rest : List HostAction) : (beginCommand ws rest s).imemBytes = s.imemBytes := rfl
@[simp] theorem beginCommand_imem (s : State) (ws : List Host.Cell) (rest : List HostAction) : (beginCommand ws rest s).imem = s.imem := rfl
@[simp] theorem beginCommand_pending (s : State) (ws : List Host.Cell) (rest : List HostAction) : (beginCommand ws rest s).pending = rest := rfl
@[simp] theorem beginCommand_responses (s : State) (ws : List Host.Cell) (rest : List HostAction) : (beginCommand ws rest s).responses = s.responses := rfl
@[simp] theorem beginCommand_racing (s : State) (ws : List Host.Cell) (rest : List HostAction) : (beginCommand ws rest s).racing = ws := rfl
@[simp] theorem beginCommand_draws (s : State) (ws : List Host.Cell) (rest : List HostAction) : (beginCommand ws rest s).draws = s.draws := rfl

@[simp] theorem State.setCtx_nctx (s : State) (c : Nat) (x : Context) : (s.setCtx c x).nctx = s.nctx := by
  simp [State.nctx]

@[simp] theorem State.setCtx_setCtx (s : State) (c : Nat) (x y : Context) : (s.setCtx c x).setCtx c y = s.setCtx c y := by
  simp [State.setCtx]

theorem State.setCtx_ctxAt_self (s : State) (c : Nat) (h : c < s.ctx.length) : s.setCtx c (s.ctxAt c) = s := by
  cases s
  simp only [State.setCtx, State.ctxAt] at *
  simp [List.getD_eq_getElem?_getD, h]

@[simp] theorem State.ctxAt_setCtx_same (s : State) (c : Nat) (x : Context) (h : c < s.ctx.length) :
    (s.setCtx c x).ctxAt c = x := by
  simp [State.ctxAt, List.getD_eq_getElem?_getD, h]

@[simp] theorem State.ctxAt_setCtx_other (s : State) (c d : Nat) (x : Context) (h : d ≠ c) :
    (s.setCtx c x).ctxAt d = s.ctxAt d := by
  simp [State.ctxAt, List.getD_eq_getElem?_getD, List.getElem?_set_ne (Ne.symm h)]

/-! An empty slot, field by field; unfolding `Slot.empty` under `simp` writes out its 256 entries. -/

@[simp] theorem Slot.empty_valid : Slot.empty.valid = false := rfl
@[simp] theorem Slot.empty_key : Slot.empty.key = ParamSet.zero := rfl
@[simp] theorem Slot.empty_table_length : Slot.empty.table.length = 256 := List.length_replicate

end Sys2Proof.Machine
end

