-- ==== Sys2Proof/Laws/Ops.lean ====
section
/-! SUPPORT. One lemma per shared operation that says everything it can do: responding, raising, the context checks,
reading the input memory, the `UPDATE_BLOCK` loop and what surrounds a command. -/

namespace Sys2Proof.Machine

/-! ### Responding and raising -/

theorem respond_eq_answer (code : BitVec 8) (d0 d1 : Word) (s : State) : respond code d0 d1 s = s.answer code d0 d1 :=
  rfl

theorem respondOk_eq_answer (d0 : Word) (s : State) : respondOk d0 s = s.answer 0#8 d0 0#64 := rfl

theorem raiseError_eq_failed (e : ErrCode) (d0 d1 d2 : Word) (s : State) :
    raiseError e d0 d1 d2 s = s.failed e.code d0 d1 d2 := rfl

theorem illegalCommand_eq_failed (cmd : BitVec 32) (s : State) :
    illegalCommand cmd s = s.failed 1#8 (cmd.setWidth 64) 0#64 0#64 := rfl

theorem ErrCode.code_ne_zero (e : ErrCode) : e.code ≠ 0#8 := by cases e <;> decide

theorem ErrCode.code_le (e : ErrCode) : e.code.toNat ≤ 10 := by cases e <;> decide

/-! ### The context checks -/

theorem onContext_of_lt (c : BitVec 8) (s : State) (act : Context → State) (h : c.toNat < s.ctx.length) :
    onContext c s act = act (s.ctxAt c.toNat) := by
  simp [onContext, State.nctx, h]

theorem onContext_of_ge (c : BitVec 8) (s : State) (act : Context → State) (h : s.ctx.length ≤ c.toNat) :
    onContext c s act = s.failed 5#8 (c.setWidth 64) 0#64 0#64 := by
  simp [onContext, State.nctx, Nat.not_lt.2 h, raiseError_eq_failed, ErrCode.code]

theorem onContext_cases (c : BitVec 8) (s : State) (act : Context → State) :
    (c.toNat < s.ctx.length ∧ onContext c s act = act (s.ctxAt c.toNat)) ∨
      (s.ctx.length ≤ c.toNat ∧ onContext c s act = s.failed 5#8 (c.setWidth 64) 0#64 0#64) := by
  rcases Nat.lt_or_ge c.toNat s.ctx.length with h | h
  · exact .inl ⟨h, onContext_of_lt c s act h⟩
  · exact .inr ⟨h, onContext_of_ge c s act h⟩

theorem ifBound_of_bound (c : BitVec 8) (x : Context) (s act : State) (h : x.kind ≠ .none) :
    ifBound c x s act = act := by
  simp [ifBound, h]

theorem ifBound_of_none (c : BitVec 8) (x : Context) (s act : State) (h : x.kind = .none) :
    ifBound c x s act = s.failed 6#8 (c.setWidth 64) 0#64 0#64 := by
  simp [ifBound, h, raiseError_eq_failed, ErrCode.code]

theorem onBound_of_bound (c : BitVec 8) (s : State) (act : Context → State) (h : c.toNat < s.ctx.length)
    (hk : (s.ctxAt c.toNat).kind ≠ .none) : onBound c s act = act (s.ctxAt c.toNat) := by
  simp [onBound, onContext_of_lt c s _ h, ifBound, hk]

theorem onBound_of_none (c : BitVec 8) (s : State) (act : Context → State) (h : c.toNat < s.ctx.length)
    (hk : (s.ctxAt c.toNat).kind = .none) : onBound c s act = s.failed 6#8 (c.setWidth 64) 0#64 0#64 := by
  simp [onBound, onContext_of_lt c s _ h, ifBound_of_none, hk]

theorem onBound_of_ge (c : BitVec 8) (s : State) (act : Context → State) (h : s.ctx.length ≤ c.toNat) :
    onBound c s act = s.failed 5#8 (c.setWidth 64) 0#64 0#64 :=
  onContext_of_ge c s _ h

theorem onBound_cases (c : BitVec 8) (s : State) (act : Context → State) :
    (c.toNat < s.ctx.length ∧ (s.ctxAt c.toNat).kind ≠ .none ∧ onBound c s act = act (s.ctxAt c.toNat)) ∨
      (c.toNat < s.ctx.length ∧ (s.ctxAt c.toNat).kind = .none ∧
        onBound c s act = s.failed 6#8 (c.setWidth 64) 0#64 0#64) ∨
      (s.ctx.length ≤ c.toNat ∧ onBound c s act = s.failed 5#8 (c.setWidth 64) 0#64 0#64) := by
  rcases Nat.lt_or_ge c.toNat s.ctx.length with h | h
  · by_cases hk : (s.ctxAt c.toNat).kind = .none
    · exact .inr (.inl ⟨h, hk, onBound_of_none c s act h hk⟩)
    · exact .inl ⟨h, hk, onBound_of_bound c s act h hk⟩
  · exact .inr (.inr ⟨h, onBound_of_ge c s act h⟩)

theorem State.ctxAt_of_getElem? (s : State) (c : Nat) (x : Context) (h : s.ctx[c]? = some x) : s.ctxAt c = x := by
  simp [State.ctxAt, List.getD_eq_getElem?_getD, h]

theorem State.lt_of_getElem? (s : State) (c : Nat) (x : Context) (h : s.ctx[c]? = some x) : c < s.ctx.length :=
  (List.getElem?_eq_some_iff.1 h).1

theorem State.ctxAt_mem (s : State) (c : Nat) (h : c < s.ctx.length) : s.ctxAt c ∈ s.ctx := by
  simp [State.ctxAt, List.getD_eq_getElem?_getD, h]

theorem State.slotAt_of_getElem? (s : State) (k : Nat) (sl : Slot) (h : s.slots[k]? = some sl) : s.slotAt k = sl := by
  simp [State.slotAt, List.getD_eq_getElem?_getD, h]

/-! ### Reading the input memory -/

theorem State.mem_racingAt (s : State) (a : Nat) (b : Byte) : b ∈ s.racingAt a ↔ (a, b) ∈ s.racing := by
  simp [State.racingAt]

theorem memRead_of_quiet (s : State) (a : Nat) (h : s.racing = []) : memRead s a = (s.imem.read a, s) := by
  simp [memRead, State.racingAt, h]

/-- A read returns the old value or one that another agent writes to the byte meanwhile, and advances at most the draw
counter (20_memory R68). -/
theorem memRead_spec (s : State) (a : Nat) :
    ((memRead s a).1 = s.imem.read a ∨ (a, (memRead s a).1) ∈ s.racing) ∧
      ∃ d, (memRead s a).2 = { s with draws := d } := by
  unfold memRead
  split
  · exact ⟨.inl rfl, s.draws, rfl⟩
  · rename_i v vs hv
    refine ⟨?_, s.draws + 1, rfl⟩
    have hmem : ∀ b ∈ s.imem.read a :: v :: vs, b = s.imem.read a ∨ (a, b) ∈ s.racing := by
      intro b hb
      rcases List.mem_cons.1 hb with hb | hb
      · exact .inl hb
      · exact .inr ((s.mem_racingAt a b).1 (hv ▸ hb))
    have hlt : Config.raceDraw s.draws % (s.imem.read a :: v :: vs).length < (s.imem.read a :: v :: vs).length :=
      Nat.mod_lt _ (by simp)
    simp only [List.getD_eq_getElem?_getD, List.getElem?_eq_getElem hlt, Option.getD_some]
    exact hmem _ (List.getElem_mem hlt)

/-! ### Stepping a context -/

theorem stepCtx_eq (c : Nat) (b : Byte) (s : State) :
    stepCtx c b s = s.setCtx c { s.ctxAt c with reg := stepReg s (s.ctxAt c) b } := rfl

theorem runReg_nil (s : State) (x : Context) : runReg s x [] = x.reg := by
  unfold runReg; split <;> rfl

theorem runReg_cons (s : State) (x : Context) (b : Byte) (bytes : List Byte) :
    runReg s x (b :: bytes) = runReg s { x with reg := stepReg s x b } bytes := by
  unfold runReg stepReg; cases x.kind <;> simp [bwRun, tbRun]

theorem runReg_append (s : State) (x : Context) (bs bs' : List Byte) :
    runReg s x (bs ++ bs') = runReg s { x with reg := runReg s x bs } bs' := by
  unfold runReg; cases x.kind <;> simp [bwRun, tbRun]

theorem runReg_congr (s t : State) (h : t.slots = s.slots) (x : Context) (bs : List Byte) :
    runReg t x bs = runReg s x bs := by
  simp [runReg, State.slotAt, h]

/-- The loop of `UPDATE_BLOCK` runs the engine over one byte per address, each the old value or one that another agent
writes meanwhile, and changes the register and the draw counter alone. -/
theorem feedRun_spec (c n a : Nat) (s : State) (hc : c < s.ctx.length) :
    ∃ (bytes : List Byte) (d : Nat), bytes.length = n ∧
      (∀ k (hk : k < bytes.length), bytes[k] = s.imem.read (a + k) ∨ (a + k, bytes[k]) ∈ s.racing) ∧
      feedRun c n a s =
        { s with ctx := s.ctx.set c { s.ctxAt c with reg := runReg s (s.ctxAt c) bytes }, draws := d } := by
  induction n generalizing a s with
  | zero =>
    refine ⟨[], s.draws, rfl, by simp, ?_⟩
    rw [runReg_nil]
    exact (s.setCtx_ctxAt_self c hc).symm
  | succ n ih =>
    obtain ⟨hb, d, hd⟩ := memRead_spec s a
    obtain ⟨bytes, d', hlen, hbytes, hrun⟩ := ih (a + 1) (stepCtx c (memRead s a).1 (memRead s a).2)
      (by rw [hd]; simpa [stepCtx_eq] using hc)
    refine ⟨(memRead s a).1 :: bytes, d', by simp [hlen], ?_, ?_⟩
    · intro k hk
      cases k with
      | zero => simpa using hb
      | succ k =>
        have := hbytes k (by simpa using hk)
        rw [hd] at this
        simpa [stepCtx_eq, Nat.add_assoc, Nat.add_comm 1] using this
    · have hat : (stepCtx c (memRead s a).1 (memRead s a).2).ctxAt c =
          { s.ctxAt c with reg := stepReg s (s.ctxAt c) (memRead s a).1 } := by
        rw [hd, stepCtx_eq, State.ctxAt_setCtx_same _ _ _ (by simpa using hc)]
        rfl
      rw [feedRun, hrun, hat, runReg_cons]
      rw [runReg_congr s _ (by rw [hd]; rfl)]
      rw [hd, stepCtx_eq]
      simp [State.setCtx]

/-- With no other agent writing, the loop feeds the bytes of the run in rising address order (44_context_commands R185). -/
theorem feedRun_of_quiet (c n a : Nat) (s : State) (hc : c < s.ctx.length) (hr : s.racing = []) :
    feedRun c n a s =
      s.setCtx c { s.ctxAt c with
        reg := runReg s (s.ctxAt c) ((List.range n).map fun k => s.imem.read (a + k)) } := by
  induction n generalizing a s with
  | zero => simp [feedRun, runReg_nil, s.setCtx_ctxAt_self c hc]
  | succ n ih =>
    have hat : (stepCtx c (s.imem.read a) s).ctxAt c =
        { s.ctxAt c with reg := stepReg s (s.ctxAt c) (s.imem.read a) } := by
      rw [stepCtx_eq, State.ctxAt_setCtx_same _ _ _ hc]
    rw [feedRun, memRead_of_quiet s a hr]
    rw [ih (a + 1) (stepCtx c (s.imem.read a) s) (by simpa [stepCtx_eq] using hc) (by simpa [stepCtx_eq] using hr)]
    rw [hat, runReg_congr s (stepCtx c (s.imem.read a) s) rfl, stepCtx_eq, State.setCtx_setCtx]
    congr 1
    rw [List.range_succ_eq_map, List.map_cons, runReg_cons]
    simp [Function.comp_def, Nat.add_assoc, Nat.add_comm 1]

/-! ### What surrounds a command -/

theorem landRacing_of_quiet (s : State) (h : s.racing = []) : landRacing s = s := by
  cases s
  simp only [landRacing, Memory.writeAll] at *
  simp [h]

theorem State.outsideInput_eq_none (s : State) (cells : List Host.Cell) :
    s.outsideInput cells = none ↔ ∀ w ∈ cells, w.1 < s.imemBytes := by
  simp [State.outsideInput]

theorem State.outsideInput_nil (s : State) : s.outsideInput [] = none := rfl

end Sys2Proof.Machine
end

