-- ==== Sys2Proof/Laws/Exec.lean ====
section
/-! SUPPORT. What one command can do, said once: `Effect i s t` lists every way a command `i` can take `s` to `t`, and
`exec_effect` says that `exec` always takes one of them. Rules over all commands are case splits on it. -/

namespace Sys2Proof.Machine

/-- Every effect a command can have. -/
inductive Effect : Instr → State → State → Prop where
  /-- It fails with a code of its row and writes the error record alone (60_exceptions R201, R204). -/
  | failed (i : Instr) (s : State) (code : BitVec 8) (d0 d1 d2 : Word) :
      code ∈ i.mayReturn → code ≠ 0#8 → Effect i s (s.failed code d0 d1 d2)
  /-- It answers and writes nothing. -/
  | reads (i : Instr) (s : State) (d0 : Word) : i.readsOnly = true → Effect i s (s.answer 0#8 d0 0#64)
  /-- It writes a staging register (40_parameter_set R102). -/
  | stages (sel : BitVec 8) (v : Word) (s : State) (g : Staging) : sel ≠ 0x23#8 →
      (s.stg.flags.toNat < 4 → g.flags.toNat < 4) →
      Effect (.regWrite sel v) s (State.answer { s with stg := g } 0#8 0#64 0#64)
  /-- It clears the error record (10_state R46). -/
  | clears (v : Word) (s : State) : Effect (.regWrite 0x23#8 v) s (s.clearErr.answer 0#8 0#64 0#64)
  /-- It commits the staged set (40_parameter_set R103). -/
  | commits (s : State) : 1 ≤ s.stg.width.toNat → s.stg.width.toNat ≤ 64 →
      Effect .psetCommit s (State.answer { s with aps := makePS s.stg, apsValid := true } 0#8 0#64 0#64)
  /-- It binds a bitwise engine (42_bitwise_engine R134). -/
  | bwBinds (c : BitVec 8) (s : State) : c.toNat < s.ctx.length → s.apsValid = true →
      Effect (.bwBind c) s ((s.setCtx c.toNat (bwContext s.aps)).answer 0#8 0#64 0#64)
  /-- It binds a table engine to a slot that has the key (43_table_engine R158). -/
  | tbHits (c : BitVec 8) (s : State) (k : Nat) : c.toNat < s.ctx.length → s.apsValid = true →
      lookup s.slots s.aps = .hit k →
      Effect (.tbBind c) s
        (State.answer { s with ctx := s.ctx.set c.toNat (tbContext s.aps k), cacheHits := s.cacheHits + 1#64 }
          0#8 0#64 0#64)
  /-- It builds a slot and binds a table engine to it (43_table_engine R158). -/
  | tbBuilds (c : BitVec 8) (s : State) (k : Nat) : c.toNat < s.ctx.length → s.apsValid = true →
      lookup s.slots s.aps = .miss k →
      Effect (.tbBind c) s
        (State.answer
          { s with
            ctx := s.ctx.set c.toNat (tbContext s.aps k)
            slots := s.slots.set k (builtSlot s.aps)
            cacheBuilds := s.cacheBuilds + 1#64 } 0#8 0#64 0#64)
  /-- It releases a context (44_context_commands R182). -/
  | unbinds (c : BitVec 8) (s : State) : c.toNat < s.ctx.length →
      Effect (.unbind c) s ((s.setCtx c.toNat .unbound).answer 0#8 0#64 0#64)
  /-- It reloads a context's register (44_context_commands R183). -/
  | resets (c : BitVec 8) (s : State) : c.toNat < s.ctx.length → (s.ctxAt c.toNat).kind ≠ .none →
      Effect (.reset c) s
        ((s.setCtx c.toNat { s.ctxAt c.toNat with reg := (s.ctxAt c.toNat).start }).answer 0#8 0#64 0#64)
  /-- It feeds one byte (44_context_commands R184). -/
  | feedsByte (c b : BitVec 8) (s : State) : c.toNat < s.ctx.length → (s.ctxAt c.toNat).kind ≠ .none →
      Effect (.updateByte c b) s
        (State.answer
          { s with ctx := s.ctx.set c.toNat { s.ctxAt c.toNat with reg := runReg s (s.ctxAt c.toNat) [b] } }
          0#8 0#64 0#64)
  /-- It feeds a run (44_context_commands R185). -/
  | feedsRun (c : BitVec 8) (off len : Word) (s : State) (bytes : List Byte) (d : Nat) : c.toNat < s.ctx.length →
      (s.ctxAt c.toNat).kind ≠ .none → bytes.length = len.toNat →
      Effect (.updateBlock c off len) s
        (State.answer
          { s with
            ctx := s.ctx.set c.toNat { s.ctxAt c.toNat with reg := runReg s (s.ctxAt c.toNat) bytes }
            draws := d } 0#8 0#64 0#64)

/-- The codes of 60_exceptions R204's rows lie in 0..10 (R200). -/
theorem mayReturn_le (i : Instr) : ∀ code ∈ i.mayReturn, code.toNat ≤ 10 := by
  cases i <;> simp [Instr.mayReturn]

/-- Every command may answer `OK` (60_exceptions R200). -/
theorem zero_mem_mayReturn (i : Instr) : 0#8 ∈ i.mayReturn := by
  cases i <;> simp [Instr.mayReturn]

theorem runReg_singleton (s : State) (x : Context) (b : Byte) : runReg s x [b] = stepReg s x b := by
  rw [runReg_cons, runReg_nil]

/-- The flags a write stores lie in the two low bits (10_state R33). -/
theorem toNat_storedFlags (v : Word) : (storedFlags v).toNat = v.toNat % 4 := by
  rw [storedFlags, BitVec.toNat_and]
  exact Nat.and_two_pow_sub_one_eq_mod v.toNat 2

theorem execRegRead_effect (sel : BitVec 8) (s : State) :
    ∃ t, execRegRead sel s = .next t ∧ Effect (.regRead sel) s t := by
  unfold execRegRead
  cases Reg.ofSel sel with
  | none => exact ⟨_, rfl, .failed _ s 9#8 _ _ _ (by simp [Instr.mayReturn]) (by decide)⟩
  | some r => exact ⟨_, rfl, .reads _ s _ rfl⟩

theorem execRegWrite_effect (sel : BitVec 8) (v : Word) (s : State) :
    ∃ t, execRegWrite sel v s = .next t ∧ Effect (.regWrite sel v) s t := by
  unfold execRegWrite
  cases h : Reg.ofSel sel with
  | none => exact ⟨_, rfl, .failed _ s 9#8 _ _ _ (by simp [Instr.mayReturn]) (by decide)⟩
  | some r =>
    obtain rfl := (Reg.ofSel_eq_some sel r).1 h
    have hf : (storedFlags v).toNat < 4 := by rw [toNat_storedFlags]; exact Nat.mod_lt _ (by decide)
    cases r <;> first
      | exact ⟨_, rfl, .failed _ s 9#8 _ _ _ (by simp [Instr.mayReturn]) (by decide)⟩
      | exact ⟨_, rfl, .clears v s⟩
      | exact ⟨_, rfl, .stages _ v s _ (by decide) id⟩
      | exact ⟨_, rfl, .stages _ v s _ (by decide) fun _ => hf⟩

theorem execPsetCommit_effect (s : State) : ∃ t, execPsetCommit s = .next t ∧ Effect .psetCommit s t := by
  unfold execPsetCommit
  split
  · rename_i h
    exact ⟨_, rfl, .commits s h.1 h.2⟩
  · exact ⟨_, rfl, .failed _ s 2#8 _ _ _ (by simp [Instr.mayReturn]) (by decide)⟩

theorem execSelfTest_effect (s : State) : ∃ t, execSelfTest s = .next t ∧ Effect .selfTest s t := by
  unfold execSelfTest
  split
  · exact ⟨_, rfl, .failed _ s 4#8 _ _ _ (by simp [Instr.mayReturn]) (by decide)⟩
  · split
    · exact ⟨_, rfl, .failed _ s 3#8 _ _ _ (by simp [Instr.mayReturn]) (by decide)⟩
    · exact ⟨_, rfl, .reads _ s _ rfl⟩

/-- A context command's effect, from its effect on a context below `NCTX`. -/
theorem onContext_effect (i : Instr) (c : BitVec 8) (s : State) (act : Context → State) (h5 : 5#8 ∈ i.mayReturn)
    (h : c.toNat < s.ctx.length → Effect i s (act (s.ctxAt c.toNat))) : Effect i s (onContext c s act) := by
  rcases onContext_cases c s act with ⟨hc, he⟩ | ⟨_, he⟩
  · rw [he]; exact h hc
  · rw [he]; exact .failed i s 5#8 _ _ _ h5 (by decide)

/-- A context command's effect, from its effect on a bound context below `NCTX`. -/
theorem onBound_effect (i : Instr) (c : BitVec 8) (s : State) (act : Context → State) (h5 : 5#8 ∈ i.mayReturn)
    (h6 : 6#8 ∈ i.mayReturn)
    (h : c.toNat < s.ctx.length → (s.ctxAt c.toNat).kind ≠ .none → Effect i s (act (s.ctxAt c.toNat))) :
    Effect i s (onBound c s act) := by
  rcases onBound_cases c s act with ⟨hc, hk, he⟩ | ⟨_, _, he⟩ | ⟨_, he⟩
  · rw [he]; exact h hc hk
  · rw [he]; exact .failed i s 6#8 _ _ _ h6 (by decide)
  · rw [he]; exact .failed i s 5#8 _ _ _ h5 (by decide)

theorem execTbBind_effect (c : BitVec 8) (s : State) : ∃ t, execTbBind c s = .next t ∧ Effect (.tbBind c) s t := by
  refine ⟨_, rfl, onContext_effect _ c s _ (by simp [Instr.mayReturn]) fun hc => ?_⟩
  by_cases hv : s.apsValid = true
  · rw [if_pos hv]
    cases hl : lookup s.slots s.aps with
    | hit k => exact .tbHits c s k hc hv hl
    | miss k => exact .tbBuilds c s k hc hv hl
    | full => exact .failed _ s 8#8 _ _ _ (by simp [Instr.mayReturn]) (by decide)
  · rw [if_neg hv]
    exact .failed _ s 4#8 _ _ _ (by simp [Instr.mayReturn]) (by decide)

theorem execCtxRead_effect (c sel : BitVec 8) (s : State) :
    ∃ t, execCtxRead c sel s = .next t ∧ Effect (.ctxRead c sel) s t := by
  refine ⟨_, rfl, onContext_effect _ c s _ (by simp [Instr.mayReturn]) fun hc => ?_⟩
  have key : ∀ f, Effect (.ctxRead c sel) s
      (ifBound c (s.ctxAt c.toNat) s (respondOk (CtxField.content (s.ctxAt c.toNat) f) s)) := by
    intro f
    by_cases hk : (s.ctxAt c.toNat).kind = .none
    · rw [ifBound_of_none _ _ _ _ hk]
      exact .failed _ s 6#8 _ _ _ (by simp [Instr.mayReturn]) (by decide)
    · rw [ifBound_of_bound _ _ _ _ hk]
      exact .reads _ s _ rfl
  cases hf : CtxField.ofSel sel with
  | none => exact .failed _ s 9#8 _ _ _ (by simp [Instr.mayReturn]) (by decide)
  | some f => cases f <;> first | exact key _ | exact .reads _ s _ rfl

theorem execTableRead_effect (c k : BitVec 8) (s : State) :
    ∃ t, execTableRead c k s = .next t ∧ Effect (.tableRead c k) s t := by
  refine ⟨_, rfl, onBound_effect _ c s _ (by simp [Instr.mayReturn]) (by simp [Instr.mayReturn]) fun hc hk => ?_⟩
  by_cases h : (s.ctxAt c.toNat).kind = .table
  · simp only [h, ne_eq, not_true_eq_false, if_false]
    exact .reads _ s _ rfl
  · simp only [h, ne_eq, not_false_eq_true, if_true]
    exact .failed _ s 7#8 _ _ _ (by simp [Instr.mayReturn]) (by decide)

theorem execUpdateBlock_effect (c : BitVec 8) (off len : Word) (s : State) :
    ∃ t, execUpdateBlock c off len s = .next t ∧ Effect (.updateBlock c off len) s t := by
  refine ⟨_, rfl, onBound_effect _ c s _ (by simp [Instr.mayReturn]) (by simp [Instr.mayReturn]) fun hc hk => ?_⟩
  by_cases h : s.imemBytes < off.toNat + len.toNat
  · simp only [h, if_true]
    exact .failed _ s 10#8 _ _ _ (by simp [Instr.mayReturn]) (by decide)
  · simp only [h, if_false]
    obtain ⟨bytes, d, hlen, _, hrun⟩ := feedRun_spec c.toNat len.toNat off.toNat s hc
    rw [hrun]
    exact .feedsRun c off len s bytes d hc hk hlen

/-- Every command answers a next state, by one of the effects. -/
theorem exec_effect (i : Instr) (s : State) : ∃ t, exec i s = .next t ∧ Effect i s t := by
  cases i with
  | regRead sel => exact execRegRead_effect sel s
  | regWrite sel v => exact execRegWrite_effect sel v s
  | psetCommit => exact execPsetCommit_effect s
  | selfTest => exact execSelfTest_effect s
  | reflect w v => exact ⟨_, rfl, .reads _ s _ rfl⟩
  | bwBind c =>
    refine ⟨_, rfl, onContext_effect _ c s _ (by simp [Instr.mayReturn]) fun hc => ?_⟩
    by_cases hv : s.apsValid = true
    · rw [if_pos hv]
      exact .bwBinds c s hc hv
    · rw [if_neg hv]
      exact .failed _ s 4#8 _ _ _ (by simp [Instr.mayReturn]) (by decide)
  | tbBind c => exact execTbBind_effect c s
  | unbind c =>
    exact ⟨_, rfl, onContext_effect _ c s _ (by simp [Instr.mayReturn]) fun hc => .unbinds c s hc⟩
  | reset c =>
    exact ⟨_, rfl, onBound_effect _ c s _ (by simp [Instr.mayReturn]) (by simp [Instr.mayReturn]) fun hc hk =>
      .resets c s hc hk⟩
  | updateByte c b =>
    refine ⟨_, rfl, onBound_effect _ c s _ (by simp [Instr.mayReturn]) (by simp [Instr.mayReturn]) fun hc hk => ?_⟩
    have := Effect.feedsByte c b s hc hk
    rwa [runReg_singleton] at this
  | updateBlock c off len => exact execUpdateBlock_effect c off len s
  | value c =>
    exact ⟨_, rfl, onBound_effect _ c s _ (by simp [Instr.mayReturn]) (by simp [Instr.mayReturn]) fun _ _ =>
      .reads _ s _ rfl⟩
  | ctxRead c sel => exact execCtxRead_effect c sel s
  | tableRead c k => exact execTableRead_effect c k s

/-- A next state of a command comes by one of the effects. -/
theorem effect_of_exec {i : Instr} {s t : State} (h : exec i s = .next t) : Effect i s t := by
  obtain ⟨u, hu, he⟩ := exec_effect i s
  rw [hu] at h
  cases h
  exact he

end Sys2Proof.Machine
end

