-- ==== Sys2Proof/Laws/PerInstr.lean ====
section
/-! SUPPORT. Statements about every instruction as syntax, one lemma per constructor: `OpcodeField` says that the word the
encoder writes carries the row's opcode and no reserved bit, and keeps the fields the row does not use at 0
(30_encoding R81, R85). -/

namespace Sys2Proof.Laws.OpcodeField

open Sys2Proof

/-- The encoded word's `OP` field is the code of the command's row, its reserved byte is 0, and the context and
immediate fields are 0 where the row takes none (30_encoding R81, R85). -/
def Statement (i : Instr) : Prop :=
  opField (encode i).cmd = i.opcode.code ∧ rsvField (encode i).cmd = 0#8 ∧
    (i.opcode.takesCtx = false → ctxField (encode i).cmd = 0#8) ∧
    (i.opcode.takesImm = false → immField (encode i).cmd = 0#8)

theorem of_cmdWord (i : Instr) (ctx imm : BitVec 8) (h : (encode i).cmd = cmdWord i.opcode.code ctx imm)
    (hc : i.opcode.takesCtx = false → ctx = 0#8) (hi : i.opcode.takesImm = false → imm = 0#8) : Statement i := by
  refine ⟨?_, ?_, fun e => ?_, fun e => ?_⟩ <;> rw [h]
  · exact opField_cmdWord _ _ _
  · exact rsvField_cmdWord _ _ _
  · rw [ctxField_cmdWord, hc e]
  · rw [immField_cmdWord, hi e]

theorem regRead (sel : BitVec 8) : Statement (.regRead sel) := of_cmdWord _ _ _ rfl (fun _ => rfl) nofun
theorem regWrite (sel : BitVec 8) (value : Word) : Statement (.regWrite sel value) :=
  of_cmdWord _ _ _ rfl (fun _ => rfl) nofun
theorem psetCommit : Statement .psetCommit := of_cmdWord _ _ _ rfl (fun _ => rfl) fun _ => rfl
theorem selfTest : Statement .selfTest := of_cmdWord _ _ _ rfl (fun _ => rfl) fun _ => rfl
theorem reflect (width : Nat) (value : Word) : Statement (.reflect width value) :=
  of_cmdWord _ _ _ rfl (fun _ => rfl) nofun
theorem bwBind (c : BitVec 8) : Statement (.bwBind c) := of_cmdWord _ _ _ rfl nofun fun _ => rfl
theorem tbBind (c : BitVec 8) : Statement (.tbBind c) := of_cmdWord _ _ _ rfl nofun fun _ => rfl
theorem unbind (c : BitVec 8) : Statement (.unbind c) := of_cmdWord _ _ _ rfl nofun fun _ => rfl
theorem reset (c : BitVec 8) : Statement (.reset c) := of_cmdWord _ _ _ rfl nofun fun _ => rfl
theorem updateByte (c b : BitVec 8) : Statement (.updateByte c b) := of_cmdWord _ _ _ rfl nofun nofun
theorem updateBlock (c : BitVec 8) (off len : Word) : Statement (.updateBlock c off len) :=
  of_cmdWord _ _ _ rfl nofun fun _ => rfl
theorem value (c : BitVec 8) : Statement (.value c) := of_cmdWord _ _ _ rfl nofun fun _ => rfl
theorem ctxRead (c sel : BitVec 8) : Statement (.ctxRead c sel) := of_cmdWord _ _ _ rfl nofun nofun
theorem tableRead (c i : BitVec 8) : Statement (.tableRead c i) := of_cmdWord _ _ _ rfl nofun nofun

end Sys2Proof.Laws.OpcodeField
end

