-- ==== Sys2Proof/Laws/Valid.lean ====
section
/-! SUPPORT. Validity of parameter sets, registers and contexts: what makes them and what keeps them (10_state R34, R37,
R40; 40_parameter_set R100; 43_table_engine R151, R153, R154). -/

namespace Sys2Proof.Machine

/-- Valid sets that agree in the eight fields are the same record, the other two being derived (10_state R34, R36). -/
theorem ParamSet.Valid.eq_of_equalEight {p q : ParamSet} (hp : p.Valid) (hq : q.Valid) (h : p.EqualEight q) : p = q := by
  obtain ⟨h1, h2, h3, h4, h5, h6, h7, h8⟩ := h
  have hm : p.mask = q.mask := by rw [hp.mask_maskOf, hq.mask_maskOf, h1]
  have hs : p.msb = q.msb := by rw [hp.msb_msbOf, hq.msb_msbOf, h1]
  cases p
  cases q
  simp_all

theorem ParamSet.Valid.and_mask_lt {p : ParamSet} (hp : p.Valid) (v : Word) :
    (v &&& p.mask).toNat < 2 ^ p.width.toNat := by
  rw [hp.mask_maskOf, toNat_and_maskOf _ _ hp.width_le]
  exact Nat.mod_lt _ (Nat.two_pow_pos _)

theorem ParamSet.Valid.getLsbD_mask {p : ParamSet} (hp : p.Valid) (i : Nat) :
    p.mask.getLsbD i = decide (i < p.width.toNat) := by
  rw [hp.mask_maskOf, getLsbD_maskOf _ _ hp.width_le]

/-- The helper set of the table generator is valid (43_table_engine R150). -/
theorem ParamSet.Valid.helper {p : ParamSet} (hp : p.Valid) : (helperPS p).Valid := by
  obtain ⟨h1, h2, h3, h4, h5, h6, h7, h8⟩ := hp
  constructor <;> simp [helperPS, *]

/-- What `MakePS` builds from a width in 1..64 is valid (40_parameter_set R100). -/
theorem makePS_valid (g : Staging) (h1 : 1 ≤ g.width.toNat) (h2 : g.width.toNat ≤ 64) : (makePS g).Valid := by
  have hw : (g.width.setWidth 7).toNat = g.width.toNat := by
    rw [BitVec.toNat_setWidth]
    exact Nat.mod_eq_of_lt (by omega)
  have hm : ∀ v : Word, (v &&& maskOf g.width.toNat).toNat < 2 ^ g.width.toNat := fun v => by
    rw [toNat_and_maskOf _ _ h2]
    exact Nat.mod_lt _ (Nat.two_pow_pos _)
  constructor <;> simp only [makePS, hw, hm, h1, h2, toNat_maskOf _ h2, toNat_msbOf _ h1 h2]

/-- A table entry has no bit above the width (43_table_engine R151). -/
theorem tableEntry_lt {p : ParamSet} (hp : p.Valid) (i : Nat) : (tableEntry p i).toNat < 2 ^ p.width.toNat :=
  hp.helper.and_mask_lt _

theorem tbStart_lt {p : ParamSet} (hp : p.Valid) : (tbStart p).toNat < 2 ^ p.width.toNat := by
  unfold tbStart
  split
  · exact reverse_lt _ _ hp.width_le
  · exact hp.init_lt

/-- A table step keeps the register within its width in the cases whose next step reads it whole (43_table_engine
R154). -/
theorem tbStep_fits {p : ParamSet} (hp : p.Valid) (reg : Word) (b : Byte) (hc : p.refin = true ∨ p.width.toNat < 8)
    (hr : reg.toNat < 2 ^ p.width.toNat) : (tbStep p (tableGen p) reg b).toNat < 2 ^ p.width.toNat := by
  unfold tbStep
  by_cases h1 : p.refin = true
  · rw [if_pos h1, tableAt_tableGen, BitVec.toNat_xor]
    refine Nat.xor_lt_two_pow ?_ (tableEntry_lt hp _)
    rw [BitVec.toNat_ushiftRight, Nat.shiftRight_eq_div_pow]
    exact Nat.lt_of_le_of_lt (Nat.div_le_self _ _) hr
  · rw [if_neg h1, if_pos (hc.resolve_left h1), tableAt_tableGen]
    exact tableEntry_lt hp _

theorem tbRun_fits {p : ParamSet} (hp : p.Valid) (bytes : List Byte) (reg : Word)
    (hc : p.refin = true ∨ p.width.toNat < 8) (hr : reg.toNat < 2 ^ p.width.toNat) :
    (tbRun p (tableGen p) reg bytes).toNat < 2 ^ p.width.toNat := by
  induction bytes generalizing reg with
  | nil => exact hr
  | cons b bs ih => exact ih _ (tbStep_fits hp reg b hc hr)

/-- A slot as reset leaves it, and a slot built for a valid set (10_state R41, 43_table_engine R158). -/
theorem Slot.ok_empty : Slot.empty.Ok := ⟨fun _ => ⟨rfl, Slot.empty_table_length⟩, nofun⟩

theorem Slot.ok_built {p : ParamSet} (hp : p.Valid) : (builtSlot p).Ok := ⟨nofun, fun _ => ⟨hp, rfl⟩⟩

/-- A good slot has 256 entries, valid or not (10_state R41). -/
theorem Slot.Ok.table_length {sl : Slot} (h : sl.Ok) : sl.table.length = 256 := by
  cases hv : sl.valid
  · exact (h.1 hv).2
  · rw [(h.2 hv).2]
    exact tableGen_length sl.key

/-- Writing one good context into a list of good ones. -/
theorem Context.ok_set {slots : List Slot} {l : List Context} (h : ∀ x ∈ l, Context.Ok slots x) (c : Nat) (y : Context)
    (hy : y.Ok slots) : ∀ x ∈ l.set c y, Context.Ok slots x := by
  intro x hx
  rcases List.mem_or_eq_of_mem_set hx with h' | rfl
  · exact h _ h'
  · exact hy

/-- A new register value keeps a bound context good when it fits as a table context's must. -/
theorem Context.ok_reg {slots : List Slot} {x : Context} (h : x.Ok slots) (hk : x.kind ≠ .none) (r : Word)
    (hr : x.kind = .table → Context.RegFits { x with reg := r }) : Context.Ok slots { x with reg := r } := by
  unfold Context.Ok at *
  cases hkk : x.kind
  · exact absurd hkk hk
  · simpa [hkk] using h
  · simp only [hkk] at h ⊢
    exact ⟨h.1, h.2.1, hr hkk, h.2.2.2⟩

/-- The table a good table context uses is the one generated for its own set (43_table_engine R158). -/
theorem Context.table_eq {s : State} (hs : ∀ sl ∈ s.slots, sl.Ok) {x : Context} (h : x.Ok s.slots)
    (ht : x.kind = .table) : (s.slotAt x.slot.toNat).table = tableGen x.ps := by
  unfold Context.Ok at h
  simp only [ht] at h
  obtain ⟨_, _, _, sl, hsl, hval, hkey⟩ := h
  rw [s.slotAt_of_getElem? _ _ hsl, ← hkey]
  exact ((hs sl (List.mem_of_getElem? hsl)).2 hval).2

/-- A run of bytes keeps a bound context good. -/
theorem Context.ok_run {s : State} (hs : ∀ sl ∈ s.slots, sl.Ok) {x : Context} (h : x.Ok s.slots) (hk : x.kind ≠ .none)
    (bytes : List Byte) : Context.Ok s.slots { x with reg := runReg s x bytes } := by
  apply Context.ok_reg h hk
  intro ht hc
  have e : runReg s x bytes = tbRun x.ps (tableGen x.ps) x.reg bytes := by
    simp only [runReg, ht]
    rw [Context.table_eq hs h ht]
  unfold Context.Ok at h
  simp only [ht] at h
  show (runReg s x bytes).toNat < 2 ^ x.ps.width.toNat
  rw [e]
  exact tbRun_fits h.1 bytes x.reg hc (h.2.2.1 hc)

end Sys2Proof.Machine
end

