-- ==== Sys2Proof/Tests/Slice0.lean ====
section
/-! SUPPORT. Tests: one step or one command each, the expected values from the tables of 95_test_vectors and the rules
named beside them; and, for every statement with hypotheses, a witness that meets them (each clause, and the
values where clauses meet). -/

namespace Sys2Proof.Tests

open Sys2Proof Sys2Proof.Machine

/-! ### The sets and the small states the tests use -/

/-- CRC-32/ISO-HDLC (95 part 1.1). -/
def crc32 : ParamSet :=
  ⟨32#7, 0x04C11DB7#64, 0xFFFFFFFF#64, true, true, 0xFFFFFFFF#64, 0xCBF43926#64, 1#64, 0xFFFFFFFF#64, 0x80000000#64⟩

/-- The 16-bit set (95 part 1.2). -/
def crc16 : ParamSet := ⟨16#7, 0x1021#64, 0#64, false, false, 0#64, 0x31C3#64, 2#64, 0xFFFF#64, 0x8000#64⟩

/-- The masking set, after masking (95 part 2.2). -/
def masked8 : ParamSet :=
  ⟨8#7, 0xFF#64, 0x34#64, true, false, 0x0F#64, 0xFF#64, 0xFFFFFFFFFFFFFFFF#64, 0xFF#64, 0x80#64⟩

/-- The set of width 3 (95 parts 2.5, 2.6). -/
def crc3 : ParamSet := ⟨3#7, 3#64, 0#64, false, false, 7#64, 4#64, 3#64, 7#64, 4#64⟩

/-- The input memory of 95 part 2: "123456789". -/
def digits : Memory := (List.range 9).map fun k => (k, BitVec.ofNat 8 (0x31 + k))

/-- Three contexts, bitwise, table and unbound, and two slots, the first built, all over one committed set. -/
def bench (p : ParamSet) : State :=
  { State.afterReset 3 2 9 digits with
    aps := p
    apsValid := true
    ctx := [bwContext p, tbContext p 0, .unbound]
    slots := [builtSlot p, .empty] }

/-- The small block right after reset. -/
def fresh : State := State.afterReset 2 1 9 digits

/-- `exec` answers a next state of which this holds. -/
def leaves (i : Instr) (s : State) (p : State → Bool) : Bool :=
  match exec i s with
  | .next t => p t
  | .fault _ => false
  | .refused _ => false

/-- `step` answers a next state of which this holds. -/
def stepLeaves (s : State) (p : State → Bool) : Bool :=
  match step s with
  | .next t => p t
  | .fault _ => false
  | .refused _ => false

/-- A command answers this response and no other. -/
def answers (i : Instr) (s : State) (code : BitVec 8) (d0 d1 : Word) : Bool :=
  leaves i s fun t => decide (t.responses = s.responses ++ [⟨code, d0, d1⟩])

/-! ### WellFormed -/

theorem test_wf_reflect_width_zero_refused : (Instr.reflect 0 1#64).wf = false := by decide
theorem test_wf_reflect_width_65_refused : (Instr.reflect 65 1#64).wf = false := by decide
theorem test_wf_reflect_ends : (Instr.reflect 1 1#64).wf = true ∧ (Instr.reflect 64 1#64).wf = true := by decide

/-! ### Decoding: words the checks of 30_encoding R82 refuse, by name (95 part 2.8), and the host's entry points -/

theorem test_decode_rejects :
    decode ⟨0x00000000#32, 0, 0⟩ = .error .unknownOpcode ∧ decode ⟨0x00000019#32, 0, 0⟩ = .error .unknownOpcode ∧
      decode ⟨0x01000001#32, 0, 0⟩ = .error .reservedNonzero ∧ decode ⟨0x00000101#32, 0, 0⟩ = .error .ctxNonzero ∧
      decode ⟨0x00010003#32, 0, 0⟩ = .error .immNonzero ∧ decode ⟨0x00400005#32, 0, 0⟩ = .error .widthNonzero := by
  decide

theorem test_decodeTableWord : decodeTableWord 32 0x001F0005 = some (.reflect 32 0#64) := by decide

/-- The first step after reset runs the word that `withFetchWord` places (95 part 2.1 step 1). -/
theorem test_withFetchWord_runs :
    stepLeaves (State.reset.withFetchWord 32 0x00380001) (fun t => decide (t.responses = [⟨0, 0x43524301, 0⟩])) =
      true := by
  decide +kernel

/-- The assembler (30_encoding R89, R90; 95 program P1): a pseudo-instruction's expansion, and its own spelling read
back. -/
theorem test_assemble :
    assemble "PSET_LOAD 32, 0x04C11DB7, 0xFFFFFFFF, 1, 1, 0xFFFFFFFF, 0xCBF43926, 1" =
        some [⟨0x00000002, 32, 0⟩, ⟨0x00010002, 0x04C11DB7, 0⟩, ⟨0x00020002, 0xFFFFFFFF, 0⟩, ⟨0x00030002, 3, 0⟩,
          ⟨0x00040002, 0xFFFFFFFF, 0⟩, ⟨0x00050002, 0xCBF43926, 0⟩, ⟨0x00060002, 1, 0⟩, ⟨0x00000003, 0, 0⟩] ∧
      assemble (asmLine (.ctxRead 255 0x0A)) = some [encode (.ctxRead 255 0x0A)] ∧
      assemble "REFLECT 65, 1" = none ∧ assemble "VALUE c256" = none := by decide +kernel

/-! ### Register access and the parameter set (95 parts 2.1 to 2.4) -/

theorem test_regRead_id : answers (.regRead 0x38) fresh 0 0x43524301 0 = true := by decide +kernel
theorem test_regRead_unmapped_records_error :
    leaves (.regRead 0x39) fresh (fun t => t.lastErr == 9 && t.errData0 == 0x39 && t.errData1 == 0) = true := by
  decide +kernel
theorem test_regWrite_flags_keeps_two_bits :
    leaves (.regWrite 0x03 0xFF) fresh (fun t => t.stg.flags == 3 && t.stg.width == 0) = true := by decide +kernel
theorem test_regWrite_constant_fails : answers (.regWrite 0x30 1) fresh 9 0x30 1 = true := by decide +kernel
theorem test_psetCommit_masks :
    leaves .psetCommit { fresh with stg := ⟨8, 0x1FF, 0x1234, 1, 0xF0F, 0x3FF, 0xFFFFFFFFFFFFFFFF⟩ }
      (fun t => t.apsValid && t.aps == masked8) = true := by decide +kernel
theorem test_psetCommit_checks_all_width_bits :
    answers .psetCommit { fresh with stg := ⟨0x108, 0, 0, 0, 0, 0, 0⟩ } 2 0x108 0 = true := by decide +kernel
theorem test_selfTest_mismatch :
    leaves .selfTest (bench masked8) (fun t => decide (t.responses = [⟨3, 0x69, 0xFF⟩]) &&
      t.errData2 == 0xFFFFFFFFFFFFFFFF) = true := by decide +kernel
theorem test_selfTest_passes : answers .selfTest (bench crc32) 0 0xCBF43926 0 = true := by decide +kernel
theorem test_reflect_32 : answers (.reflect 32 0x04C11DB7) fresh 0 0xEDB88320 0 = true := by decide +kernel
theorem test_reflect_3 : answers (.reflect 3 0x6) fresh 0 0x3 0 = true := by decide +kernel

/-! ### Contexts (95 parts 1.1, 1.2, 2.5 to 2.7 and program P3) -/

theorem test_bwBind_start :
    leaves (.bwBind 2) (bench masked8) (fun t => decide (t.ctx[2]? = some ⟨.bitwise, masked8, 0x34, 0x34, 0⟩)) =
      true := by decide +kernel
theorem test_bwBind_before_commit : answers (.bwBind 0) fresh 4 0 0 = true := by decide +kernel
theorem test_tbBind_hits :
    leaves (.tbBind 2) (bench masked8) (fun t => decide (t.ctx[2]? = some ⟨.table, masked8, 0x2C, 0x2C, 0⟩) &&
      t.cacheHits == 1 && t.cacheBuilds == 0) = true := by decide +kernel
theorem test_tbBind_other_name_builds :
    leaves (.tbBind 2) { bench crc16 with aps := { crc16 with name := 7 } } (fun t =>
      decide ((t.ctx[2]?).map Context.slot = some 1) && t.cacheBuilds == 1 && t.cacheHits == 0) = true := by
  decide +kernel
theorem test_unbind_clears :
    leaves (.unbind 1) (bench crc16) (fun t => decide (t.ctx[1]? = some .unbound) &&
      decide ((t.slots[0]?).map Slot.valid = some true)) = true := by decide +kernel
theorem test_reset_reloads_start :
    leaves (.reset 1) { bench crc32 with ctx := [.unbound, { tbContext crc32 0 with reg := 0x340BC6D9 }] }
      (fun t => decide ((t.ctx[1]?).map Context.reg = some 0xFFFFFFFF)) = true := by decide +kernel
theorem test_reset_unbound : answers (.reset 2) (bench crc16) 6 2 0 = true := by decide +kernel
theorem test_updateByte_bitwise :
    leaves (.updateByte 0 0x31) (bench crc32) (fun t => decide ((t.ctx[0]?).map Context.reg = some 0x000000FE1208C43E)) =
      true := by decide +kernel
theorem test_updateByte_table_narrow :
    leaves (.updateByte 1 0x32) (bench crc3) (fun t => decide ((t.ctx[1]?).map Context.reg = some 0x5)) = true := by
  decide +kernel
theorem test_updateBlock_bitwise :
    leaves (.updateBlock 0 0 9) (bench crc16) (fun t => decide ((t.ctx[0]?).map Context.reg = some 0x9DD952218D9A31C3)) =
      true := by decide +kernel
theorem test_updateBlock_past_end : answers (.updateBlock 1 10 0) (bench masked8) 10 10 0 = true := by decide +kernel
theorem test_value_bitwise :
    answers (.value 0) { bench crc32 with ctx := [{ bwContext crc32 with reg := 0xC57B06089B63D02C }] } 0 0xCBF43926 0 =
      true := by decide +kernel
theorem test_value_table :
    answers (.value 1) (bench masked8) 0 0x3B 0 = true := by decide +kernel
theorem test_ctxRead_start : answers (.ctxRead 1 0x0A) (bench masked8) 0 0x2C 0 = true := by decide +kernel
theorem test_ctxRead_kind_of_unbound : answers (.ctxRead 2 0x09) (bench masked8) 0 0 0 = true := by decide +kernel
theorem test_tableRead_entry : answers (.tableRead 1 0x80) (bench crc32) 0 0xEDB88320 0 = true := by decide +kernel
theorem test_tableRead_wrong_kind : answers (.tableRead 0 0x80) (bench crc32) 7 0 1 = true := by decide +kernel

/-! ### Witnesses: valid sets and states that meet the invariant -/

theorem crc32_valid : crc32.Valid := by constructor <;> decide
theorem crc16_valid : crc16.Valid := by constructor <;> decide
theorem masked8_valid : masked8.Valid := by constructor <;> decide
theorem crc3_valid : crc3.Valid := by constructor <;> decide

/-- The smallest and the largest width: for `ReflectorLaws`, `BitwiseStepBits`, `BitwiseLowBitsMatter`,
`TableGeneratorLaws` and `EnginesAgree`. -/
theorem test_witness_valid_ends :
    ParamSet.Valid ⟨1#7, 1, 0, false, false, 0, 1, 0, 1, 1⟩ ∧
      ParamSet.Valid ⟨64#7, 0x42F0E1EBA9EA3693, 0xFFFFFFFFFFFFFFFF, true, true, 0xFFFFFFFFFFFFFFFF, 0x995DC9BBDF1939FA, 0,
        0xFFFFFFFFFFFFFFFF, 0x8000000000000000⟩ := by
  constructor <;> constructor <;> decide

/-- A block with a bitwise, a table and an unbound context meets the invariant. -/
theorem test_witness_inv (p : ParamSet) (hp : p.Valid) : (bench p).Inv := by
  have small : (1 ≤ 3 ∧ 3 ≤ 256) ∧ (1 ≤ 2 ∧ 2 ≤ 256) ∧ 9 ≤ 2 ^ 64 := by decide
  have cells : Memory.wf digits = true ∧ ∀ cell ∈ digits, cell.1 < 9 := by decide
  refine ⟨⟨small.1, small.2.1, small.2.2, cells.1, cells.2, Nat.zero_lt_succ 3, fun _ => hp, nofun, ?_, ?_, ?_,
    Nat.zero_le 10⟩, rfl⟩
  · intro x hx
    simp only [bench, List.mem_cons, List.not_mem_nil, or_false] at hx
    rcases hx with rfl | rfl | rfl
    · exact ⟨hp, rfl, rfl⟩
    · exact ⟨hp, rfl, fun _ => tbStart_lt hp, builtSlot p, rfl, rfl, rfl⟩
    · rfl
  · intro sl hsl
    simp only [bench, List.mem_cons, List.not_mem_nil, or_false] at hsl
    rcases hsl with rfl | rfl
    · exact Slot.ok_built hp
    · exact Slot.ok_empty
  · intro j k sl sl' hj hk hv hv' _
    have only : ∀ (i : Nat) (y : Slot), (bench p).slots[i]? = some y → y.valid = true → i = 0 := by
      intro i y hy hyv
      match i, hy with
      | 0, _ => rfl
      | 1, hy =>
        rw [← Option.some.inj hy] at hyv
        exact absurd hyv (by simp)
      | i + 2, hy => exact absurd hy (by simp [bench])
    rw [only j sl hj hv, only k sl' hk hv']

/-- A fresh block meets it, before any commit. -/
theorem test_witness_inv_fresh : fresh.BlockInv ∧ fresh.apsValid = false := by
  refine ⟨⟨by decide, by decide, by decide, by decide, by decide, by decide, nofun, fun _ => rfl, ?_, ?_, ?_, by decide⟩,
    rfl⟩
  · intro x hx
    rw [(List.mem_replicate.1 hx).2]
    exact rfl
  · intro sl hsl
    rw [(List.mem_replicate.1 hsl).2]
    exact Slot.ok_empty
  · intro j k sl sl' hj _ hv
    rw [(List.mem_replicate.1 (List.mem_of_getElem? hj)).2] at hv
    exact absurd hv (by simp)

/-! ### Witnesses: encoding, steps and reset -/

theorem test_witness_DecodeOfEncodeIsIdentity :
    (Instr.reflect 1 5).wf = true ∧ (Instr.reflect 64 5).wf = true ∧ (Instr.tableRead 0xFF 0xFF).wf = true := by decide

theorem test_witness_DecodedCommandHasThatWord :
    decode ⟨0x00FF0002#32, 5, 6⟩ = .ok (.regWrite 0xFF 5) ∧ decode ⟨0x003F0005#32, 5, 6⟩ = .ok (.reflect 64 5) ∧
      decode ⟨0x0000FF15#32, 5, 6⟩ = .ok (.updateBlock 0xFF 5 6) := by decide

/-- An invalid slot's entries are open: one that holds other entries than reset's meets the invariant's clause too
(10_state R50, log entry 5). -/
theorem test_witness_invalid_slot_entries_open :
    Slot.Ok ⟨false, .zero, List.replicate 256 7#64⟩ ∧ (⟨false, .zero, List.replicate 256 7#64⟩ : Slot) ≠ Slot.empty :=
  ⟨⟨fun _ => ⟨rfl, List.length_replicate⟩, nofun⟩, by decide +kernel⟩

/-- One word per check of 30_encoding R82, at the end of each check's range; alone, and with another agent's write of the
last input byte. -/
theorem test_witness_MalformedWordRaisesIllegalCommand :
    { fresh with pending := [.issue ⟨6#32, 0, 0⟩ []] }.pending = .issue ⟨6#32, 0, 0⟩ [] :: [] ∧
      { fresh with pending := [.issue ⟨6#32, 0, 0⟩ [(8, 0x41)]] }.pending = .issue ⟨6#32, 0, 0⟩ [(8, 0x41)] :: [] ∧
      (∀ w ∈ ([(8, 0x41)] : List Host.Cell), w.1 < fresh.imemBytes) ∧
      (6 ∉ [1, 2, 3, 4, 5, 16, 17, 18, 19, 20, 21, 22, 23, 24]) ∧
      (0x01000001#32).toNat / 16777216 ≠ 0 ∧
      ((0x00000105#32).toNat % 256 ∈ [1, 2, 3, 4, 5] ∧ (0x00000105#32).toNat / 256 % 256 ≠ 0) ∧
      ((0x00010016#32).toNat % 256 ∈ [3, 4, 16, 17, 18, 19, 21, 22] ∧ (0x00010016#32).toNat / 65536 % 256 ≠ 0) ∧
      ((0x00400005#32).toNat % 256 = 5 ∧ 64 ≤ (0x00400005#32).toNat / 65536 % 256) := by decide

theorem test_witness_StepAnswersUndecodedWord :
    let s := { fresh with pending := [.issue ⟨6#32, 0, 0⟩ [(8, 0x41)]] }
    s.pending = .issue ⟨6#32, 0, 0⟩ [(8, 0x41)] :: [] ∧ decode ⟨6#32, 0, 0⟩ = .error .unknownOpcode ∧
      (∀ w ∈ ([(8, 0x41)] : List Host.Cell), w.1 < s.imemBytes) :=
  ⟨rfl, by decide, by decide⟩

/-- A command word's opcode, context, immediate and reserved byte. -/
def fieldsOf (w : Nat) : Nat × Nat × Nat × Nat := (w % 256, w / 256 % 256, w / 65536 % 256, w / 16777216)

/-- For each command's `IllegalWhen` clause a word with its opcode that fails one of its checks. -/
theorem test_witness_IllegalWhen :
    [0x00220101, 0x01010002, 0x00010003, 0x00000104, 0x00400005, 0x00010110, 0x00010011, 0x01000112, 0x00010013,
        0x01310014, 0x00010015, 0x00010016, 0x80070217, 0xFF800018].map fieldsOf =
      [(0x01, 1, 0x22, 0), (0x02, 0, 1, 1), (0x03, 0, 1, 0), (0x04, 1, 0, 0), (0x05, 0, 64, 0), (0x10, 1, 1, 0),
        (0x11, 0, 1, 0), (0x12, 1, 0, 1), (0x13, 0, 1, 0), (0x14, 0, 0x31, 1), (0x15, 0, 1, 0), (0x16, 0, 1, 0),
        (0x17, 2, 7, 0x80), (0x18, 0, 0x80, 0xFF)] := by decide

theorem test_witness_StepRunsDecodedCommand :
    let s := { bench crc16 with pending := [.issue ⟨0x00000015#32, 0, 9⟩ [(8, 0x41)]] }
    s.pending = .issue ⟨0x00000015#32, 0, 9⟩ [(8, 0x41)] :: [] ∧
      decode ⟨0x00000015#32, 0, 9⟩ = .ok (.updateBlock 0 0 9) ∧
      (∀ w ∈ ([(8, 0x41)] : List Host.Cell), w.1 < s.imemBytes) :=
  ⟨rfl, by decide, by decide⟩

/-- The last input byte, and the address beyond it; an idle block. -/
theorem test_witness_HostActionsOnInputMemory :
    fresh.pending = [] ∧ Memory.wf fresh.imem = true ∧ 8 < fresh.imemBytes ∧ fresh.imemBytes ≤ 9 ∧
      { fresh with pending := [.writeInput 8 0] }.pending = .writeInput 8 0 :: [] := by decide

theorem test_witness_HardwareResetRestoresBlock :
    { fresh with pending := [.hardReset none] }.pending = .hardReset none :: [] ∧
      { fresh with pending := [.hardReset (some (rawWord 3))] }.pending = .hardReset (some (rawWord 3)) :: [] := by
  decide

/-- The smallest and the largest parameters (00_scope R6). -/
theorem test_witness_ResetMeetsInvariant :
    (1 ≤ 1 ∧ 1 ≤ 256 ∧ 0 ≤ 2 ^ 64 ∧ Memory.wf [] = true ∧ ∀ cell ∈ ([] : Memory), cell.1 < 0) ∧
      (1 ≤ 256 ∧ 256 ≤ 256 ∧ 2 ^ 64 ≤ 2 ^ 64 ∧ Memory.wf [(2 ^ 64 - 1, 5)] = true ∧
        ∀ cell ∈ ([(2 ^ 64 - 1, 5)] : Memory), cell.1 < 2 ^ 64) := by decide

/-- An idle block, and a command that runs, from a state that meets the invariant. -/
theorem test_witness_StepKeepsInvariant :
    (bench crc16).Inv ∧ step (bench crc16) = .next (bench crc16) ∧
      stepLeaves ((bench crc16).withFetchWord 32 0x00310114) (fun t =>
        decide ((t.ctx[1]?).map Context.reg = some 0x2672)) = true :=
  ⟨test_witness_inv crc16 crc16_valid, rfl, by decide +kernel⟩

/-! ### Witnesses: the parameter set -/

/-- Unmapped selectors at the ends of the map's gaps (10_state R45). -/
theorem test_witness_RegReadAnswersRegisterMap :
    Reg.ofSel 0x07 = none ∧ Reg.ofSel 0x0F = none ∧ Reg.ofSel 0x19 = none ∧ Reg.ofSel 0x1F = none ∧
      Reg.ofSel 0x27 = none ∧ Reg.ofSel 0x2F = none ∧ Reg.ofSel 0x32 = none ∧ Reg.ofSel 0x37 = none ∧
      Reg.ofSel 0x39 = none ∧ Reg.ofSel 0xFF = none := by decide

theorem test_witness_RegWriteStoresClearsOrFails :
    (7 ≤ (0x07#8).toNat ∧ 0x07#8 ≠ 0x23#8) ∧ (7 ≤ (0x22#8).toNat ∧ 0x22#8 ≠ 0x23#8) ∧
      (7 ≤ (0x24#8).toNat ∧ 0x24#8 ≠ 0x23#8) ∧ (7 ≤ (0xFF#8).toNat ∧ 0xFF#8 ≠ 0x23#8) := by decide

/-- Widths 1, 64, 0 and 65. -/
theorem test_witness_PsetCommitBuildsOrRejects :
    (let s := { fresh with stg := { fresh.stg with width := 1 } }; 1 ≤ s.stg.width.toNat ∧ s.stg.width.toNat ≤ 64) ∧
      (let s := { fresh with stg := { fresh.stg with width := 64 } }; 1 ≤ s.stg.width.toNat ∧ s.stg.width.toNat ≤ 64) ∧
      fresh.stg.width.toNat = 0 ∧
      (let s := { fresh with stg := { fresh.stg with width := 65 } }; 64 < s.stg.width.toNat) := by decide

theorem test_witness_SelfTestAnswersOrFails :
    fresh.apsValid = false ∧ ((bench crc32).apsValid = true ∧ selfTestValue crc32 = crc32.check) ∧
      ((bench masked8).apsValid = true ∧ selfTestValue masked8 ≠ masked8.check) := by decide +kernel

theorem test_witness_ReflectReversesLowBits : 1 ≤ 1 ∧ 1 ≤ 64 ∧ 64 ≤ 64 := by decide

/-! ### Witnesses: binding and running contexts -/

/-- The context beyond the last, and the last, before and after a commit. -/
theorem test_witness_BwBindBindsActiveSet :
    (bench crc16).ctx.length ≤ (3#8).toNat ∧ ((1#8).toNat < fresh.ctx.length ∧ fresh.apsValid = false) ∧
      ((2#8).toNat < (bench crc16).ctx.length ∧ (bench crc16).apsValid = true) := by decide

/-- A hit in the last slot, a miss that fills the last slot, and a full store (95 program P3). -/
theorem test_witness_TbBindServesBuildsOrFails :
    (let s := { bench crc16 with slots := [builtSlot crc32, builtSlot crc16] }
     (2#8).toNat < s.ctx.length ∧ s.apsValid = true ∧ s.slots[1]? = some (builtSlot crc16) ∧ (builtSlot crc16).valid = true ∧
       (builtSlot crc16).key.EqualEight s.aps ∧
       ∀ (j : Nat) (sl : Slot), j < 1 → s.slots[j]? = some sl → ¬ (sl.valid = true ∧ sl.key.EqualEight s.aps)) ∧
    (let s := { bench crc32 with slots := [builtSlot crc16, .empty] }
     (2#8).toNat < s.ctx.length ∧ s.apsValid = true ∧ NoKey s.slots s.aps ∧ s.slots[1]? = some .empty ∧ Slot.empty.valid = false ∧
       ∀ (j : Nat) (sl : Slot), j < 1 → s.slots[j]? = some sl → sl.valid = true) ∧
    (let s := { bench crc32 with slots := [builtSlot crc16] }
     (2#8).toNat < s.ctx.length ∧ s.apsValid = true ∧ NoKey s.slots s.aps ∧ ∀ sl ∈ s.slots, sl.valid = true) := by
  have ne : ∀ p q : ParamSet, p.width ≠ q.width → ¬ p.EqualEight q := fun p q h he => h he.1
  refine ⟨⟨by decide, rfl, rfl, rfl, ⟨rfl, rfl, rfl, rfl, rfl, rfl, rfl, rfl⟩, ?_⟩,
    ⟨by decide, rfl, ?_, rfl, rfl, ?_⟩, ⟨by decide, rfl, ?_, ?_⟩⟩
  · intro j sl hj hsl
    obtain rfl : j = 0 := by omega
    rw [← Option.some.inj hsl]
    exact fun h => ne _ _ (by decide) h.2
  · intro sl hsl
    rcases List.mem_cons.1 hsl with rfl | hsl
    · exact fun h => ne _ _ (by decide) h.2
    · rw [List.mem_singleton.1 hsl]
      simp
  · intro j sl hj hsl
    obtain rfl : j = 0 := by omega
    rw [← Option.some.inj hsl]
    rfl
  · intro sl hsl
    rw [List.mem_singleton.1 hsl]
    exact fun h => ne _ _ (by decide) h.2
  · intro sl hsl
    rw [List.mem_singleton.1 hsl]
    rfl

theorem test_witness_UnbindClearsContext :
    (bench crc16).ctx.length ≤ (3#8).toNat ∧ (2#8).toNat < (bench crc16).ctx.length ∧
      ((bench crc16).BlockInv ∧ (bench crc16).ctx[(2#8).toNat]? = some .unbound ∧ Context.unbound.kind = .none) :=
  ⟨by decide, by decide, (test_witness_inv crc16 crc16_valid).1, rfl, rfl⟩

/-- For `RESET`, `UPDATE_BYTE`, `VALUE`, `CTX_READ`, `TABLE_READ` and the run commands: a context of each kind, and the
index beyond the last. -/
theorem test_witness_contexts (p : ParamSet) :
    (bench p).ctx.length ≤ (3#8).toNat ∧
      ((bench p).ctx[(2#8).toNat]? = some .unbound ∧ Context.unbound.kind = .none) ∧
      ((bench p).ctx[(0#8).toNat]? = some (bwContext p) ∧ (bwContext p).kind = .bitwise) ∧
      ((bench p).ctx[(1#8).toNat]? = some (tbContext p 0) ∧ (tbContext p 0).kind = .table ∧
        (bench p).slots[(tbContext p 0).slot.toNat]? = some (builtSlot p)) :=
  ⟨Nat.le_refl 3, ⟨rfl, rfl⟩, ⟨rfl, rfl⟩, rfl, rfl, rfl⟩

/-- The three cases of 43_table_engine R154, and width 8 and 7 on either side of its boundary. -/
theorem test_witness_UpdateByteStepsEngine :
    crc32.refin = true ∧ (crc3.refin = false ∧ crc3.width.toNat < 8) ∧ (crc16.refin = false ∧ ¬ crc16.width.toNat < 8) ∧
      (7#7).toNat < 8 ∧ ¬ (8#7).toNat < 8 := by decide

/-- A run that ends at the last byte, an empty run at the end, and one byte too many (95 part 2.7). -/
theorem test_witness_UpdateBlockFeedsRun :
    ((0#64).toNat + (9#64).toNat ≤ (bench crc16).imemBytes ∧ (bench crc16).racing = []) ∧
      (9#64).toNat + (0#64).toNat ≤ (bench crc16).imemBytes ∧
      (bench crc16).imemBytes < (9#64).toNat + (1#64).toNat ∧
      (bench crc16).imemBytes < (0xFFFFFFFFFFFFFFFF#64).toNat + (1#64).toNat := by decide

/-- A run with another agent's write under way. -/
theorem test_witness_UpdateBlockFeedsRun_raced :
    let s := { bench crc16 with racing := [(0, 0x41)] }
    s.ctx[(0#8).toNat]? = some (bwContext crc16) ∧ (bwContext crc16).kind ≠ .none ∧
      (0#64).toNat + (1#64).toNat ≤ s.imemBytes ∧ s.racing ≠ [] :=
  ⟨rfl, by decide, by decide, by simp⟩

/-- A host's write of the last byte, then a run over all nine with another agent writing that byte. -/
theorem test_witness_HostWriteIsSeenRacedByteIsADraw :
    let s := { bench crc16 with pending := [.writeInput 8 0x42, .issue (encode (.updateBlock 0 0 9)) [(8, 0x41)]] }
    s.pending = .writeInput 8 0x42 :: .issue (encode (.updateBlock 0 0 9)) [(8, 0x41)] :: [] ∧
      s.ctx[(0#8).toNat]? = some (bwContext crc16) ∧ (bwContext crc16).kind ≠ .none ∧ 8 < s.imemBytes ∧
      (∀ w ∈ ([(8, 0x41)] : List Host.Cell), w.1 < s.imemBytes) ∧ (0#64).toNat + (9#64).toNat ≤ s.imemBytes ∧
      Memory.wf s.imem = true :=
  ⟨rfl, rfl, by decide, by decide, by decide, by decide, by decide⟩

/-- Every pair of reflection flags over a valid set, for `VALUE`. -/
theorem test_witness_ValueAnswersCrc :
    ((bench crc16).ctx[(0#8).toNat]? = some (bwContext crc16) ∧ (bwContext crc16).kind ≠ .none ∧
        (bwContext crc16).ps.Valid) ∧
      ((bench masked8).ctx[(1#8).toNat]? = some (tbContext masked8 0) ∧ (tbContext masked8 0).kind ≠ .none ∧
        (tbContext masked8 0).ps.Valid) :=
  ⟨⟨rfl, by decide, crc16_valid⟩, rfl, by decide, masked8_valid⟩

/-- The last field selector, `KIND`'s neighbours, and the first reserved selector (44_context_commands R187). -/
theorem test_witness_CtxReadAnswersField :
    0x0C ≤ (0x0C#8).toNat ∧ ((0x0B#8).toNat ≤ 0x0B ∧ 0x0B#8 ≠ 0x09#8) ∧ ((0x0A#8).toNat ≤ 0x0B ∧ 0x0A#8 ≠ 0x09#8) ∧
      ((0x08#8).toNat ≤ 0x0B ∧ 0x08#8 ≠ 0x09#8) := by decide

/-- An entry at each end of a table (43_table_engine R159). -/
theorem test_witness_TableReadAnswersEntry :
    (bench crc32).slots[(tbContext crc32 0).slot.toNat]? = some (builtSlot crc32) ∧
      (builtSlot crc32).table[(0x00#8).toNat]? = some 0 ∧ (builtSlot crc32).table[(0xFF#8).toNat]? = some 0x2D02EF8D :=
  ⟨rfl, by decide +kernel, by decide +kernel⟩

theorem test_witness_TableReadAnswersGeneratedEntry :
    (bench crc32).BlockInv ∧ (bench crc32).ctx[(1#8).toNat]? = some (tbContext crc32 0) ∧
      (tbContext crc32 0).kind = .table :=
  ⟨(test_witness_inv crc32 crc32_valid).1, rfl, rfl⟩

/-! ### Witnesses: rules over all commands -/

theorem test_witness_ContextCommandsCheckRange :
    (Instr.value 2).ctxIndex = some 2 ∧ fresh.ctx.length ≤ (2#8).toNat ∧
      (Instr.tbBind 255).ctxIndex = some 255 ∧ State.reset.ctx.length ≤ (255#8).toNat := by decide

theorem test_witness_UnboundContextRaisesBoundNeverFails :
    ((bench crc16).ctx[(2#8).toNat]? = some .unbound ∧ Context.unbound.kind = .none ∧
        (0x0B#8).toNat ≤ 0x0B ∧ 0x0B#8 ≠ 0x09#8) ∧
      ((bench crc16).ctx[(1#8).toNat]? = some (tbContext crc16 0) ∧ (tbContext crc16 0).kind ≠ .none ∧
        (0#64).toNat + (9#64).toNat ≤ (bench crc16).imemBytes) :=
  ⟨⟨rfl, rfl, by decide, by decide⟩, rfl, by decide, by decide⟩

/-- A command that fails and one that succeeds: for `FailedCommandWritesOnlyErrorRecord`, `SuccessKeepsErrorRecord`,
`ErrorsStayInTheirRow`, `NoCommandWritesInputMemory` and `ReadCommandsWriteNothing`. -/
theorem test_witness_responses :
    (exec (.regRead 0x07) fresh = .next (fresh.failed 9 0x07 0 0) ∧
        (fresh.failed 9 0x07 0 0).responses = fresh.responses ++ [⟨9, 0x07, 0⟩] ∧
        (⟨9, 0x07, 0⟩ : Response).rcode ≠ 0#8) ∧
      (exec (.regRead 0x38) fresh = .next (fresh.answer 0 idWord 0) ∧
        (fresh.answer 0 idWord 0).responses = fresh.responses ++ [⟨0, idWord, 0⟩] ∧
        (⟨0, idWord, 0⟩ : Response).rcode = 0#8 ∧ (Instr.regRead 0x38).readsOnly = true) ∧
      (exec (.regWrite 0x23 1) fresh = .next (fresh.clearErr.answer 0 0 0) ∧
        (fresh.clearErr.answer 0 0 0).responses = fresh.responses ++ [⟨0, 0, 0⟩]) :=
  ⟨⟨rfl, rfl, by decide⟩, ⟨rfl, rfl, rfl, rfl⟩, rfl, rfl⟩

/-- A staging write, and a command that writes no parameter register. -/
theorem test_witness_ParameterRegistersHaveOneWriter :
    exec (.regWrite 0x00 8) fresh =
        .next (State.answer { fresh with stg := { fresh.stg with width := 8 } } 0 0 0) ∧
      exec .selfTest fresh = .next (fresh.failed 4 0 0 0) ∧ (bench crc16).apsValid = true :=
  ⟨rfl, rfl, rfl⟩

theorem test_witness_ContextChangesOnlyWhenNamed :
    exec (.unbind 0) fresh = .next (State.answer { fresh with ctx := [.unbound, .unbound] } 0 0 0) ∧
      (∀ c, (Instr.unbind 0).ctxIndex = some c → c.toNat ≠ 1) ∧ Instr.psetCommit.ctxIndex = none :=
  ⟨rfl, by intro c h; cases h; decide, rfl⟩

theorem test_witness_BindingFieldsHaveTheirWriters :
    exec (.reset 0) { fresh with ctx := [bwContext crc16] } =
        .next (State.answer { fresh with ctx := [bwContext crc16] } 0 0 0) ∧
      (Instr.reset 0).binds = false ∧ (Instr.value 0).binds = false :=
  ⟨rfl, rfl, rfl⟩

theorem test_witness_NoCommandChangesAValidSlot :
    (∀ c, Instr.value 0 ≠ .tbBind c) ∧ (bench crc16).slots[0]? = some (builtSlot crc16) ∧
      (builtSlot crc16).valid = true :=
  ⟨nofun, rfl, rfl⟩

theorem test_witness_TableBindsAreCounted :
    exec (.tbBind 2) (bench crc16) =
        .next (State.answer
          { bench crc16 with
            ctx := [bwContext crc16, tbContext crc16 0, tbContext crc16 0], cacheHits := 1 } 0 0 0) ∧
      ({ bench crc16 with cacheHits := 1 }.answer 0 0 0).responses = (bench crc16).responses ++ [⟨0, 0, 0⟩] :=
  ⟨rfl, rfl⟩

theorem test_witness_HighRegisterBitsUnobservable :
    (bench crc16).BlockInv ∧
      (let t := { bench crc16 with ctx := [{ bwContext crc16 with reg := 0x10000 }, tbContext crc16 0, .unbound] }
       (bench crc16).AgreeBelow t ∧ t ≠ bench crc16) := by
  refine ⟨(test_witness_inv crc16 crc16_valid).1, ⟨rfl, ?_⟩, ?_⟩
  · refine .cons ⟨rfl, rfl, rfl, rfl, by decide⟩ (.cons ⟨rfl, rfl, rfl, rfl, rfl⟩ (.cons ⟨rfl, rfl, rfl, rfl, rfl⟩ .nil))
  · intro h
    exact absurd (congrArg (fun s : State => s.ctx[0]?.map Context.reg) h) (by decide)

/-! ### Witnesses: sequences of commands -/

theorem test_witness_BlockSplits :
    let s := bench crc16
    s.ctx[(0#8).toNat]? = some (bwContext crc16) ∧ (bwContext crc16).kind ≠ .none ∧ s.racing = [] ∧
      (0#64).toNat + (4#64).toNat + (5#64).toNat ≤ s.imemBytes ∧ (4#64).toNat = (0#64).toNat + (4#64).toNat ∧
      (9#64).toNat = (4#64).toNat + (5#64).toNat :=
  ⟨rfl, by decide, rfl, by decide, by decide, by decide⟩

theorem test_witness_BlockEqualsByteUpdates :
    let s := bench crc32
    s.ctx[(1#8).toNat]? = some (tbContext crc32 0) ∧ (tbContext crc32 0).kind ≠ .none ∧
      (0#64).toNat + (9#64).toNat ≤ s.imemBytes ∧ s.racing = [] :=
  ⟨rfl, by decide, by decide, rfl⟩

theorem test_witness_ValueAfterResetIsEmptyInput :
    (bench masked8).BlockInv ∧ (bench masked8).ctx[(1#8).toNat]? = some (tbContext masked8 0) ∧
      (tbContext masked8 0).kind ≠ .none :=
  ⟨(test_witness_inv masked8 masked8_valid).1, rfl, by decide⟩

theorem test_witness_ResetUpdateValueAgreeAcrossEngines :
    let s := bench crc3
    s.BlockInv ∧ s.racing = [] ∧ 0#8 ≠ 1#8 ∧ s.ctx[(0#8).toNat]? = some (bwContext crc3) ∧
      s.ctx[(1#8).toNat]? = some (tbContext crc3 0) ∧ (bwContext crc3).kind = .bitwise ∧
      (tbContext crc3 0).kind = .table ∧ (bwContext crc3).ps = (tbContext crc3 0).ps ∧
      (0#64).toNat + (9#64).toNat ≤ s.imemBytes :=
  ⟨(test_witness_inv crc3 crc3_valid).1, rfl, by decide, rfl, rfl, rfl, rfl, rfl, by decide⟩

/-- Widths on either side of each end, for `PSET_LOAD` (30_encoding R90). -/
theorem test_witness_PsetLoadSucceedsExactlyWhenCommitDoes :
    (1 ≤ (1#64).toNat ∧ (1#64).toNat ≤ 64) ∧ (1 ≤ (64#64).toNat ∧ (64#64).toNat ≤ 64) ∧
      ¬ (1 ≤ (0#64).toNat ∧ (0#64).toNat ≤ 64) ∧ ¬ (1 ≤ (65#64).toNat ∧ (65#64).toNat ≤ 64) := by decide

end Sys2Proof.Tests
end

/-! The invariant of 10_state R50: the rules that keep a context, the table store and the whole block good, the machine
after reset, and every step. -/

namespace Sys2Proof.Machine

/-! ### Contexts that meet the invariant -/

theorem Context.ok_unbound (slots : List Slot) : Context.unbound.Ok slots := rfl

theorem Context.ok_bwContext {p : ParamSet} (hp : p.Valid) (slots : List Slot) : (bwContext p).Ok slots :=
  ⟨hp, rfl, rfl⟩

/-- A table context bound to a slot built for its set is good; the slot's index fits `SLOT`, whose width is 8 bits. -/
theorem Context.ok_tbContext {p : ParamSet} (hp : p.Valid) {slots : List Slot} {k : Nat} {sl : Slot}
    (hlen : slots.length ≤ 256) (hsl : slots[k]? = some sl) (hv : sl.valid = true) (hkey : sl.key = p) :
    (tbContext p k).Ok slots := by
  have hk : k < slots.length := (List.getElem?_eq_some_iff.1 hsl).1
  have hslot : (tbContext p k).slot.toNat = k := by
    simp only [tbContext, BitVec.toNat_ofNat]
    omega
  exact ⟨hp, rfl, fun _ => tbStart_lt hp, sl, by rwa [hslot], hv, hkey⟩

/-- The engine reset keeps a bound context good: a table engine's start value fits its width (43_table_engine R153). -/
theorem Context.ok_restart {slots : List Slot} {x : Context} (h : x.Ok slots) (hk : x.kind ≠ .none) :
    Context.Ok slots { x with reg := x.start } := by
  refine Context.ok_reg h hk _ fun ht _ => ?_
  simp only [Context.Ok, ht] at h
  obtain ⟨hp, hstart, -, -⟩ := h
  show x.start.toNat < 2 ^ x.ps.width.toNat
  exact hstart ▸ tbStart_lt hp

/-! ### The table store -/

/-- Every valid slot of the first store is in the second, at the same index (43_table_engine R161). -/
def KeepsValid (slots slots' : List Slot) : Prop :=
  ∀ (k : Nat) (sl : Slot), slots[k]? = some sl → sl.valid = true → slots'[k]? = some sl

theorem KeepsValid.refl (slots : List Slot) : KeepsValid slots slots := fun _ _ h _ => h

/-- A context rests on the valid slots alone. -/
theorem Context.Ok.of_keepsValid {slots slots' : List Slot} (hkeep : KeepsValid slots slots') {x : Context}
    (h : x.Ok slots) : x.Ok slots' := by
  unfold Context.Ok at *
  cases hk : x.kind <;> simp only [hk] at h ⊢
  · exact h
  · exact h
  · obtain ⟨hp, hstart, hfits, sl, hsl, hv, hkey⟩ := h
    exact ⟨hp, hstart, hfits, sl, hkeep _ _ hsl hv, hv, hkey⟩

/-- A build writes a slot that was invalid (43_table_engine R157). -/
theorem keepsValid_build {slots : List Slot} {p : ParamSet} {k : Nat} (h : lookup slots p = .miss k) (new : Slot) :
    KeepsValid slots (slots.set k new) := by
  obtain ⟨-, ⟨old, hold, hinvalid⟩, -⟩ := (lookup_eq_miss slots p k).1 h
  intro j sl hsl hv
  have hne : k ≠ j := by
    rintro rfl
    rw [hold, Option.some.injEq] at hsl
    rw [hsl, hv] at hinvalid
    cases hinvalid
  rw [List.getElem?_set_ne hne, hsl]

theorem getElem?_build {slots : List Slot} {p : ParamSet} {k : Nat} (h : lookup slots p = .miss k) (new : Slot) :
    (slots.set k new)[k]? = some new := by
  obtain ⟨-, ⟨old, hold, -⟩, -⟩ := (lookup_eq_miss slots p k).1 h
  exact List.getElem?_set_self (List.getElem?_eq_some_iff.1 hold).1

theorem ParamSet.EqualEight.symm {p q : ParamSet} (h : p.EqualEight q) : q.EqualEight p := by
  obtain ⟨h1, h2, h3, h4, h5, h6, h7, h8⟩ := h
  exact ⟨h1.symm, h2.symm, h3.symm, h4.symm, h5.symm, h6.symm, h7.symm, h8.symm⟩

/-- A slot other than the one that a build fills holds a key other than the built one. -/
theorem not_equalEight_of_ne_build {slots : List Slot} {p : ParamSet} {j k : Nat} {sl : Slot} (h : NoKey slots p)
    (hne : k ≠ j) (hsl : (slots.set k (builtSlot p))[j]? = some sl) (hv : sl.valid = true) : ¬ sl.key.EqualEight p := by
  rw [List.getElem?_set_ne hne] at hsl
  exact fun he => h sl (List.mem_of_getElem? hsl) ⟨hv, he⟩

/-- A build after a miss keeps the keys distinct (43_table_engine R157). -/
theorem keysUnique_build {slots : List Slot} {p : ParamSet} {k : Nat} (h : lookup slots p = .miss k)
    (hu : KeysUnique slots) : KeysUnique (slots.set k (builtSlot p)) := by
  obtain ⟨hno, -, -⟩ := (lookup_eq_miss slots p k).1 h
  have hk := getElem?_build h (builtSlot p)
  intro i j sl sl' hsl hsl' hv hv' he
  by_cases hi : k = i <;> by_cases hj : k = j
  · exact hi.symm.trans hj
  · obtain rfl : builtSlot p = sl := Option.some.inj (hk.symm.trans (hi ▸ hsl))
    exact absurd he.symm (not_equalEight_of_ne_build hno hj hsl' hv')
  · obtain rfl : builtSlot p = sl' := Option.some.inj (hk.symm.trans (hj ▸ hsl'))
    exact absurd he (not_equalEight_of_ne_build hno hi hsl hv)
  · rw [List.getElem?_set_ne hi] at hsl
    rw [List.getElem?_set_ne hj] at hsl'
    exact hu i j sl sl' hsl hsl' hv hv' he

theorem slotsOk_build {slots : List Slot} {p : ParamSet} (hp : p.Valid) (k : Nat) (h : ∀ sl ∈ slots, sl.Ok) :
    ∀ sl ∈ slots.set k (builtSlot p), sl.Ok := by
  intro sl hsl
  rcases List.mem_or_eq_of_mem_set hsl with hsl | rfl
  · exact h sl hsl
  · exact Slot.ok_built hp

/-! ### One rule per state update -/

/-- The invariant of the block reads neither the counters nor the bookkeeping of the command port. -/
theorem State.BlockInv.bookkeeping {s : State} (hs : s.BlockInv) (builds hits : Word) (pending : List HostAction)
    (responses : List Response) (racing : List Host.Cell) (draws : Nat) :
    State.BlockInv { s with
      cacheBuilds := builds, cacheHits := hits, pending := pending, responses := responses, racing := racing,
      draws := draws } :=
  { hs with }

theorem State.BlockInv.answer {s : State} (hs : s.BlockInv) (code : BitVec 8) (d0 d1 : Word) :
    (s.answer code d0 d1).BlockInv :=
  hs.bookkeeping _ _ _ _ _ _

theorem State.BlockInv.failed {s : State} (hs : s.BlockInv) (code : BitVec 8) (d0 d1 d2 : Word)
    (hcode : code.toNat ≤ 10) : (s.failed code d0 d1 d2).BlockInv :=
  { hs with lastErr_le := hcode }

theorem State.BlockInv.clearErr {s : State} (hs : s.BlockInv) : s.clearErr.BlockInv :=
  { hs with lastErr_le := Nat.zero_le 10 }

theorem State.BlockInv.setCtx {s : State} (hs : s.BlockInv) (c : Nat) {x : Context} (hx : x.Ok s.slots) :
    (s.setCtx c x).BlockInv :=
  { hs with
    nctx_range := by simpa using hs.nctx_range
    ctx_ok := Context.ok_set hs.ctx_ok c x hx }

theorem State.BlockInv.ctxAt_ok {s : State} (hs : s.BlockInv) {c : Nat} (hc : c < s.ctx.length) :
    (s.ctxAt c).Ok s.slots :=
  hs.ctx_ok _ (s.ctxAt_mem c hc)

theorem State.BlockInv.build {s : State} (hs : s.BlockInv) (hv : s.apsValid = true) {k : Nat}
    (h : lookup s.slots s.aps = .miss k) :
    State.BlockInv { s with slots := s.slots.set k (builtSlot s.aps) } :=
  { hs with
    tslots_range := by simpa using hs.tslots_range
    ctx_ok := fun x hx => (hs.ctx_ok x hx).of_keepsValid (keepsValid_build h _)
    slots_ok := slotsOk_build (hs.aps_valid hv) k hs.slots_ok
    keys_unique := keysUnique_build h hs.keys_unique }

/-- What the input memory holds after writes below `IMEM_BYTES` is in canonical form and in range (20_memory R61). -/
theorem State.BlockInv.writeAll {s : State} (hs : s.BlockInv) {cells : List Host.Cell}
    (h : ∀ w ∈ cells, w.1 < s.imemBytes) : State.BlockInv { s with imem := s.imem.writeAll cells } :=
  { hs with
    imem_wf := Memory.wf_writeAll cells s.imem hs.imem_wf
    imem_range := fun cell hcell => by
      rcases Memory.mem_writeAll cells s.imem cell hcell with hm | ⟨w, hw, he⟩
      · exact hs.imem_range cell hm
      · exact he ▸ h w hw }

/-! ### Commands -/

/-- A hit is a slot built for the active set (43_table_engine R158). -/
theorem State.BlockInv.tbContext_hit_ok {s : State} (hs : s.BlockInv) (hv : s.apsValid = true) {k : Nat}
    (h : lookup s.slots s.aps = .hit k) : (tbContext s.aps k).Ok s.slots := by
  obtain ⟨⟨sl, hsl, hvalid, he⟩, -⟩ := (lookup_eq_hit s.slots s.aps k).1 h
  have hp := hs.aps_valid hv
  have hkey := ((hs.slots_ok sl (List.mem_of_getElem? hsl)).2 hvalid).1.eq_of_equalEight hp he
  exact Context.ok_tbContext hp hs.tslots_range.2 hsl hvalid hkey

theorem State.BlockInv.tbContext_build_ok {s : State} (hs : s.BlockInv) (hv : s.apsValid = true) {k : Nat}
    (h : lookup s.slots s.aps = .miss k) : (tbContext s.aps k).Ok (s.slots.set k (builtSlot s.aps)) :=
  Context.ok_tbContext (hs.aps_valid hv) (hs.build hv h).tslots_range.2 (getElem?_build h _) rfl rfl

/-- Every command keeps the invariant of the block, whatever other agents write meanwhile. -/
theorem Effect.blockInv {i : Instr} {s t : State} (h : Effect i s t) (hs : s.BlockInv) : t.BlockInv := by
  cases h with
  | failed _ _ code d0 d1 d2 hmem _ => exact hs.failed code d0 d1 d2 (mayReturn_le i code hmem)
  | reads _ _ d0 _ => exact hs.answer _ _ _
  | stages sel v _ g _ hg =>
    have hstg : State.BlockInv { s with stg := g } := { hs with flags_reserved := hg hs.flags_reserved }
    exact hstg.answer _ _ _
  | clears v _ => exact hs.clearErr.answer _ _ _
  | commits _ h1 h2 =>
    have haps : State.BlockInv { s with aps := makePS s.stg, apsValid := true } :=
      { hs with aps_valid := fun _ => makePS_valid s.stg h1 h2, aps_zero := nofun }
    exact haps.answer _ _ _
  | bwBinds c _ _ hv => exact (hs.setCtx _ (Context.ok_bwContext (hs.aps_valid hv) _)).answer _ _ _
  | tbHits c _ k _ hv hl => exact (hs.setCtx _ (hs.tbContext_hit_ok hv hl)).bookkeeping _ _ _ _ _ _
  | tbBuilds c _ k _ hv hl =>
    exact ((hs.build hv hl).setCtx _ (hs.tbContext_build_ok hv hl)).bookkeeping _ _ _ _ _ _
  | unbinds c _ _ => exact (hs.setCtx _ (Context.ok_unbound _)).answer _ _ _
  | resets c _ hc hk => exact (hs.setCtx _ (Context.ok_restart (hs.ctxAt_ok hc) hk)).answer _ _ _
  | feedsByte c b _ hc hk => exact (hs.setCtx _ (Context.ok_run hs.slots_ok (hs.ctxAt_ok hc) hk [b])).answer _ _ _
  | feedsRun c off len _ bytes d hc hk _ =>
    exact (hs.setCtx _ (Context.ok_run hs.slots_ok (hs.ctxAt_ok hc) hk bytes)).bookkeeping _ _ _ _ _ _

/-- No command writes the input memory's size or what other agents write meanwhile (20_memory R61, R68). -/
theorem Effect.imemBytes_racing {i : Instr} {s t : State} (h : Effect i s t) :
    t.imemBytes = s.imemBytes ∧ t.racing = s.racing := by
  cases h <;> exact ⟨rfl, rfl⟩

/-! ### Reset -/

/-- The machine after reset, for every choice of the parameters and of the input memory (10_state R50). -/
theorem State.afterReset_inv {nctx tslots bytes : Nat} {m : Memory} (hn : 1 ≤ nctx ∧ nctx ≤ 256)
    (ht : 1 ≤ tslots ∧ tslots ≤ 256) (hb : bytes ≤ 2 ^ 64) (hwf : Memory.wf m = true)
    (hr : ∀ cell ∈ m, cell.1 < bytes) : (State.afterReset nctx tslots bytes m).Inv := by
  have hslot : ∀ (k : Nat) (sl : Slot), (List.replicate tslots Slot.empty)[k]? = some sl → sl = Slot.empty :=
    fun k sl h => List.eq_of_mem_replicate (List.mem_of_getElem? h)
  refine ⟨?_, rfl⟩
  exact
    { nctx_range := by simpa [State.afterReset] using hn
      tslots_range := by simpa [State.afterReset] using ht
      imem_size := hb
      imem_wf := hwf
      imem_range := hr
      flags_reserved := Nat.zero_lt_succ 3
      aps_valid := nofun
      aps_zero := fun _ => rfl
      ctx_ok := fun x hx => List.eq_of_mem_replicate hx ▸ Context.ok_unbound _
      slots_ok := fun sl hsl => List.eq_of_mem_replicate hsl ▸ Slot.ok_empty
      keys_unique := fun j k sl sl' hsl _ hv => by
        rw [hslot j sl hsl, Slot.empty_valid] at hv
        cases hv
      lastErr_le := Nat.zero_le 10 }

/-- The hardware reset keeps the parameters and the input memory, and so leads to a state as after reset (70_reset
R230). -/
theorem State.BlockInv.hardReset_inv {s : State} (hs : s.BlockInv) : (hardReset s).Inv :=
  have h := State.afterReset_inv hs.nctx_range hs.tslots_range hs.imem_size hs.imem_wf hs.imem_range
  ⟨h.1.bookkeeping 0#64 0#64 s.pending s.responses [] s.draws, rfl⟩

/-! ### Steps -/

/-- A command on the port, decoded or not, leads to a next state that keeps the invariant of the block. -/
theorem runDecoded_blockInv {t : Transaction} {s u : State} (hs : s.BlockInv) (h : runDecoded exec t s = .next u) :
    u.BlockInv ∧ u.imemBytes = s.imemBytes ∧ u.racing = s.racing := by
  unfold runDecoded at h
  cases hd : decode t with
  | ok i =>
    simp only [hd] at h
    have he := effect_of_exec h
    exact ⟨he.blockInv hs, he.imemBytes_racing⟩
  | error e =>
    simp only [hd, illegalCommand_eq_failed, Host.Outcome.next.injEq] at h
    subst h
    exact ⟨hs.failed _ _ _ _ (by decide), rfl, rfl⟩

theorem finishCommand_eq_next {o : Host.Outcome State Fault Refusal} {t : State} (h : finishCommand o = .next t) :
    ∃ u, o = .next u ∧ t = landRacing u := by
  cases o with
  | next u => exact ⟨u, rfl, (Host.Outcome.next.inj h).symm⟩
  | fault _ => cases h
  | refused _ => cases h

theorem runCommand_inv {t : Transaction} {ws : List Host.Cell} {rest : List HostAction} {s u : State}
    (hs : s.BlockInv) (h : runCommand exec t ws rest s = .next u) : u.Inv := by
  unfold runCommand at h
  cases ho : s.outsideInput ws with
  | some cell => simp [ho] at h
  | none =>
    simp only [ho] at h
    obtain ⟨v, hrun, rfl⟩ := finishCommand_eq_next h
    have hbegin : (beginCommand ws rest s).BlockInv := hs.bookkeeping _ _ _ _ _ _
    obtain ⟨hv, hbytes, hracing⟩ := runDecoded_blockInv hbegin hrun
    have hrange : ∀ w ∈ v.racing, w.1 < v.imemBytes := by
      rw [hbytes, hracing]
      exact (s.outsideInput_eq_none ws).1 ho
    exact ⟨(hv.writeAll hrange).bookkeeping _ _ _ _ [] _, rfl⟩

theorem hostWrite_inv {a : Nat} {b : Byte} {s t : State} (hs : s.Inv) (h : hostWrite a b s = .next t) : t.Inv := by
  unfold hostWrite at h
  split at h
  next ha =>
    cases h
    exact ⟨hs.1.writeAll (cells := [(a, b)]) (by simpa using ha), hs.2⟩
  next => cases h

theorem step_inv {s t : State} (hs : s.Inv) (h : step s = .next t) : t.Inv := by
  have hpop : ∀ rest : List HostAction, State.Inv { s with pending := rest } :=
    fun rest => ⟨hs.1.bookkeeping _ _ rest _ _ _, hs.2⟩
  unfold step performNext at h
  split at h
  next => exact Host.Outcome.next.inj h ▸ hs
  next => exact runCommand_inv hs.1 h
  next rest _ => exact hostWrite_inv (hpop rest) h
  next rest _ => exact Host.Outcome.next.inj h ▸ (hpop rest).1.hardReset_inv

/-- Settles O10: the machine after reset with every choice of the parameters, and so with the default ones. -/
theorem resetMeetsInvariant : Obligations.ResetMeetsInvariant := by
  refine ⟨?_, fun nctx tslots bytes m hn hn' ht ht' hb hwf hr => State.afterReset_inv ⟨hn, hn'⟩ ⟨ht, ht'⟩ hb hwf hr⟩
  exact State.afterReset_inv (by decide) (by decide) (Nat.le_refl _) Memory.wf_nil (by simp)

/-- Settles O11: each kind of host action keeps the invariant, a command by the case split over its effects. -/
theorem stepKeepsInvariant : Obligations.StepKeepsInvariant := fun _ _ hs h => step_inv hs h

end Sys2Proof.Machine

/-! Which command writes which part of the state: the parameter registers, the contexts and the table store. -/

namespace Sys2Proof.Machine

/-! ### Parameter registers -/

theorem Effect.aps_unchanged {i : Instr} {s t : State} (h : Effect i s t) (hi : i ≠ .psetCommit) :
    t.aps = s.aps ∧ t.apsValid = s.apsValid := by
  cases h with
  | commits => exact absurd rfl hi
  | _ => exact ⟨rfl, rfl⟩

theorem Effect.stg_unchanged {i : Instr} {s t : State} (h : Effect i s t) (hi : ∀ sel v, i ≠ .regWrite sel v) :
    t.stg = s.stg := by
  cases h with
  | stages => exact absurd rfl (hi _ _)
  | _ => rfl

theorem Effect.apsValid_stays {i : Instr} {s t : State} (h : Effect i s t) (hv : s.apsValid = true) :
    t.apsValid = true := by
  cases h with
  | commits => rfl
  | _ => exact hv

/-- Settles O34: each register's writer, by the case split over a command's effects. -/
theorem parameterRegistersHaveOneWriter : Obligations.ParameterRegistersHaveOneWriter := by
  intro i s t h
  have he := effect_of_exec h
  exact ⟨he.aps_unchanged, he.stg_unchanged, he.apsValid_stays⟩

/-! ### Contexts -/

/-- A command that does not bind writes at most one context, and of it the register alone (10_state R37). -/
theorem Effect.ctx_of_not_binds {i : Instr} {s t : State} (h : Effect i s t) (hb : i.binds = false) :
    t.ctx = s.ctx ∨ ∃ (c : Nat) (r : Word), t.ctx = s.ctx.set c { s.ctxAt c with reg := r } := by
  cases h with
  | bwBinds | tbHits | tbBuilds | unbinds => cases hb
  | resets | feedsByte | feedsRun => exact .inr ⟨_, _, rfl⟩
  | failed | reads | stages | clears | commits => exact .inl rfl

theorem Effect.ctx_unchanged {i : Instr} {s t : State} (h : Effect i s t) (hb : i.binds = false)
    (hreset : ∀ c, i ≠ .reset c) (hbyte : ∀ c b, i ≠ .updateByte c b)
    (hblock : ∀ c off len, i ≠ .updateBlock c off len) :
    t.ctx = s.ctx := by
  cases h with
  | bwBinds | tbHits | tbBuilds | unbinds => cases hb
  | resets => exact absurd rfl (hreset _)
  | feedsByte => exact absurd rfl (hbyte _ _)
  | feedsRun => exact absurd rfl (hblock _ _ _)
  | failed | reads | stages | clears | commits => rfl

/-- Writing the register of one context leaves every context's other fields. -/
theorem State.bindingFields_of_set_reg {s : State} {c d : Nat} {r : Word} {x y : Context} (hx : s.ctx[d]? = some x)
    (hy : (s.ctx.set c { s.ctxAt c with reg := r })[d]? = some y) :
    y.kind = x.kind ∧ y.ps = x.ps ∧ y.start = x.start ∧ y.slot = x.slot := by
  by_cases hd : c = d
  · subst hd
    rw [List.getElem?_set_self (s.lt_of_getElem? c x hx), s.ctxAt_of_getElem? c x hx] at hy
    obtain rfl := Option.some.inj hy
    exact ⟨rfl, rfl, rfl, rfl⟩
  · rw [List.getElem?_set_ne hd, hx] at hy
    obtain rfl := Option.some.inj hy
    exact ⟨rfl, rfl, rfl, rfl⟩

/-- Settles O36: a command that does not bind leaves a context or writes its register alone. -/
theorem bindingFieldsHaveTheirWriters : Obligations.BindingFieldsHaveTheirWriters := by
  intro i s t d x y h hx hy
  have he := effect_of_exec h
  constructor
  · intro hb
    rcases he.ctx_of_not_binds hb with hctx | ⟨c, r, hctx⟩
    · rw [hctx, hx] at hy
      obtain rfl := Option.some.inj hy
      exact ⟨rfl, rfl, rfl, rfl⟩
    · exact State.bindingFields_of_set_reg hx (hctx ▸ hy)
  · intro hb hreset hbyte hblock
    rw [he.ctx_unchanged hb hreset hbyte hblock, hx] at hy
    exact (Option.some.inj hy).symm

/-! ### The table store -/

theorem Effect.store_unchanged {i : Instr} {s t : State} (h : Effect i s t) (hi : ∀ c, i ≠ .tbBind c) :
    t.slots = s.slots ∧ t.cacheBuilds = s.cacheBuilds ∧ t.cacheHits = s.cacheHits := by
  cases h with
  | tbHits | tbBuilds => exact absurd rfl (hi _)
  | _ => exact ⟨rfl, rfl, rfl⟩

theorem Effect.slots_length_keepsValid {i : Instr} {s t : State} (h : Effect i s t) :
    t.slots.length = s.slots.length ∧ KeepsValid s.slots t.slots := by
  cases h with
  | tbBuilds _ _ _ _ _ hl => exact ⟨by simp, keepsValid_build hl _⟩
  | _ => exact ⟨rfl, KeepsValid.refl _⟩

/-- Settles O37: the one effect that writes the store fills a slot that a lookup found invalid. -/
theorem noCommandChangesAValidSlot : Obligations.NoCommandChangesAValidSlot := by
  intro i s t h
  have he := effect_of_exec h
  obtain ⟨hlen, hkeep⟩ := he.slots_length_keepsValid
  exact ⟨he.store_unchanged, hlen, hkeep⟩

/-- A build makes one slot more valid (43_table_engine R158). -/
theorem length_filter_valid_build {slots : List Slot} {p : ParamSet} {k : Nat} (h : lookup slots p = .miss k) :
    ((slots.set k (builtSlot p)).filter Slot.valid).length = (slots.filter Slot.valid).length + 1 := by
  obtain ⟨-, ⟨old, hold, hinvalid⟩, -⟩ := (lookup_eq_miss slots p k).1 h
  obtain ⟨hk, rfl⟩ := List.getElem?_eq_some_iff.1 hold
  simp only [← List.countP_eq_length_filter]
  rw [List.countP_set hk, hinvalid]
  rfl

/-- A `TB_BIND` that answers `OK` was a hit or a build: a failure adds a response with another code. -/
theorem Effect.tbBind_of_ok {c : BitVec 8} {s t : State} {r : Response} (h : Effect (.tbBind c) s t)
    (hr : t.responses = s.responses ++ [r]) (hok : r.rcode = 0#8) :
    (∃ k, lookup s.slots s.aps = .hit k ∧ t.slots = s.slots ∧ t.cacheBuilds = s.cacheBuilds ∧
        t.cacheHits = s.cacheHits + 1#64) ∨
      ∃ k, lookup s.slots s.aps = .miss k ∧ t.slots = s.slots.set k (builtSlot s.aps) ∧
        t.cacheBuilds = s.cacheBuilds + 1#64 ∧ t.cacheHits = s.cacheHits := by
  cases h with
  | failed _ _ code d0 d1 _ _ hne =>
    obtain rfl : (⟨code, d0, d1⟩ : Response) = r := by simpa using hr
    exact absurd hok hne
  | reads _ _ _ hread => cases hread
  | tbHits _ _ k _ _ hl => exact .inl ⟨k, hl, rfl, rfl, rfl⟩
  | tbBuilds _ _ k _ _ hl => exact .inr ⟨k, hl, rfl, rfl, rfl⟩

/-- Settles O38: a success is a hit, or a build, which makes one slot more valid. -/
theorem tableBindsAreCounted : Obligations.TableBindsAreCounted := by
  intro c s t r h hr hok
  rcases (effect_of_exec h).tbBind_of_ok hr hok with ⟨k, -, hslots, hbuilds, hhits⟩ | ⟨k, hl, hslots, hbuilds, hhits⟩
  · exact .inl ⟨hhits, hbuilds, hslots⟩
  · exact .inr ⟨hhits, hbuilds, by rw [hslots, length_filter_valid_build hl]⟩

end Sys2Proof.Machine

/-! One command run in two states that differ in their contexts' registers and in the responses delivered so far
(10_state R39, R48, R49): when every register is replaced by one that the context's engine cannot tell from it, both
runs answer the same. -/

namespace Sys2Proof.Machine

/-! ### Two states side by side -/

/-- `s` with other contexts and other responses delivered so far. -/
def State.withCtx (s : State) (l : List Context) (rs : List Response) : State := { s with ctx := l, responses := rs }

@[simp] theorem State.withCtx_aps (s : State) (l : List Context) (rs : List Response) :
    (s.withCtx l rs).aps = s.aps := rfl
@[simp] theorem State.withCtx_slots (s : State) (l : List Context) (rs : List Response) :
    (s.withCtx l rs).slots = s.slots := rfl

/-- `y` is `x` with a register that the engine of `x` cannot tell from its own: the same value, and registers related
by `P` now and after any run of bytes. -/
structure Context.Alike (P : Context → Context → Prop) (s : State) (x y : Context) : Prop where
  eq_but_reg : y = { x with reg := y.reg }
  value_eq : ctxValue y = ctxValue x
  related : P x y
  run : ∀ bytes, P { x with reg := runReg s x bytes } { y with reg := runReg s y bytes }

theorem Context.Alike.refl {P : Context → Context → Prop} (hP : ∀ x, P x x) (s : State) (x : Context) :
    x.Alike P s x :=
  ⟨rfl, rfl, hP x, fun _ => hP _⟩

theorem Context.Alike.kind_eq {P : Context → Context → Prop} {s : State} {x y : Context} (h : x.Alike P s y) :
    y.kind = x.kind := by
  rw [h.eq_but_reg]

theorem Context.Alike.content_eq {P : Context → Context → Prop} {s : State} {x y : Context} (h : x.Alike P s y)
    (f : CtxField) : f.content y = f.content x := by
  rw [h.eq_but_reg]
  cases f <;> rfl

/-- The next states `s'` and `t'` of a command, from states with the responses `rs` and `rs'`: the same response is
added, the contexts are related by `P`, and nothing else differs. -/
def SameAnswer (P : Context → Context → Prop) (rs rs' : List Response) (s' t' : State) : Prop :=
  ∃ (r : Response) (l : List Context), s'.responses = rs ++ [r] ∧ List.Forall₂ P s'.ctx l ∧
    t' = s'.withCtx l (rs' ++ [r])

/-- Related lists stay so when related contexts are written at one index. -/
theorem forall₂_set {P : Context → Context → Prop} {l l' : List Context} (h : List.Forall₂ P l l') (c : Nat)
    {x y : Context} (hxy : P x y) : List.Forall₂ P (l.set c x) (l'.set c y) := by
  induction h generalizing c with
  | nil => exact .nil
  | cons hab hrest ih =>
    cases c with
    | zero => exact .cons hxy hrest
    | succ c => exact .cons hab (ih c)

/-! ### The shared operations side by side -/

theorem sameAnswer_answer {P : Context → Context → Prop} (u : State) {l : List Context} (rs : List Response)
    (h : List.Forall₂ P u.ctx l) (code : BitVec 8) (d0 d1 : Word) :
    SameAnswer P u.responses rs (u.answer code d0 d1) ((u.withCtx l rs).answer code d0 d1) :=
  ⟨_, l, rfl, h, rfl⟩

theorem sameAnswer_failed {P : Context → Context → Prop} (u : State) {l : List Context} (rs : List Response)
    (h : List.Forall₂ P u.ctx l) (code : BitVec 8) (d0 d1 d2 : Word) :
    SameAnswer P u.responses rs (u.failed code d0 d1 d2) ((u.withCtx l rs).failed code d0 d1 d2) :=
  ⟨_, l, rfl, h, rfl⟩

theorem SameAnswer.ite {P : Context → Context → Prop} {rs rs' : List Response} {c : Prop} [Decidable c]
    {s' t' s'' t'' : State} (h : SameAnswer P rs rs' s' t') (h' : SameAnswer P rs rs' s'' t'') :
    SameAnswer P rs rs' (if c then s' else s'') (if c then t' else t'') := by
  split
  · exact h
  · exact h'

theorem memRead_withCtx (s : State) (l : List Context) (rs : List Response) (a : Nat) :
    memRead (s.withCtx l rs) a = ((memRead s a).1, (memRead s a).2.withCtx l rs) := by
  have hracing : (s.withCtx l rs).racingAt a = s.racingAt a := rfl
  unfold memRead
  rw [hracing]
  cases s.racingAt a <;> rfl

/-- The bytes that the loop of `UPDATE_BLOCK` reads depend neither on the contexts nor on the responses
(44_context_commands R185). -/
theorem feedRun_withCtx (c n a : Nat) (s : State) : ∃ (bytes : List Byte) (d : Nat),
    ∀ (l : List Context) (rs : List Response), c < l.length →
      let x := (s.withCtx l rs).ctxAt c
      feedRun c n a (s.withCtx l rs) =
        State.withCtx { s with draws := d } (l.set c { x with reg := runReg s x bytes }) rs := by
  induction n generalizing a s with
  | zero =>
    refine ⟨[], s.draws, fun l rs hc => ?_⟩
    dsimp only
    rw [runReg_nil]
    exact ((s.withCtx l rs).setCtx_ctxAt_self c hc).symm
  | succ n ih =>
    obtain ⟨-, d₀, hd⟩ := memRead_spec s a
    obtain ⟨bytes, d, hrun⟩ := ih (a + 1) (memRead s a).2
    refine ⟨(memRead s a).1 :: bytes, d, fun l rs hc => ?_⟩
    intro x
    have hstep : stepCtx c (memRead s a).1 ((memRead s a).2.withCtx l rs) =
        (memRead s a).2.withCtx (l.set c { x with reg := stepReg s x (memRead s a).1 }) rs := by
      rw [hd]
      rfl
    have hat : ((memRead s a).2.withCtx (l.set c { x with reg := stepReg s x (memRead s a).1 }) rs).ctxAt c =
        { x with reg := stepReg s x (memRead s a).1 } :=
      (s.withCtx l rs).ctxAt_setCtx_same c _ hc
    rw [feedRun, memRead_withCtx, hstep, hrun _ _ (by simpa using hc), hat, runReg_congr s _ (by rw [hd]), runReg_cons,
      List.set_set, hd]

/-! ### Every command side by side

In this section `s` and `s.withCtx l rs` are the two states, and their contexts are alike. -/

section
variable {P : Context → Context → Prop} {s : State} {l : List Context} (rs : List Response)
  (hP : ∀ x, P x x) (hl : List.Forall₂ (Context.Alike P s) s.ctx l)

include hl

theorem forall₂_related : List.Forall₂ P s.ctx l := hl.imp fun _ _ h => h.related

theorem alike_ctxAt {c : Nat} (hc : c < s.ctx.length) :
    (s.ctxAt c).Alike P s ((s.withCtx l rs).ctxAt c) := by
  have hc' : c < l.length := hl.length_eq ▸ hc
  have h := hl.get hc hc'
  simpa [State.ctxAt, State.withCtx, List.getD_eq_getElem?_getD, hc, hc'] using h

theorem sameAnswer_fails (code : BitVec 8) (d0 d1 d2 : Word) :
    SameAnswer P s.responses rs (s.failed code d0 d1 d2) ((s.withCtx l rs).failed code d0 d1 d2) :=
  sameAnswer_failed s rs (forall₂_related hl) code d0 d1 d2

theorem sameAnswer_reads {d d' : Word} (hd : d' = d) :
    SameAnswer P s.responses rs (respondOk d s) (respondOk d' (s.withCtx l rs)) :=
  hd ▸ sameAnswer_answer s rs (forall₂_related hl) 0#8 d 0#64

/-- Writing related contexts at one index, beside any change of the rest of the state. -/
theorem sameAnswer_setCtx (u : State) (hctx : u.ctx = s.ctx) (c : Nat) {x y : Context} (hxy : P x y) :
    SameAnswer P u.responses rs (respondOk 0#64 (u.setCtx c x)) (respondOk 0#64 ((u.withCtx l rs).setCtx c y)) :=
  sameAnswer_answer (u.setCtx c x) rs (forall₂_set (hctx ▸ forall₂_related hl) c hxy) 0#8 0#64 0#64

theorem sameAnswer_onContext {act act' : Context → State} (c : BitVec 8)
    (h : c.toNat < s.ctx.length → (s.ctxAt c.toNat).Alike P s ((s.withCtx l rs).ctxAt c.toNat) →
      SameAnswer P s.responses rs (act (s.ctxAt c.toNat)) (act' ((s.withCtx l rs).ctxAt c.toNat))) :
    SameAnswer P s.responses rs (onContext c s act) (onContext c (s.withCtx l rs) act') := by
  have hlen : (s.withCtx l rs).ctx.length = s.ctx.length := hl.length_eq.symm
  rcases Nat.lt_or_ge c.toNat s.ctx.length with hc | hc
  · rw [onContext_of_lt c s act hc, onContext_of_lt c _ act' (hlen.symm ▸ hc)]
    exact h hc (alike_ctxAt rs hl hc)
  · rw [onContext_of_ge c s act hc, onContext_of_ge c _ act' (hlen.symm ▸ hc)]
    exact sameAnswer_fails rs hl _ _ _ _

theorem sameAnswer_ifBound {x y : Context} {act act' : State} (c : BitVec 8) (hxy : x.Alike P s y)
    (h : SameAnswer P s.responses rs act act') :
    SameAnswer P s.responses rs (ifBound c x s act) (ifBound c y (s.withCtx l rs) act') := by
  by_cases hk : x.kind = .none
  · rw [ifBound_of_none c x _ _ hk, ifBound_of_none c y _ _ (hxy.kind_eq.trans hk)]
    exact sameAnswer_fails rs hl _ _ _ _
  · rw [ifBound_of_bound c x _ _ hk, ifBound_of_bound c y _ _ (hxy.kind_eq ▸ hk)]
    exact h

theorem sameAnswer_onBound {act act' : Context → State} (c : BitVec 8)
    (h : c.toNat < s.ctx.length → (s.ctxAt c.toNat).Alike P s ((s.withCtx l rs).ctxAt c.toNat) →
      SameAnswer P s.responses rs (act (s.ctxAt c.toNat)) (act' ((s.withCtx l rs).ctxAt c.toNat))) :
    SameAnswer P s.responses rs (onBound c s act) (onBound c (s.withCtx l rs) act') :=
  sameAnswer_onContext rs hl c fun hc hxy => sameAnswer_ifBound rs hl c hxy (h hc hxy)

theorem sameAnswer_regRead (sel : BitVec 8) : ∃ s' t', execRegRead sel s = .next s' ∧
    execRegRead sel (s.withCtx l rs) = .next t' ∧ SameAnswer P s.responses rs s' t' := by
  refine ⟨_, _, rfl, rfl, ?_⟩
  cases Reg.ofSel sel with
  | none => exact sameAnswer_fails rs hl _ _ _ _
  | some r =>
    refine sameAnswer_reads rs hl ?_
    cases r with
    | cfgNctx => exact congrArg (BitVec.ofNat 64) hl.length_eq.symm
    | _ => rfl

theorem sameAnswer_regWrite (sel : BitVec 8) (v : Word) : ∃ s' t', execRegWrite sel v s = .next s' ∧
    execRegWrite sel v (s.withCtx l rs) = .next t' ∧ SameAnswer P s.responses rs s' t' := by
  refine ⟨_, _, rfl, rfl, ?_⟩
  have hrel := forall₂_related hl
  cases Reg.ofSel sel with
  | none => exact sameAnswer_fails rs hl _ _ _ _
  | some r =>
    cases r with
    | stgWidth | stgPoly | stgInit | stgFlags | stgXorout | stgCheck | stgName | lastErr =>
      exact ⟨_, l, rfl, hrel, rfl⟩
    | _ => exact sameAnswer_fails rs hl _ _ _ _

theorem sameAnswer_psetCommit : ∃ s' t', execPsetCommit s = .next s' ∧
    execPsetCommit (s.withCtx l rs) = .next t' ∧ SameAnswer P s.responses rs s' t' := by
  have hcommit := sameAnswer_answer { s with aps := makePS s.stg, apsValid := true } rs
    (show List.Forall₂ P s.ctx l from forall₂_related hl) 0#8 0#64 0#64
  exact ⟨_, _, rfl, rfl, .ite hcommit (sameAnswer_fails rs hl _ _ _ _)⟩

theorem sameAnswer_selfTest : ∃ s' t', execSelfTest s = .next s' ∧
    execSelfTest (s.withCtx l rs) = .next t' ∧ SameAnswer P s.responses rs s' t' := by
  have hfails (code : BitVec 8) (d0 d1 d2 : Word) := sameAnswer_fails rs hl code d0 d1 d2
  exact ⟨_, _, rfl, rfl, .ite (hfails _ _ _ _) (.ite (hfails _ _ _ _) (sameAnswer_reads rs hl rfl))⟩

theorem sameAnswer_ctxRead (c sel : BitVec 8) : ∃ s' t', execCtxRead c sel s = .next s' ∧
    execCtxRead c sel (s.withCtx l rs) = .next t' ∧ SameAnswer P s.responses rs s' t' := by
  refine ⟨_, _, rfl, rfl, sameAnswer_onContext rs hl c fun _ hxy => ?_⟩
  have hfield (f : CtxField) := sameAnswer_reads rs hl (hxy.content_eq f)
  cases CtxField.ofSel sel with
  | none => exact sameAnswer_fails rs hl _ _ _ _
  | some f =>
    cases f with
    | kind => exact hfield .kind
    | _ => exact sameAnswer_ifBound rs hl c hxy (hfield _)

theorem sameAnswer_tableRead (c k : BitVec 8) : ∃ s' t', execTableRead c k s = .next s' ∧
    execTableRead c k (s.withCtx l rs) = .next t' ∧ SameAnswer P s.responses rs s' t' := by
  refine ⟨_, _, rfl, rfl, sameAnswer_onBound rs hl c fun _ hxy => ?_⟩
  rw [hxy.eq_but_reg]
  exact .ite (sameAnswer_fails rs hl _ _ _ _) (sameAnswer_reads rs hl rfl)

theorem sameAnswer_updateBlock (c : BitVec 8) (off len : Word) : ∃ s' t', execUpdateBlock c off len s = .next s' ∧
    execUpdateBlock c off len (s.withCtx l rs) = .next t' ∧ SameAnswer P s.responses rs s' t' := by
  refine ⟨_, _, rfl, rfl, sameAnswer_onBound rs hl c fun hc hxy => ?_⟩
  refine .ite (sameAnswer_fails rs hl _ _ _ _) ?_
  obtain ⟨bytes, d, hrun⟩ := feedRun_withCtx c.toNat len.toNat off.toNat s
  have hs : feedRun c.toNat len.toNat off.toNat s = _ := hrun s.ctx s.responses hc
  rw [hs, hrun l rs (hl.length_eq ▸ hc)]
  exact sameAnswer_setCtx rs hl { s with draws := d } rfl c.toNat (hxy.run bytes)

include hP

theorem sameAnswer_bwBind (c : BitVec 8) : ∃ s' t', execBwBind c s = .next s' ∧
    execBwBind c (s.withCtx l rs) = .next t' ∧ SameAnswer P s.responses rs s' t' := by
  refine ⟨_, _, rfl, rfl, sameAnswer_onContext rs hl c fun _ _ => ?_⟩
  exact .ite (sameAnswer_setCtx rs hl s rfl _ (hP _)) (sameAnswer_fails rs hl _ _ _ _)

theorem sameAnswer_tbBind (c : BitVec 8) : ∃ s' t', execTbBind c s = .next s' ∧
    execTbBind c (s.withCtx l rs) = .next t' ∧ SameAnswer P s.responses rs s' t' := by
  refine ⟨_, _, rfl, rfl, sameAnswer_onContext rs hl c fun _ _ => ?_⟩
  refine .ite ?_ (sameAnswer_fails rs hl _ _ _ _)
  simp only [State.withCtx_aps, State.withCtx_slots]
  cases lookup s.slots s.aps with
  | hit k => exact sameAnswer_setCtx rs hl { s with cacheHits := s.cacheHits + 1#64 } rfl _ (hP _)
  | miss k =>
    exact sameAnswer_setCtx rs hl
      { s with slots := s.slots.set k (builtSlot s.aps), cacheBuilds := s.cacheBuilds + 1#64 } rfl _ (hP _)
  | full => exact sameAnswer_fails rs hl _ _ _ _

theorem sameAnswer_reset (c : BitVec 8) : ∃ s' t', execReset c s = .next s' ∧
    execReset c (s.withCtx l rs) = .next t' ∧ SameAnswer P s.responses rs s' t' := by
  refine ⟨_, _, rfl, rfl, sameAnswer_onBound rs hl c fun _ hxy => ?_⟩
  rw [hxy.eq_but_reg]
  exact sameAnswer_setCtx rs hl s rfl _ (hP _)

/-- Every command does the same in two states whose contexts are alike, and adds the same response. -/
theorem exec_sameAnswer (i : Instr) : ∃ s' t', exec i s = .next s' ∧ exec i (s.withCtx l rs) = .next t' ∧
    SameAnswer P s.responses rs s' t' := by
  cases i with
  | regRead sel => exact sameAnswer_regRead rs hl sel
  | regWrite sel v => exact sameAnswer_regWrite rs hl sel v
  | psetCommit => exact sameAnswer_psetCommit rs hl
  | selfTest => exact sameAnswer_selfTest rs hl
  | reflect w v => exact ⟨_, _, rfl, rfl, sameAnswer_reads rs hl rfl⟩
  | bwBind c => exact sameAnswer_bwBind rs hP hl c
  | tbBind c => exact sameAnswer_tbBind rs hP hl c
  | unbind c =>
    exact ⟨_, _, rfl, rfl, sameAnswer_onContext rs hl c fun _ _ => sameAnswer_setCtx rs hl s rfl _ (hP _)⟩
  | reset c => exact sameAnswer_reset rs hP hl c
  | updateByte c b =>
    refine ⟨_, _, rfl, rfl, sameAnswer_onBound rs hl c fun _ hxy => ?_⟩
    have hrun := hxy.run [b]
    rw [runReg_singleton, runReg_singleton] at hrun
    exact sameAnswer_setCtx rs hl s rfl _ hrun
  | updateBlock c off len => exact sameAnswer_updateBlock rs hl c off len
  | value c =>
    exact ⟨_, _, rfl, rfl, sameAnswer_onBound rs hl c fun _ hxy => sameAnswer_reads rs hl hxy.value_eq⟩
  | ctxRead c sel => exact sameAnswer_ctxRead rs hl c sel
  | tableRead c k => exact sameAnswer_tableRead rs hl c k

end

/-! ### Responses -/

/-- Settles O41: two states with the same contexts are alike for equality, whatever their responses. -/
theorem responsesAreNeverRead : Obligations.ResponsesAreNeverRead := by
  intro i s rs
  have hl : List.Forall₂ (Context.Alike Eq s) s.ctx s.ctx :=
    List.forall₂_same.2 fun x _ => Context.Alike.refl (fun _ => rfl) s x
  obtain ⟨s', t', hs, ht, r, l, hresp, hctx, rfl⟩ := exec_sameAnswer rs (fun _ => rfl) hl i
  rw [List.forall₂_eq_eq_eq] at hctx
  subst hctx
  exact ⟨s', r, hs, hresp, ht⟩

end Sys2Proof.Machine

/-! The bits of `REG` at `width` and above (10_state R39, R48): the datapath of either engine computes the bits below
the width from the bits below the width, or reads the register whole where the invariant keeps it within its width. -/

namespace Sys2Proof.Machine

/-! ### Registers that agree below a width -/

/-- The bits below `w` are the same. -/
def SameBelow (w : Nat) (a b : Word) : Prop := ∀ i, i < w → a.getLsbD i = b.getLsbD i

theorem sameBelow_iff (w : Nat) (a b : Word) : SameBelow w a b ↔ a.toNat % 2 ^ w = b.toNat % 2 ^ w := by
  constructor
  · intro h
    apply Nat.eq_of_testBit_eq
    intro i
    rw [Nat.testBit_mod_two_pow, Nat.testBit_mod_two_pow, BitVec.testBit_toNat, BitVec.testBit_toNat]
    by_cases hi : i < w
    · rw [h i hi]
    · simp [hi]
  · intro h i hi
    have hbit := congrArg (fun n => n.testBit i) h
    simpa [Nat.testBit_mod_two_pow, BitVec.testBit_toNat, hi] using hbit

/-- A network that reads the bits below the width gives the same word (41_bit_reflector R120). -/
theorem SameBelow.reverse_eq {w : Nat} (hw : w ≤ 64) {a b : Word} (h : SameBelow w a b) :
    reverse a w = reverse b w := by
  apply BitVec.eq_of_getLsbD_eq
  intro i _
  rw [getLsbD_reverse a w i hw, getLsbD_reverse b w i hw]
  by_cases hi : i < w
  · rw [h (w - 1 - i) (by omega)]
  · simp [hi]

/-- The last two operations of either engine's value drop the bits above the width (42_bitwise_engine R132,
43_table_engine R155). -/
theorem SameBelow.masked_eq {p : ParamSet} (hp : p.Valid) {a b : Word} (h : SameBelow p.width.toNat a b) (x : Word) :
    (a ^^^ x) &&& p.mask = (b ^^^ x) &&& p.mask := by
  apply BitVec.eq_of_getLsbD_eq
  intro i _
  simp only [BitVec.getLsbD_and, BitVec.getLsbD_xor, hp.getLsbD_mask]
  by_cases hi : i < p.width.toNat
  · rw [h i hi]
  · simp [hi]

/-- The value of either engine, which reverses the register or not, reads it below the width alone. -/
theorem SameBelow.value_eq {p : ParamSet} (hp : p.Valid) {a b : Word} (h : SameBelow p.width.toNat a b) (c : Prop)
    [Decidable c] (x : Word) :
    ((if c then reverse a p.width.toNat else a) ^^^ x) &&& p.mask =
      ((if c then reverse b p.width.toNat else b) ^^^ x) &&& p.mask := by
  split
  · rw [h.reverse_eq hp.width_le]
  · exact h.masked_eq hp x

/-! ### The bitwise engine -/

theorem sameBelow_bwBit {p : ParamSet} (hp : p.Valid) {a b : Word} (h : SameBelow p.width.toNat a b) (bit : Bool) :
    SameBelow p.width.toNat (bwBit p a bit) (bwBit p b bit) := by
  have hpos := hp.width_pos
  have htop : a.getLsbD (p.width.toNat - 1) = b.getLsbD (p.width.toNat - 1) := h _ (by omega)
  intro i hi
  simp only [bwBit_eq hp, htop, BitVec.getLsbD_xor, BitVec.getLsbD_shiftLeft, h (i - 1) (by omega)]

theorem sameBelow_bwStep {p : ParamSet} (hp : p.Valid) {a b : Word} (h : SameBelow p.width.toNat a b) (byte : Byte) :
    SameBelow p.width.toNat (bwStep p a byte) (bwStep p b byte) := by
  unfold bwStep
  exact List.foldl_rel (r := SameBelow p.width.toNat) h fun _ _ _ _ hr => sameBelow_bwBit hp hr _

theorem sameBelow_bwRun {p : ParamSet} (hp : p.Valid) {a b : Word} (h : SameBelow p.width.toNat a b)
    (bytes : List Byte) : SameBelow p.width.toNat (bwRun p a bytes) (bwRun p b bytes) :=
  List.foldl_rel (r := SameBelow p.width.toNat) h fun byte _ _ _ hr => sameBelow_bwStep hp hr byte

/-! ### The table engine, where its step does not read the register whole -/

/-- A table is read at the low eight bits. -/
theorem SameBelow.tableAt_eq {x y : Word} (h : SameBelow 8 x y) (t : List Word) : tableAt t x = tableAt t y := by
  have hmod : (x &&& maskOf 8).toNat = (y &&& maskOf 8).toNat := by
    rw [toNat_and_maskOf x 8 (by decide), toNat_and_maskOf y 8 (by decide)]
    exact (sameBelow_iff 8 x y).1 h
  exact congrArg (fun i => t.getD i 0#64) hmod

/-- The step of a set that is not reflected and at least eight bits wide: the index is the register's top eight bits
below the width (43_table_engine R154). -/
theorem sameBelow_tbStep {p : ParamSet} (hrefin : p.refin = false) (hw : 8 ≤ p.width.toNat) {a b : Word}
    (h : SameBelow p.width.toNat a b) (t : List Word) (byte : Byte) :
    SameBelow p.width.toNat (tbStep p t a byte) (tbStep p t b byte) := by
  have hindex : SameBelow 8 (byte.setWidth 64 ^^^ (a >>> (p.width.toNat - 8)))
      (byte.setWidth 64 ^^^ (b >>> (p.width.toNat - 8))) := by
    intro i hi
    simp only [BitVec.getLsbD_xor, BitVec.getLsbD_ushiftRight, h (p.width.toNat - 8 + i) (by omega)]
  intro i hi
  simp only [tbStep, hrefin, Bool.false_eq_true, if_false, Nat.not_lt.2 hw, hindex.tableAt_eq,
    BitVec.getLsbD_xor, BitVec.getLsbD_shiftLeft, h (i - 8) (by omega)]

theorem sameBelow_tbRun {p : ParamSet} (hrefin : p.refin = false) (hw : 8 ≤ p.width.toNat) {a b : Word}
    (h : SameBelow p.width.toNat a b) (t : List Word) (bytes : List Byte) :
    SameBelow p.width.toNat (tbRun p t a bytes) (tbRun p t b bytes) :=
  List.foldl_rel (r := SameBelow p.width.toNat) h fun byte _ _ _ hr => sameBelow_tbStep hrefin hw hr t byte

/-! ### Contexts -/

theorem Context.AgreeBelow.refl (x : Context) : x.AgreeBelow x := ⟨rfl, rfl, rfl, rfl, rfl⟩

theorem Context.AgreeBelow.eq_but_reg {x y : Context} (h : x.AgreeBelow y) : y = { x with reg := y.reg } := by
  obtain ⟨hkind, hps, hstart, hslot, -⟩ := h
  rw [hkind, hps, hstart, hslot]

theorem Context.AgreeBelow.sameBelow {x y : Context} (h : x.AgreeBelow y) :
    SameBelow x.ps.width.toNat x.reg y.reg := by
  obtain ⟨-, hps, -, -, hreg⟩ := h
  exact (sameBelow_iff _ _ _).2 (by rw [hreg, hps])

theorem Context.AgreeBelow.setReg {x y : Context} (h : x.AgreeBelow y) {a b : Word}
    (hab : SameBelow x.ps.width.toNat a b) : Context.AgreeBelow { x with reg := a } { y with reg := b } := by
  obtain ⟨hkind, hps, hstart, hslot, -⟩ := h
  exact ⟨hkind, hps, hstart, hslot, hps ▸ (sameBelow_iff _ _ _).1 hab⟩

/-! ### Contexts that agree below the width are alike -/

theorem Context.AgreeBelow.alike_of_reg_eq {x y : Context} (h : x.AgreeBelow y) (s : State) (e : x.reg = y.reg) :
    x.Alike Context.AgreeBelow s y := by
  have hxy : y = x := h.eq_but_reg.trans (by rw [← e])
  exact hxy ▸ Context.Alike.refl Context.AgreeBelow.refl s y

theorem Context.AgreeBelow.ctxValue_eq {x y : Context} (h : x.AgreeBelow y) (hp : x.ps.Valid) :
    ctxValue y = ctxValue x := by
  have hsame := h.sameBelow
  rw [h.eq_but_reg]
  unfold ctxValue
  cases x.kind with
  | none => rfl
  | bitwise => exact (hsame.value_eq hp _ _).symm
  | table => exact (hsame.value_eq hp _ _).symm

theorem Context.AgreeBelow.alike_of_run {x y : Context} (h : x.AgreeBelow y) (s : State) (hp : x.ps.Valid)
    (hrun : ∀ bytes, SameBelow x.ps.width.toNat (runReg s x bytes) (runReg s y bytes)) :
    x.Alike Context.AgreeBelow s y :=
  ⟨h.eq_but_reg, h.ctxValue_eq hp, h, fun bytes => h.setReg (hrun bytes)⟩

theorem Context.AgreeBelow.run_bitwise {x y : Context} (h : x.AgreeBelow y) (s : State) (hp : x.ps.Valid)
    (hk : x.kind = .bitwise) (bytes : List Byte) :
    SameBelow x.ps.width.toNat (runReg s x bytes) (runReg s y bytes) := by
  rw [h.eq_but_reg]
  simp only [runReg, hk]
  exact sameBelow_bwRun hp h.sameBelow bytes

theorem Context.AgreeBelow.run_wide_table {x y : Context} (h : x.AgreeBelow y) (s : State) (hk : x.kind = .table)
    (hrefin : x.ps.refin = false) (hw : 8 ≤ x.ps.width.toNat) (bytes : List Byte) :
    SameBelow x.ps.width.toNat (runReg s x bytes) (runReg s y bytes) := by
  rw [h.eq_but_reg]
  simp only [runReg, hk]
  exact sameBelow_tbRun hrefin hw h.sameBelow _ bytes

/-- Registers that agree below the width and fit it are equal: the case of a table step that reads the whole register
(43_table_engine R154). -/
theorem SameBelow.eq_of_fits {w : Nat} {a b : Word} (h : SameBelow w a b) (ha : a.toNat < 2 ^ w)
    (hb : b.toNat < 2 ^ w) : a = b := by
  apply BitVec.eq_of_toNat_eq
  rw [← Nat.mod_eq_of_lt ha, ← Nat.mod_eq_of_lt hb]
  exact (sameBelow_iff w a b).1 h

/-- A good context cannot be told from another that agrees with it below the width: both are unbound, or neither engine
reads the bits above, or the table engine reads the whole register and the two hold the same (10_state R39). -/
theorem Context.AgreeBelow.alike {s : State} {x y : Context} (h : x.AgreeBelow y) (hx : x.Ok s.slots)
    (hy : y.Ok s.slots) : x.Alike Context.AgreeBelow s y := by
  obtain ⟨hkind, hps, -⟩ := id h
  unfold Context.Ok at hx hy
  rw [← hkind] at hy
  cases hk : x.kind with
  | none =>
    simp only [hk] at hx hy
    exact h.alike_of_reg_eq s (by rw [hx, hy])
  | bitwise =>
    simp only [hk] at hx
    exact h.alike_of_run s hx.1 (h.run_bitwise s hx.1 hk)
  | table =>
    simp only [hk] at hx hy
    obtain ⟨hp, -, hfits, -⟩ := hx
    obtain ⟨-, -, hfits', -⟩ := hy
    by_cases hwhole : x.ps.refin = true ∨ x.ps.width.toNat < 8
    · have hyreg : y.reg.toNat < 2 ^ x.ps.width.toNat := by
        rw [hps] at hwhole ⊢
        exact hfits' hwhole
      exact h.alike_of_reg_eq s (h.sameBelow.eq_of_fits (hfits hwhole) hyreg)
    · obtain ⟨hrefin, hw⟩ := not_or.1 hwhole
      exact h.alike_of_run s hp (h.run_wide_table s hk (Bool.eq_false_iff.2 hrefin) (Nat.not_lt.1 hw))

/-- The contexts of two states that meet the invariant and agree below the widths are alike. -/
theorem State.AgreeBelow.alike {s t : State} (hs : s.BlockInv) (ht : t.BlockInv) (h : s.AgreeBelow t) :
    List.Forall₂ (Context.Alike Context.AgreeBelow s) s.ctx t.ctx := by
  obtain ⟨hrest, hctx⟩ := h
  have hslots : t.slots = s.slots := by rw [hrest]
  refine List.forall₂_of_length_eq_of_get hctx.length_eq fun i hi hi' => ?_
  have hx : (s.ctx.get ⟨i, hi⟩).Ok s.slots := hs.ctx_ok _ (List.get_mem _ _)
  have hy : (t.ctx.get ⟨i, hi'⟩).Ok s.slots := hslots ▸ ht.ctx_ok _ (List.get_mem _ _)
  exact (hctx.get hi hi').alike hx hy

/-- Settles O42: contexts that agree below the widths are alike, so every command does the same in both states. -/
theorem highRegisterBitsUnobservable : Obligations.HighRegisterBitsUnobservable := by
  intro i s t hs ht h
  have hrest : t = s.withCtx t.ctx s.responses := h.1
  obtain ⟨s', t', hexec, hexec', r, l, hresp, hctx, rfl⟩ :=
    exec_sameAnswer s.responses Context.AgreeBelow.refl (h.alike hs ht) i
  rw [← hrest, ← hresp] at hexec'
  exact ⟨s', s'.withCtx l s'.responses, hexec, hexec', rfl, rfl, hctx⟩

end Sys2Proof.Machine

/-! The input memory between and during commands (20_memory R61, R67, R68): what a host's write does to it, what a
command leaves of it, and which bytes a run that other agents race reads. -/

namespace Sys2Proof.Machine

/-! ### Commands leave the input memory -/

/-- No command writes the input memory, the number of contexts, or what the host still has to do (20_memory R61,
70_reset R242). -/
theorem Effect.imem_nctx_pending {i : Instr} {s t : State} (h : Effect i s t) :
    t.imem = s.imem ∧ t.ctx.length = s.ctx.length ∧ t.pending = s.pending := by
  cases h with
  | bwBinds | tbHits | tbBuilds | unbinds | resets | feedsByte | feedsRun => exact ⟨rfl, List.length_set, rfl⟩
  | failed | reads | stages | clears | commits => exact ⟨rfl, rfl, rfl⟩

/-- Settles O39: none of the effects of a command writes any of these fields. -/
theorem noCommandWritesInputMemory : Obligations.NoCommandWritesInputMemory := by
  intro i s t h
  have he := effect_of_exec h
  obtain ⟨himem, hnctx, hpending⟩ := he.imem_nctx_pending
  obtain ⟨hbytes, hracing⟩ := he.imemBytes_racing
  exact ⟨fun a => by rw [himem], himem, hbytes, hnctx, he.slots_length_keepsValid.1, hpending, hracing⟩

/-! ### One step, by the host's next action -/

theorem step_of_idle {s : State} (h : s.pending = []) : step s = .next s := by
  simp only [step, performNext, h]

theorem step_of_writeInput {s : State} {a : Nat} {b : Byte} {rest : List HostAction}
    (h : s.pending = .writeInput a b :: rest) : step s = hostWrite a b { s with pending := rest } := by
  simp only [step, performNext, h]

/-- A step on a word that decodes, other agents writing inside the input memory: the command between its start and its
end (30_encoding R88, 20_memory R67). -/
theorem step_of_issue {s : State} {t : Transaction} {ws : List Host.Cell} {rest : List HostAction} {i : Instr}
    (h : s.pending = .issue t ws :: rest) (hi : decode t = .ok i) (hws : ∀ w ∈ ws, w.1 < s.imemBytes) :
    step s = finishCommand (exec i (beginCommand ws rest s)) := by
  simp only [step, performNext, h, runCommand, (s.outsideInput_eq_none ws).2 hws, runDecoded, hi]

/-! ### A host's write -/

theorem hostWrite_of_lt {s : State} {a : Nat} (b : Byte) (h : a < s.imemBytes) :
    hostWrite a b s = .next { s with imem := s.imem.write a b } := if_pos h

theorem hostWrite_of_ge {s : State} {a : Nat} (b : Byte) (h : s.imemBytes ≤ a) :
    hostWrite a b s = .fault (.noSuchInputByte a) := if_neg (Nat.not_lt.2 h)

/-- A host's write of an input byte takes one step (70_reset R242). -/
theorem step_of_writeInput_of_lt {s : State} {a : Nat} {b : Byte} {rest : List HostAction}
    (h : s.pending = .writeInput a b :: rest) (ha : a < s.imemBytes) :
    step s = .next { s with pending := rest, imem := s.imem.write a b } :=
  (step_of_writeInput h).trans (hostWrite_of_lt b ha)

/-- Settles O8: the three clauses are the step on no action and on a write at and beyond the input memory's size. -/
theorem hostActionsOnInputMemory : Obligations.HostActionsOnInputMemory := by
  refine ⟨fun s => step_of_idle, fun s a b rest h ha hwf => ?_, fun s a b rest h ha => ?_⟩
  · exact ⟨_, step_of_writeInput_of_lt h ha, rfl, Memory.wf_write s.imem a b hwf, Memory.read_write_same s.imem a b hwf,
      fun c hc => Memory.read_write_other s.imem a c b hc⟩
  · exact (step_of_writeInput h).trans (hostWrite_of_ge b ha)

/-! ### A run that other agents race -/

theorem Memory.read_write {m : Memory} (h : Memory.wf m = true) (a c : Nat) (b : Byte) :
    (m.write a b).read c = if c = a then b else m.read c := by
  split
  next hc => rw [hc, Memory.read_write_same m a b h]
  next hc => exact Memory.read_write_other m a c b hc

theorem decode_encode_updateBlock (c : BitVec 8) (off len : Word) :
    decode (encode (.updateBlock c off len)) = .ok (.updateBlock c off len) := by
  have hrow : decode (encode (.updateBlock c off len)) = .ok (Opcode.updateBlock.operands _) :=
    decode_cmdWord .updateBlock c 0#8 off len nofun (fun _ => rfl) nofun
  rw [hrow, Opcode.operands, ctxField_cmdWord]

/-- `UPDATE_BLOCK` on a bound context, for a run inside the input memory: each byte it feeds is the memory's, or one
that another agent writes there meanwhile (44_context_commands R185, 20_memory R68). -/
theorem exec_updateBlock_of_bound {s : State} {c : BitVec 8} {off len : Word} {x : Context}
    (hx : s.ctx[c.toNat]? = some x) (hk : x.kind ≠ .none) (hrange : off.toNat + len.toNat ≤ s.imemBytes) :
    ∃ (bytes : List Byte) (d : Nat), bytes.length = len.toNat ∧
      (∀ (k : Nat) (y : Byte), bytes[k]? = some y →
        y = s.imem.read (off.toNat + k) ∨ (off.toNat + k, y) ∈ s.racing) ∧
      exec (.updateBlock c off len) s =
        .next (State.answer { s with ctx := s.ctx.set c.toNat { x with reg := runReg s x bytes }, draws := d }
          0#8 0#64 0#64) := by
  have hc := s.lt_of_getElem? c.toNat x hx
  have hat := s.ctxAt_of_getElem? c.toNat x hx
  obtain ⟨bytes, d, hlen, hbytes, hrun⟩ := feedRun_spec c.toNat len.toNat off.toNat s hc
  rw [hat] at hrun
  refine ⟨bytes, d, hlen, fun k y hy => ?_, ?_⟩
  · obtain ⟨hlt, rfl⟩ := List.getElem?_eq_some_iff.1 hy
    exact hbytes k hlt
  · rw [exec, execUpdateBlock, onBound_of_bound c s _ hc (hat ▸ hk), if_neg (Nat.not_lt.2 hrange), hrun,
      respondOk_eq_answer]

/-- Settles O23: the command starts from the memory that the host's write left, and a byte of its run is that
memory's or one of `ws`. -/
theorem hostWriteIsSeenRacedByteIsADraw : Obligations.HostWriteIsSeenRacedByteIsADraw := by
  intro s a b c off len ws rest x hp hx hk ha hws hrange hwf
  have hwrite := step_of_writeInput_of_lt hp ha
  set s1 : State :=
    { s with pending := .issue (encode (.updateBlock c off len)) ws :: rest, imem := s.imem.write a b }
  have hissue : step s1 = finishCommand (exec (.updateBlock c off len) (beginCommand ws rest s1)) :=
    step_of_issue rfl (decode_encode_updateBlock c off len) hws
  obtain ⟨bytes, d, hlen, hbytes, hexec⟩ :=
    exec_updateBlock_of_bound (s := beginCommand ws rest s1) hx hk hrange
  refine ⟨s1, bytes, d, hwrite, hlen, fun k y hy => ?_, ?_⟩
  · rw [← Memory.read_write hwf]
    exact hbytes k y hy
  · rw [hissue, hexec]
    rfl

end Sys2Proof.Machine

/-! Encoding (30_encoding R81 to R88): the words that each row of the opcode table admits, in the decoder's fields, as
match and mask and as numbers; the encoder and the decoder undo each other. -/

namespace Sys2Proof

/-! ### The words that a row admits -/

/-- What 30_encoding R88's checks ask of a command word for row `o` of the opcode table. -/
structure Opcode.Admits (o : Opcode) (cmd : BitVec 32) : Prop where
  op : opField cmd = o.code
  rsv : rsvField cmd = 0#8
  ctx : o.takesCtx = false → ctxField cmd = 0#8
  imm : o.takesImm = false → immField cmd = 0#8
  width : o = .reflect → (immField cmd).extractLsb' 6 2 = 0#2

theorem Opcode.Admits.cmdWord_eq {o : Opcode} {cmd : BitVec 32} (h : o.Admits cmd) :
    cmdWord o.code (ctxField cmd) (immField cmd) = cmd := by
  rw [← h.op, cmdWord_fields cmd h.rsv]

theorem Opcode.Admits.decode_eq {o : Opcode} {t : Transaction} (h : o.Admits t.cmd) :
    decode t = .ok (o.operands t) := by
  have hdec := decode_cmdWord o (ctxField t.cmd) (immField t.cmd) t.data0 t.data1 h.ctx h.imm h.width
  rwa [h.cmdWord_eq] at hdec

/-- A transaction decodes exactly when a row admits its word, and then to that row's command (30_encoding R88). -/
theorem decode_eq_ok_iff {t : Transaction} {i : Instr} :
    decode t = .ok i ↔ ∃ o : Opcode, o.Admits t.cmd ∧ i = o.operands t := by
  constructor
  · intro h
    obtain ⟨o, hcmd, hi, hctx, himm, hwidth⟩ := decode_eq_ok h
    have hop : opField t.cmd = o.code := by rw [hcmd, opField_cmdWord]
    have hrsv : rsvField t.cmd = 0#8 := by rw [hcmd, rsvField_cmdWord]
    exact ⟨o, ⟨hop, hrsv, hctx, himm, hwidth⟩, hi⟩
  · rintro ⟨o, h, rfl⟩
    exact h.decode_eq

theorem decodes_iff_admits (t : Transaction) : (∃ i, decode t = .ok i) ↔ ∃ o : Opcode, o.Admits t.cmd := by
  simp only [decode_eq_ok_iff]
  exact ⟨fun ⟨_, o, h, _⟩ => ⟨o, h⟩, fun ⟨o, h⟩ => ⟨_, o, h, rfl⟩⟩

/-! ### Decoding what the encoder writes -/

/-- The encoder's word has the row's opcode and 0 in the fields that the row does not use (30_encoding R81, R85). -/
theorem opcodeField_statement (i : Instr) : Laws.OpcodeField.Statement i := by
  cases i with
  | regRead sel => exact Laws.OpcodeField.regRead sel
  | regWrite sel v => exact Laws.OpcodeField.regWrite sel v
  | psetCommit => exact Laws.OpcodeField.psetCommit
  | selfTest => exact Laws.OpcodeField.selfTest
  | reflect w v => exact Laws.OpcodeField.reflect w v
  | bwBind c => exact Laws.OpcodeField.bwBind c
  | tbBind c => exact Laws.OpcodeField.tbBind c
  | unbind c => exact Laws.OpcodeField.unbind c
  | reset c => exact Laws.OpcodeField.reset c
  | updateByte c b => exact Laws.OpcodeField.updateByte c b
  | updateBlock c off len => exact Laws.OpcodeField.updateBlock c off len
  | value c => exact Laws.OpcodeField.value c
  | ctxRead c sel => exact Laws.OpcodeField.ctxRead c sel
  | tableRead c k => exact Laws.OpcodeField.tableRead c k

/-- An immediate's bits 7:6 are 0 exactly when it is below 64 (30_encoding R82). -/
theorem extractLsb'_six_two_eq_zero_iff (imm : BitVec 8) : imm.extractLsb' 6 2 = 0#2 ↔ imm.toNat < 64 := by
  have hlt := imm.isLt
  rw [← BitVec.toNat_inj, BitVec.extractLsb'_toNat, Nat.shiftRight_eq_div_pow]
  simp only [BitVec.toNat_ofNat]
  omega

/-- The width field spells `width - 1` for a true width (30_encoding R83, R89). -/
theorem reflectWidth_of_toNat_lt {imm : BitVec 8} (h : imm.toNat < 64) : reflectWidth imm = imm.toNat + 1 := by
  rw [reflectWidth, BitVec.extractLsb'_toNat, Nat.shiftRight_zero, Nat.mod_eq_of_lt h]

theorem wf_reflect_iff (w : Nat) (v : Word) : (Instr.reflect w v).wf = true ↔ 1 ≤ w ∧ w ≤ 64 := by
  simp only [Instr.wf, Bool.and_eq_true, decide_eq_true_eq]

theorem toNat_ofNat_width {w : Nat} (h : 1 ≤ w ∧ w ≤ 64) : (BitVec.ofNat 8 (w - 1)).toNat = w - 1 := by
  rw [BitVec.toNat_ofNat]
  omega

theorem encode_admits {i : Instr} (h : i.wf = true) : i.opcode.Admits (encode i).cmd := by
  obtain ⟨hop, hrsv, hctx, himm⟩ := opcodeField_statement i
  refine ⟨hop, hrsv, hctx, himm, fun hrow => ?_⟩
  cases i with
  | reflect w v =>
    rw [wf_reflect_iff] at h
    rw [encode, immField_cmdWord, extractLsb'_six_two_eq_zero_iff, toNat_ofNat_width h]
    omega
  | _ => cases hrow

/-- The fields and data words of the encoder's transaction are the command's operands (30_encoding R83). -/
theorem operands_encode {i : Instr} (h : i.wf = true) : i.opcode.operands (encode i) = i := by
  cases i with
  | reflect w v =>
    rw [wf_reflect_iff] at h
    have hw := toNat_ofNat_width h
    rw [Instr.opcode, Opcode.operands, encode, immField_cmdWord, reflectWidth_of_toNat_lt (by omega), hw,
      Nat.sub_add_cancel h.1]
  | _ => simp only [Instr.opcode, Opcode.operands, encode, ctxField_cmdWord, immField_cmdWord]

/-- Settles O1: the encoder's word is one that the command's row admits, and its operands are the command's. -/
theorem decodeOfEncodeIsIdentity : Obligations.DecodeOfEncodeIsIdentity := by
  intro i h
  rw [(encode_admits h).decode_eq, operands_encode h]

/-! ### Encoding what the decoder reads -/

/-- The width field of an admitted `REFLECT` word is what the encoder writes for the width read (30_encoding R83). -/
theorem reflectWidth_sub_one {imm : BitVec 8} (h : imm.toNat < 64) : BitVec.ofNat 8 (reflectWidth imm - 1) = imm := by
  rw [reflectWidth_of_toNat_lt h, Nat.add_sub_cancel, BitVec.ofNat_toNat, BitVec.setWidth_eq]

theorem Opcode.Admits.encode_operands_cmd {o : Opcode} {t : Transaction} (h : o.Admits t.cmd) :
    (encode (o.operands t)).cmd = t.cmd := by
  have hword := h.cmdWord_eq
  obtain ⟨-, -, hctx, himm, hwidth⟩ := h
  cases o with
  | regRead | regWrite => rwa [hctx rfl] at hword
  | psetCommit | selfTest => rwa [hctx rfl, himm rfl] at hword
  | reflect =>
    have hlt := (extractLsb'_six_two_eq_zero_iff _).1 (hwidth rfl)
    rw [Opcode.operands, encode, reflectWidth_sub_one hlt]
    rwa [hctx rfl] at hword
  | bwBind | tbBind | unbind | reset | updateBlock | value => rwa [himm rfl] at hword
  | updateByte | ctxRead | tableRead => exact hword

theorem Opcode.operands_wf (o : Opcode) (t : Transaction) : (o.operands t).wf = true := by
  cases o with
  | reflect => exact (wf_reflect_iff _ _).2 ⟨Nat.le_add_left 1 _, BitVec.isLt _⟩
  | _ => rfl

/-- Settles O2: the row that admits the word gives the command, and each clause is read off that row's operands. -/
theorem decodedCommandHasThatWord : Obligations.DecodedCommandHasThatWord := by
  intro t i hdec
  obtain ⟨o, h, rfl⟩ := decode_eq_ok_iff.1 hdec
  refine ⟨o.operands_wf t, h.encode_operands_cmd, fun sel v hi => ?_, fun w v hi => ?_, fun c off len hi => ?_⟩ <;>
    cases o <;> cases hi
  · rfl
  · rfl
  · exact ⟨rfl, rfl⟩

/-! ### Rows as match and mask -/

/-- The mask of a row of opcode_table.json: the opcode and reserved bytes, the context and immediate bytes that the row
does not take, and bits 7:6 of `REFLECT`'s immediate. -/
def Opcode.mask : Opcode → BitVec 32
  | .regRead | .regWrite => 0xFF00FFFF#32
  | .psetCommit | .selfTest => 0xFFFFFFFF#32
  | .reflect => 0xFFC0FFFF#32
  | .bwBind | .tbBind | .unbind | .reset | .updateBlock | .value => 0xFFFF00FF#32
  | .updateByte | .ctxRead | .tableRead => 0xFF0000FF#32

theorem toNat_opField (cmd : BitVec 32) : (opField cmd).toNat = cmd.toNat % 256 := by
  rw [opField, BitVec.extractLsb'_toNat, Nat.shiftRight_zero]

theorem toNat_ctxField (cmd : BitVec 32) : (ctxField cmd).toNat = cmd.toNat / 256 % 256 := by
  rw [ctxField, BitVec.extractLsb'_toNat, Nat.shiftRight_eq_div_pow]

theorem toNat_immField (cmd : BitVec 32) : (immField cmd).toNat = cmd.toNat / 65536 % 256 := by
  rw [immField, BitVec.extractLsb'_toNat, Nat.shiftRight_eq_div_pow]

theorem toNat_rsvField (cmd : BitVec 32) : (rsvField cmd).toNat = cmd.toNat / 16777216 := by
  have hlt := cmd.isLt
  rw [rsvField, BitVec.extractLsb'_toNat, Nat.shiftRight_eq_div_pow]
  omega

/-- Two words are equal when their four bytes are (30_encoding R81). -/
theorem cmd_eq_iff (cmd cmd' : BitVec 32) :
    cmd = cmd' ↔ opField cmd = opField cmd' ∧ ctxField cmd = ctxField cmd' ∧ immField cmd = immField cmd' ∧
      rsvField cmd = rsvField cmd' := by
  simp only [← BitVec.toNat_inj, toNat_opField, toNat_ctxField, toNat_immField, toNat_rsvField]
  omega

theorem and_bits_six_seven_eq_zero_iff (imm : BitVec 8) : imm &&& 0xC0#8 = 0#8 ↔ imm.extractLsb' 6 2 = 0#2 := by
  revert imm
  decide

theorem opField_and (a b : BitVec 32) : opField (a &&& b) = opField a &&& opField b := BitVec.extractLsb'_and
theorem ctxField_and (a b : BitVec 32) : ctxField (a &&& b) = ctxField a &&& ctxField b := BitVec.extractLsb'_and
theorem immField_and (a b : BitVec 32) : immField (a &&& b) = immField a &&& immField b := BitVec.extractLsb'_and
theorem rsvField_and (a b : BitVec 32) : rsvField (a &&& b) = rsvField a &&& rsvField b := BitVec.extractLsb'_and

theorem Opcode.mask_fields (o : Opcode) :
    opField o.mask = BitVec.allOnes 8 ∧ rsvField o.mask = BitVec.allOnes 8 ∧
      ctxField o.mask = (if o.takesCtx then 0#8 else BitVec.allOnes 8) ∧
      immField o.mask = (if o = .reflect then 0xC0#8 else if o.takesImm then 0#8 else BitVec.allOnes 8) := by
  cases o <;> decide

theorem Opcode.match_fields (o : Opcode) :
    opField (o.code.setWidth 32) = o.code ∧ rsvField (o.code.setWidth 32) = 0#8 ∧
      ctxField (o.code.setWidth 32) = 0#8 ∧ immField (o.code.setWidth 32) = 0#8 := by
  cases o <;> decide

/-- A byte that a row does not take is masked whole, one that it takes not at all (30_encoding R85). -/
theorem and_mask_byte_eq_zero_iff (taken : Bool) (v : BitVec 8) :
    v &&& (if taken then 0#8 else BitVec.allOnes 8) = 0#8 ↔ (taken = false → v = 0#8) := by
  cases taken with
  | false => rw [if_neg Bool.false_ne_true, BitVec.and_allOnes, forall_prop_of_true rfl]
  | true => simp

/-- A row's match and mask make its checks, byte by byte (30_encoding R82, R85). -/
theorem Opcode.admits_iff_mask (o : Opcode) (cmd : BitVec 32) :
    o.Admits cmd ↔ cmd &&& o.mask = o.code.setWidth 32 := by
  obtain ⟨hop, hrsv, hctx, himm⟩ := o.mask_fields
  obtain ⟨hop', hrsv', hctx', himm'⟩ := o.match_fields
  have hctx_iff : ctxField cmd &&& ctxField o.mask = 0#8 ↔ (o.takesCtx = false → ctxField cmd = 0#8) := by
    rw [hctx, and_mask_byte_eq_zero_iff]
  have himm_iff : immField cmd &&& immField o.mask = 0#8 ↔
      (o.takesImm = false → immField cmd = 0#8) ∧ (o = .reflect → (immField cmd).extractLsb' 6 2 = 0#2) := by
    rw [himm]
    by_cases ho : o = .reflect
    · simp [ho, Opcode.takesImm, and_bits_six_seven_eq_zero_iff]
    · rw [if_neg ho, and_mask_byte_eq_zero_iff]
      exact ⟨fun h => ⟨h, fun h' => absurd h' ho⟩, fun h => h.1⟩
  rw [cmd_eq_iff, opField_and, ctxField_and, immField_and, rsvField_and, hop, hrsv, hop', hrsv', hctx', himm',
    hctx_iff, himm_iff, BitVec.and_allOnes, BitVec.and_allOnes]
  exact ⟨fun ⟨h1, h2, h3, h4, h5⟩ => ⟨h1, h3, ⟨h4, h5⟩, h2⟩, fun ⟨h1, h3, ⟨h4, h5⟩, h2⟩ => ⟨h1, h2, h3, h4, h5⟩⟩

theorem Opcode.mem_all (o : Opcode) : o ∈ Opcode.all := by cases o <;> decide

theorem exists_row_iff_admits (cmd : BitVec 32) :
    (∃ row ∈ Opcode.all.map fun o => (o.code.setWidth 32, o.mask), cmd &&& row.2 = row.1) ↔
      ∃ o : Opcode, o.Admits cmd := by
  simp only [List.mem_map, Opcode.mem_all, true_and, exists_exists_eq_and, Opcode.admits_iff_mask]

/-- Settles O3: the list is the opcode table's match and mask columns, row by row. -/
theorem legalWordsAreTableRows : Obligations.LegalWordsAreTableRows := fun t =>
  (decodes_iff_admits t).trans (exists_row_iff_admits t.cmd).symm

/-! ### Malformed words -/

theorem Opcode.takesCtx_eq_false_iff (o : Opcode) : o.takesCtx = false ↔ o.code.toNat ∈ [1, 2, 3, 4, 5] := by
  cases o <;> decide

theorem Opcode.takesImm_eq_false_iff (o : Opcode) :
    o.takesImm = false ↔ o.code.toNat ∈ [3, 4, 16, 17, 18, 19, 21, 22] := by
  cases o <;> decide

theorem Opcode.eq_reflect_iff (o : Opcode) : o = .reflect ↔ o.code.toNat = 5 := by cases o <;> decide

theorem Opcode.code_mem_table (o : Opcode) :
    o.code.toNat ∈ [1, 2, 3, 4, 5, 16, 17, 18, 19, 20, 21, 22, 23, 24] := by
  cases o <;> decide

/-- The five checks of 30_encoding R82 on a command word's bytes: the word fails one of them. -/
def Malformed (op ctx imm rsv : Nat) : Prop :=
  op ∉ [1, 2, 3, 4, 5, 16, 17, 18, 19, 20, 21, 22, 23, 24] ∨ rsv ≠ 0 ∨ (op ∈ [1, 2, 3, 4, 5] ∧ ctx ≠ 0) ∨
    (op ∈ [3, 4, 16, 17, 18, 19, 21, 22] ∧ imm ≠ 0) ∨ (op = 5 ∧ 64 ≤ imm)

/-- No row admits a malformed word (30_encoding R82). -/
theorem Opcode.Admits.not_malformed {o : Opcode} {cmd : BitVec 32} (h : o.Admits cmd) :
    ¬ Malformed (opField cmd).toNat (ctxField cmd).toNat (immField cmd).toNat (rsvField cmd).toNat := by
  obtain ⟨hop, hrsv, hctx, himm, hwidth⟩ := h
  rw [hop, hrsv]
  rintro (hbad | hbad | ⟨hrow, hbad⟩ | ⟨hrow, hbad⟩ | ⟨hrow, hbad⟩)
  · exact hbad o.code_mem_table
  · exact hbad rfl
  · exact hbad (by rw [hctx (o.takesCtx_eq_false_iff.2 hrow)]; rfl)
  · exact hbad (by rw [himm (o.takesImm_eq_false_iff.2 hrow)]; rfl)
  · have hlt := (extractLsb'_six_two_eq_zero_iff _).1 (hwidth (o.eq_reflect_iff.2 hrow))
    omega

theorem decode_of_malformed {t : Transaction}
    (h : Malformed (t.cmd.toNat % 256) (t.cmd.toNat / 256 % 256) (t.cmd.toNat / 65536 % 256)
      (t.cmd.toNat / 16777216)) : ∃ e, decode t = .error e := by
  rw [← toNat_opField, ← toNat_ctxField, ← toNat_immField, ← toNat_rsvField] at h
  cases hdec : decode t with
  | error e => exact ⟨e, rfl⟩
  | ok i =>
    obtain ⟨o, hadmits, -⟩ := decode_eq_ok_iff.1 hdec
    exact absurd h hadmits.not_malformed

/-! ### Words of the spec's examples -/

/-- Settles O4, word by word. -/
theorem specExampleWordsDecode : Obligations.SpecExampleWordsDecode := by
  refine ⟨decode_regWrite_word, decode_psetCommit_word, ?_, ?_, ?_, ?_, ?_, decode_ctxRead_word, ?_⟩ <;> decide

end Sys2Proof

/-! Commands on the port (30_encoding R80, R82, R88 to R90): a step on a word, decoded or not, the answer that every
command gives, and `PSET_LOAD`. -/

namespace Sys2Proof.Machine

/-! ### A word that decodes to no command -/

/-- Settles O53: such a word raises the error, and then the other agents' writes are in the input memory. -/
theorem stepAnswersUndecodedWord : Obligations.StepAnswersUndecodedWord := by
  intro s t ws rest e hp hdec hws
  simp only [step, performNext, hp, runCommand, (s.outsideInput_eq_none ws).2 hws, runDecoded, hdec, finishCommand]
  rfl

/-- Settles O6: a malformed word decodes to no command, and writes elsewhere leave a byte as it is. -/
theorem malformedWordRaisesIllegalCommand : Obligations.MalformedWordRaisesIllegalCommand := by
  intro s t ws rest hp hws hbad
  obtain ⟨e, hdec⟩ := decode_of_malformed hbad
  refine ⟨s.imem.writeAll ws, stepAnswersUndecodedWord s t ws rest e hp hdec hws, ?_, ?_⟩
  · rintro rfl
    rfl
  · exact fun a ha => Memory.read_writeAll_other ws s.imem a ha

/-! ### A word that decodes -/

/-- Settles O7: the command leaves what other agents write as it found it, so those writes land when it ends. -/
theorem stepRunsDecodedCommand : Obligations.StepRunsDecodedCommand := by
  intro s t ws rest i hp hdec hws
  obtain ⟨u, hexec, heff⟩ := exec_effect i { s with pending := rest, racing := ws }
  have hracing : u.racing = ws := heff.imemBytes_racing.2
  rw [step_of_issue hp hdec hws, beginCommand, hexec, finishCommand, landRacing, hracing]

/-! ### Every command answers -/

/-- Each effect adds one response: a failure with a code of 1..10, a success with code 0 and `RDATA1` 0 (60_exceptions
R200). -/
theorem Effect.responds {i : Instr} {s t : State} (h : Effect i s t) :
    ∃ r, t.responses = s.responses ++ [r] ∧ r.rcode.toNat ≤ 10 ∧ (r.rcode = 0#8 → r.rdata1 = 0#64) := by
  cases h with
  | failed _ _ code d0 d1 _ hmem hne => exact ⟨⟨code, d0, d1⟩, rfl, mayReturn_le i code hmem, fun h0 => absurd h0 hne⟩
  | reads _ _ d0 => exact ⟨⟨0#8, d0, 0#64⟩, rfl, Nat.zero_le 10, fun _ => rfl⟩
  | _ => exact ⟨⟨0#8, 0#64, 0#64⟩, rfl, Nat.zero_le 10, fun _ => rfl⟩

/-- Settles O30, by the case split over a command's effects. -/
theorem everyCommandAnswersOnce : Obligations.EveryCommandAnswersOnce := by
  intro i s
  obtain ⟨t, hexec, heff⟩ := exec_effect i s
  obtain ⟨r, hr⟩ := heff.responds
  exact ⟨t, r, hexec, hr⟩

/-- Settles O28: every context command starts with the check of its index. -/
theorem contextCommandsCheckRange : Obligations.ContextCommandsCheckRange := by
  intro i c s hi hc
  cases i with
  | regRead | regWrite | psetCommit | selfTest | reflect => cases hi
  | bwBind | tbBind | unbind | ctxRead =>
    cases hi
    exact congrArg _ (onContext_of_ge c s _ hc)
  | reset | updateByte | updateBlock | value | tableRead =>
    cases hi
    exact congrArg _ (onBound_of_ge c s _ hc)

/-! ### `PSET_LOAD` -/

theorem exec_regWrite_sel {r : Reg} {v : Word} {s s' : State} (h : r.store s v = some s') :
    exec (.regWrite r.sel v) s = .next (s'.answer 0#8 0#64 0#64) := by
  rw [exec, execRegWrite, Reg.ofSel_sel, Option.bind_some, h]
  rfl

theorem execAll_cons {i : Instr} {s t : State} (h : exec i s = .next t) (is : List Instr) :
    execAll (i :: is) s = execAll is t := by
  rw [execAll, h]

/-- The staging registers after the seven writes of `PSET_LOAD` (30_encoding R90). -/
def loadedStaging (width poly init : Word) (refin refout : Bool) (xorout check name : Word) : Staging :=
  ⟨width, poly, init, storedFlags ((bitWord refout <<< 1) ||| bitWord refin), xorout, check, name⟩

/-- The state in which `PSET_LOAD`'s commit starts. -/
def State.loaded (s : State) (g : Staging) : State :=
  { s with stg := g, responses := s.responses ++ List.replicate 7 ⟨0#8, 0#64, 0#64⟩ }

theorem execAll_psetLoad (s : State) (width poly init xorout check name : Word) (refin refout : Bool) :
    execAll (psetLoad width poly init refin refout xorout check name) s =
      execAll [.psetCommit] (s.loaded (loadedStaging width poly init refin refout xorout check name)) := by
  rw [psetLoad]
  iterate 7 rw [execAll_cons (exec_regWrite_sel rfl)]
  congr 1
  simp [State.answer, State.loaded, loadedStaging]

theorem refinOf_storedFlags (refin refout : Bool) :
    refinOf (storedFlags ((bitWord refout <<< 1) ||| bitWord refin)) = refin := by
  cases refin <;> cases refout <;> decide

theorem refoutOf_storedFlags (refin refout : Bool) :
    refoutOf (storedFlags ((bitWord refout <<< 1) ||| bitWord refin)) = refout := by
  cases refin <;> cases refout <;> decide

theorem exec_psetCommit_of_width {s : State} (h : 1 ≤ s.stg.width.toNat ∧ s.stg.width.toNat ≤ 64) :
    exec .psetCommit s = .next (State.answer { s with aps := makePS s.stg, apsValid := true } 0#8 0#64 0#64) := by
  rw [exec, execPsetCommit, if_pos h, respondOk_eq_answer]

theorem exec_psetCommit_of_not_width {s : State} (h : ¬ (1 ≤ s.stg.width.toNat ∧ s.stg.width.toNat ≤ 64)) :
    exec .psetCommit s = .next (s.failed 2#8 s.stg.width 0#64 0#64) := by
  rw [exec, execPsetCommit, if_neg h, raiseError_eq_failed, ErrCode.code]

theorem toNat_makePS_width {g : Staging} (h : g.width.toNat ≤ 64) : (makePS g).width.toNat = g.width.toNat := by
  rw [makePS, BitVec.toNat_setWidth]
  omega

/-- Settles O52: seven staging writes always succeed, so the answer is the commit's on the staged width. -/
theorem psetLoadSucceedsExactlyWhenCommitDoes : Obligations.PsetLoadSucceedsExactlyWhenCommitDoes := by
  intro s width poly init xorout check name refin refout
  rw [execAll_psetLoad]
  set g := loadedStaging width poly init refin refout xorout check name
  by_cases hw : 1 ≤ width.toNat ∧ width.toNat ≤ 64
  · refine ⟨_, ⟨0#8, 0#64, 0#64⟩, execAll_cons (exec_psetCommit_of_width (s := s.loaded g) hw) [], rfl, fun _ => ?_,
      fun hnot => absurd hw hnot⟩
    have hmask : ∀ v : Word, (v &&& maskOf width.toNat).toNat = v.toNat % 2 ^ width.toNat :=
      fun v => toNat_and_maskOf v _ hw.2
    exact ⟨rfl, rfl, makePS_valid g hw.1 hw.2, toNat_makePS_width (g := g) hw.2, hmask poly, hmask init,
      refinOf_storedFlags refin refout, refoutOf_storedFlags refin refout, hmask xorout, hmask check, rfl⟩
  · exact ⟨_, ⟨2#8, width, 0#64⟩, execAll_cons (exec_psetCommit_of_not_width (s := s.loaded g) hw) [], rfl,
      fun h => absurd h hw, fun _ => ⟨rfl, rfl, rfl⟩⟩

/-! ### Lines of the spec's examples -/

/-- Settles O5, line by line. -/
theorem assemblerReadsSpecLines : Obligations.AssemblerReadsSpecLines := by
  refine ⟨?_, ?_, ?_, ?_, ?_, ?_, ?_, ?_, ?_, ?_, ?_⟩ <;> decide

end Sys2Proof.Machine

/-! The ParameterSet commands (40_parameter_set): their words, and what each of them does in every state. -/

namespace Sys2Proof

/-! ### Words that decode -/

/-- The word that has a row's opcode and 0 elsewhere (30_encoding R85). -/
theorem Opcode.admits_code (o : Opcode) : o.Admits (o.code.setWidth 32) := by
  obtain ⟨hop, hrsv, hctx, himm⟩ := o.match_fields
  exact ⟨hop, hrsv, fun _ => hctx, fun _ => himm, fun _ => by rw [himm]; rfl⟩

theorem decode_psetCommit (d0 d1 : Word) : decode ⟨0x00000003#32, d0, d1⟩ = .ok .psetCommit :=
  decode_eq_ok_iff.2 ⟨.psetCommit, Opcode.admits_code .psetCommit, rfl⟩

theorem decode_selfTest (d0 d1 : Word) : decode ⟨0x00000004#32, d0, d1⟩ = .ok .selfTest :=
  decode_eq_ok_iff.2 ⟨.selfTest, Opcode.admits_code .selfTest, rfl⟩

/-- The word of a row that takes an immediate, written as a number (30_encoding R81, R85). -/
theorem decode_ofNat_imm (o : Opcode) (imm : BitVec 8) (d0 d1 : Word) (himm : o.takesImm = true)
    (hw : o ≠ .reflect) :
    decode ⟨BitVec.ofNat 32 (o.code.toNat + 0x10000 * imm.toNat), d0, d1⟩ =
      .ok (o.operands ⟨cmdWord o.code 0#8 imm, d0, d1⟩) := by
  have hword : BitVec.ofNat 32 (o.code.toNat + 0x10000 * imm.toNat) = cmdWord o.code 0#8 imm :=
    ofNat_eq_cmdWord o.code 0#8 imm
  rw [hword]
  exact decode_cmdWord o 0#8 imm d0 d1 (fun _ => rfl) (fun h => nomatch himm.symm.trans h) fun h => absurd h hw

theorem decode_regRead (sel : BitVec 8) (d0 d1 : Word) :
    decode ⟨BitVec.ofNat 32 (0x01 + 0x10000 * sel.toNat), d0, d1⟩ = .ok (.regRead sel) := by
  have hdec := decode_ofNat_imm .regRead sel d0 d1 rfl nofun
  rwa [Opcode.operands, immField_cmdWord] at hdec

theorem decode_regWrite (sel : BitVec 8) (d0 d1 : Word) :
    decode ⟨BitVec.ofNat 32 (0x02 + 0x10000 * sel.toNat), d0, d1⟩ = .ok (.regWrite sel d0) := by
  have hdec := decode_ofNat_imm .regWrite sel d0 d1 rfl nofun
  rwa [Opcode.operands, immField_cmdWord] at hdec

end Sys2Proof

namespace Sys2Proof.Machine

/-! ### Read commands -/

/-- A read command fails, or answers and leaves the rest of the state as it was. -/
theorem Effect.failed_or_answer_of_readsOnly {i : Instr} {s t : State} (h : Effect i s t) (hi : i.readsOnly = true) :
    (∃ code d0 d1 d2, code ≠ 0#8 ∧ t = s.failed code d0 d1 d2) ∨ ∃ d0, t = s.answer 0#8 d0 0#64 := by
  cases h with
  | failed _ _ code d0 d1 d2 _ hne => exact .inl ⟨code, d0, d1, d2, hne, rfl⟩
  | reads _ _ d0 _ => exact .inr ⟨d0, rfl⟩
  | _ => cases hi

/-- Settles O40: a response with code 0 is not a failure's, so the command answered and wrote nothing. -/
theorem readCommandsWriteNothing : Obligations.ReadCommandsWriteNothing := by
  intro i s t r hi hexec hresp hok
  rcases (effect_of_exec hexec).failed_or_answer_of_readsOnly hi with ⟨code, d0, d1, d2, hne, rfl⟩ | ⟨d0, rfl⟩
  · have hr : [⟨code, d0, d1⟩] = [r] := List.append_cancel_left hresp
    cases hr
    exact absurd hok hne
  · rw [← hresp]
    rfl

/-! ### Words that do not decode -/

/-- A row whose bad bytes fail a check of 30_encoding R82 raises `ILLEGAL_COMMAND` on them. -/
theorem illegalWhen_of_malformed {op : Nat} {bad : Nat → Nat → Nat → Prop}
    (h : ∀ ctx imm rsv, bad ctx imm rsv → Malformed op ctx imm rsv) : IllegalWhen op bad := by
  intro s t ws rest hp hws hop hbad
  refine malformedWordRaisesIllegalCommand s t ws rest hp hws ?_
  subst hop
  exact h _ _ _ hbad

theorem illegalWhen_ctx_or_rsv {op : Nat} (hop : op ∈ [1, 2, 3, 4, 5]) :
    IllegalWhen op fun ctx _ rsv => ctx ≠ 0 ∨ rsv ≠ 0 := by
  refine illegalWhen_of_malformed fun ctx imm rsv hbad => ?_
  rcases hbad with hctx | hrsv
  · exact .inr (.inr (.inl ⟨hop, hctx⟩))
  · exact .inr (.inl hrsv)

theorem illegalWhen_ctx_or_imm_or_rsv {op : Nat} (hctx : op ∈ [1, 2, 3, 4, 5])
    (himm : op ∈ [3, 4, 16, 17, 18, 19, 21, 22]) :
    IllegalWhen op fun ctx imm rsv => ctx ≠ 0 ∨ imm ≠ 0 ∨ rsv ≠ 0 := by
  refine illegalWhen_of_malformed fun ctx imm rsv hbad => ?_
  rcases hbad with hc | hi | hr
  · exact .inr (.inr (.inl ⟨hctx, hc⟩))
  · exact .inr (.inr (.inr (.inl ⟨himm, hi⟩)))
  · exact .inr (.inl hr)

/-! ### `REG_READ` -/

theorem exec_regRead_sel (r : Reg) (s : State) :
    exec (.regRead r.sel) s = .next (s.answer 0#8 (r.content s) 0#64) := by
  rw [exec, execRegRead, Reg.ofSel_sel]
  rfl

theorem exec_regRead_of_unmapped {sel : BitVec 8} (h : ∀ r : Reg, r.sel ≠ sel) (s : State) :
    exec (.regRead sel) s = .next (s.failed 9#8 (sel.setWidth 64) 0#64 0#64) := by
  rw [exec, execRegRead, (Reg.ofSel_eq_none sel).2 h]
  rfl

theorem bitWord_eq_ofNat (b : Bool) : bitWord b = BitVec.ofNat 64 b.toNat := by cases b <;> rfl

/-- The flags word as a number: `REFOUT` is its bit 1 and `REFIN` its bit 0 (10_state R33). -/
theorem ParamSet.flagsWord_eq_ofNat (p : ParamSet) :
    p.flagsWord = BitVec.ofNat 64 (2 * p.refout.toNat + p.refin.toNat) := by
  rw [ParamSet.flagsWord]
  cases p.refout <;> cases p.refin <;> rfl

/-- The registers of the active set (10_state R45). -/
def Reg.ofAps : List Reg :=
  [.apsWidth, .apsPoly, .apsInit, .apsFlags, .apsXorout, .apsCheck, .apsName, .apsMask, .apsMsb]

theorem Reg.exists_ofAps_sel :
    ∀ sel : BitVec 8, 0x10 ≤ sel.toNat → sel.toNat ≤ 0x18 → ∃ r ∈ Reg.ofAps, r.sel = sel := by
  decide

theorem Reg.content_ofAps_eq_zero {s : State} (h : s.aps = ParamSet.zero) : ∀ r ∈ Reg.ofAps, r.content s = 0#64 := by
  simp [Reg.ofAps, Reg.content, h, ParamSet.zero, ParamSet.flagsWord, bitWord]

/-- Settles O12: the list is the register map, register by register. -/
theorem regReadAnswersRegisterMap : Obligations.RegReadAnswersRegisterMap := by
  refine ⟨decode_regRead, illegalWhen_ctx_or_rsv (by decide), fun s => ?_⟩
  intro map
  have hmap : map = Reg.all.map fun r => (r.sel, r.content s) := by
    simp only [map, Reg.all, List.map_cons, List.map_nil, Reg.sel, Reg.content, BitVec.ofNat_toNat,
      ParamSet.flagsWord_eq_ofNat, statusWord, bitWord_eq_ofNat, State.nctx, State.tslots, idWord]
  refine ⟨fun p hp => ?_, fun sel hsel => ?_, fun hinv => ⟨?_, fun hv sel hlo hhi => ?_⟩⟩
  · rw [hmap, List.mem_map] at hp
    obtain ⟨r, -, rfl⟩ := hp
    exact exec_regRead_sel r s
  · refine exec_regRead_of_unmapped (fun r hr => hsel ?_) s
    rw [hmap, List.map_map, ← hr]
    exact List.mem_map_of_mem (Reg.mem_all r)
  · exact ⟨s.stg.flags, hinv.flags_reserved, exec_regRead_sel .stgFlags s⟩
  · obtain ⟨r, hr, rfl⟩ := Reg.exists_ofAps_sel sel hlo hhi
    rw [exec_regRead_sel, Reg.content_ofAps_eq_zero (hinv.aps_zero hv) r hr]

/-! ### `REG_WRITE` -/

/-- The registers from selector 7 on are read-only, but for `LAST_ERR` (10_state R46). -/
theorem Reg.store_eq_none {r : Reg} (hlo : 7 ≤ r.sel.toNat) (hne : r.sel ≠ 0x23#8) (s : State) (v : Word) :
    r.store s v = none := by
  cases r with
  | stgWidth | stgPoly | stgInit | stgFlags | stgXorout | stgCheck | stgName => exact absurd hlo (by decide)
  | lastErr => exact absurd rfl hne
  | _ => rfl

/-- A write to a reserved selector, or to a read-only register (40_parameter_set R102). -/
theorem exec_regWrite_of_not_stored {sel : BitVec 8} {s : State} {v : Word}
    (h : ∀ r : Reg, r.sel = sel → r.store s v = none) :
    exec (.regWrite sel v) s = .next (s.failed 9#8 (sel.setWidth 64) 1#64 0#64) := by
  have hstore : (Reg.ofSel sel).bind (Reg.store s v) = none :=
    Option.bind_eq_none_iff.2 fun r hr => h r ((Reg.ofSel_eq_some sel r).1 hr)
  rw [exec, execRegWrite, hstore]
  rfl

theorem storedFlags_eq_ofNat (v : Word) : storedFlags v = BitVec.ofNat 64 (v.toNat % 4) := by
  rw [← toNat_storedFlags, BitVec.ofNat_toNat, BitVec.setWidth_eq]

/-- Settles O13: the eight registers that a write stores to, then the selectors that name none of them. -/
theorem regWriteStoresClearsOrFails : Obligations.RegWriteStoresClearsOrFails := by
  refine ⟨decode_regWrite, illegalWhen_ctx_or_rsv (by decide), fun s v => ?_⟩
  rw [← storedFlags_eq_ofNat]
  refine ⟨exec_regWrite_sel (r := .stgWidth) rfl, exec_regWrite_sel (r := .stgPoly) rfl,
    exec_regWrite_sel (r := .stgInit) rfl, exec_regWrite_sel (r := .stgFlags) rfl,
    exec_regWrite_sel (r := .stgXorout) rfl, exec_regWrite_sel (r := .stgCheck) rfl,
    exec_regWrite_sel (r := .stgName) rfl, exec_regWrite_sel (r := .lastErr) rfl, fun sel hlo hne => ?_⟩
  refine exec_regWrite_of_not_stored fun r hr => ?_
  subst hr
  exact Reg.store_eq_none hlo hne s v

/-! ### `PSET_COMMIT` -/

theorem and_maskOf_eq_ofNat (v : Word) {w : Nat} (h : w ≤ 64) :
    v &&& maskOf w = BitVec.ofNat 64 (v.toNat % 2 ^ w) := by
  rw [← toNat_and_maskOf v w h, BitVec.ofNat_toNat, BitVec.setWidth_eq]

/-- Settles O14: the set that a commit builds, its masks read as remainders. -/
theorem psetCommitBuildsOrRejects : Obligations.PsetCommitBuildsOrRejects := by
  refine ⟨decode_psetCommit, illegalWhen_ctx_or_imm_or_rsv (by decide) (by decide), fun s =>
    ⟨fun hlo hhi => ?_, fun h => ?_⟩⟩
  · rw [exec_psetCommit_of_width ⟨hlo, hhi⟩, makePS]
    simp only [and_maskOf_eq_ofNat _ hhi, BitVec.ofNat_toNat]
    rfl
  · exact exec_psetCommit_of_not_width (by omega)

/-! ### `SELF_TEST` -/

theorem exec_selfTest_of_no_params {s : State} (h : s.apsValid = false) :
    exec .selfTest s = .next (s.failed 4#8 0#64 0#64 0#64) := by
  rw [exec, execSelfTest, if_pos h]
  rfl

theorem exec_selfTest_of_match {s : State} (hv : s.apsValid = true) (h : selfTestValue s.aps = s.aps.check) :
    exec .selfTest s = .next (s.answer 0#8 (selfTestValue s.aps) 0#64) := by
  rw [exec, execSelfTest, if_neg (by simp [hv]), if_neg (not_not.2 h), respondOk_eq_answer]

theorem exec_selfTest_of_mismatch {s : State} (hv : s.apsValid = true) (h : selfTestValue s.aps ≠ s.aps.check) :
    exec .selfTest s = .next (s.failed 3#8 (selfTestValue s.aps) s.aps.check s.aps.name) := by
  rw [exec, execSelfTest, if_neg (by simp [hv]), if_pos h]
  rfl

/-- Settles O15: the value is `SelfTestValue` of the active set, and the command's three cases are the statement's. -/
theorem selfTestAnswersOrFails : Obligations.SelfTestAnswersOrFails :=
  ⟨decode_selfTest, illegalWhen_ctx_or_imm_or_rsv (by decide) (by decide), fun _ =>
    ⟨exec_selfTest_of_no_params, exec_selfTest_of_match, exec_selfTest_of_mismatch⟩⟩

end Sys2Proof.Machine

/-! The bit reflector (41_bit_reflector): the laws of the network, and the `REFLECT` command. -/

namespace Sys2Proof.Machine

/-! ### Laws of the network -/

theorem reverse_le_maskOf (v : Word) {w : Nat} (h : w ≤ 64) : reverse v w ≤ maskOf w := by
  rw [BitVec.le_def, toNat_maskOf w h]
  exact Nat.le_sub_one_of_lt (reverse_lt v w h)

/-- A word and its low `w` bits agree below `w` (00_scope R11). -/
theorem sameBelow_and_maskOf (v : Word) {w : Nat} (h : w ≤ 64) : SameBelow w v (v &&& maskOf w) := by
  intro i hi
  rw [BitVec.getLsbD_and, getLsbD_maskOf w i h, decide_eq_true hi, Bool.and_true]

/-- Bit `i` goes to bit `w-1-i` and from there back to bit `i`. -/
theorem reverse_reverse (v : Word) {w : Nat} (h : w ≤ 64) : reverse (reverse v w) w = v &&& maskOf w := by
  apply BitVec.eq_of_getLsbD_eq
  intro i _
  rw [getLsbD_reverse _ w i h, getLsbD_reverse v w _ h, BitVec.getLsbD_and, getLsbD_maskOf w i h]
  by_cases hi : i < w
  · have hback : w - 1 - (w - 1 - i) = i := by omega
    simp [hi, hback, show w - 1 - i < w by omega]
  · simp [hi]

/-- Every output bit below the width reads a bit below the width, which is 1 in the mask. -/
theorem reverse_maskOf {w : Nat} (h : w ≤ 64) : reverse (maskOf w) w = maskOf w := by
  apply BitVec.eq_of_getLsbD_eq
  intro i _
  rw [getLsbD_reverse _ w i h, getLsbD_maskOf w _ h, getLsbD_maskOf w i h]
  by_cases hi : i < w
  · simp [hi, show w - 1 - i < w by omega]
  · simp [hi]

theorem reverse_xor (a b : Word) {w : Nat} (h : w ≤ 64) : reverse (a ^^^ b) w = reverse a w ^^^ reverse b w := by
  apply BitVec.eq_of_getLsbD_eq
  intro i _
  rw [BitVec.getLsbD_xor, getLsbD_reverse _ w i h, getLsbD_reverse a w i h, getLsbD_reverse b w i h,
    BitVec.getLsbD_xor, Bool.and_xor_distrib_left]

/-- The network preserves XOR, and 0 is `0 ^ 0`. -/
theorem reverse_zero {w : Nat} (h : w ≤ 64) : reverse 0 w = 0 := by
  have hxor := reverse_xor 0 0 h
  rwa [BitVec.xor_self, BitVec.xor_self] at hxor

/-- At width 1 the network passes bit 0 through. -/
theorem reverse_one (v : Word) : reverse v 1 = v &&& 1 := by
  apply BitVec.eq_of_getLsbD_eq
  intro i _
  have hone : (1 : Word) = maskOf 1 := rfl
  rw [hone, getLsbD_reverse v 1 i (by decide), BitVec.getLsbD_and, getLsbD_maskOf 1 i (by decide)]
  by_cases hi : i < 1
  · simp [Nat.lt_one_iff.1 hi]
  · simp [hi]

/-- Settles O43, law by law. -/
theorem reflectorLaws : Obligations.ReflectorLaws := by
  intro w v a b _ h
  exact ⟨reverse_le_maskOf v h, (sameBelow_and_maskOf v h).reverse_eq h, reverse_reverse v h, reverse_zero h,
    reverse_maskOf h, reverse_xor a b h, reverse_one v⟩

/-! ### `REFLECT` -/

/-- The word of `REFLECT`, written as a number, has `width - 1` in its immediate (30_encoding R83, R89). -/
theorem decode_reflect {w : Nat} (h : 1 ≤ w ∧ w ≤ 64) (d0 d1 : Word) :
    decode ⟨BitVec.ofNat 32 (0x05 + 0x10000 * (w - 1)), d0, d1⟩ = .ok (.reflect w d0) := by
  have hwf := (wf_reflect_iff w d0).2 h
  have hword : BitVec.ofNat 32 (0x05 + 0x10000 * (w - 1)) = (encode (.reflect w d0)).cmd := by
    rw [encode, ← ofNat_eq_cmdWord, toNat_ofNat_width h]
    rfl
  rw [hword]
  exact decode_eq_ok_iff.2 ⟨.reflect, encode_admits hwf, (operands_encode hwf).symm⟩

theorem illegalWhen_reflect : IllegalWhen 0x05 fun ctx imm rsv => ctx ≠ 0 ∨ 64 ≤ imm ∨ rsv ≠ 0 := by
  refine illegalWhen_of_malformed fun ctx imm rsv hbad => ?_
  rcases hbad with hctx | himm | hrsv
  · exact .inr (.inr (.inl ⟨by decide, hctx⟩))
  · exact .inr (.inr (.inr (.inr ⟨rfl, himm⟩)))
  · exact .inr (.inl hrsv)

theorem exec_reflect (w : Nat) (v : Word) (s : State) :
    exec (.reflect w v) s = .next (s.answer 0#8 (reverse v w) 0#64) := by
  rw [exec, execReflect, respondOk_eq_answer]

/-- Settles O16: the answer is the network's output, which is known bit by bit. -/
theorem reflectReversesLowBits : Obligations.ReflectReversesLowBits :=
  ⟨fun _ d0 d1 hlo hhi => decode_reflect ⟨hlo, hhi⟩ d0 d1, illegalWhen_reflect, fun w v s _ hhi =>
    ⟨reverse v w, exec_reflect w v s, fun j => getLsbD_reverse v w j hhi⟩⟩

end Sys2Proof.Machine

/-! The bitwise engine (42_bitwise_engine): the bits of a step, the bits of the register it reads, and `BW_BIND`. -/

namespace Sys2Proof.Machine

/-! ### The bits of a step -/

/-- A bit step shifts every bit up by one and XORs `poly` by the tested and the input bit (42_bitwise_engine R131). -/
theorem getLsbD_bwBit {p : ParamSet} (hp : p.Valid) (reg : Word) (bit : Bool) {j : Nat} (hj : j < 64) :
    (bwBit p reg bit).getLsbD j =
      xor (decide (1 ≤ j) && reg.getLsbD (j - 1))
        ((xor (reg.getLsbD (p.width.toNat - 1)) bit) && p.poly.getLsbD j) := by
  have hshift : (reg <<< 1).getLsbD j = (decide (1 ≤ j) && reg.getLsbD (j - 1)) := by
    simp only [BitVec.getLsbD_shiftLeft, hj, decide_true, Bool.true_and, ← decide_not, Nat.not_lt]
  rw [bwBit_eq hp, BitVec.getLsbD_xor, hshift]
  cases xor (reg.getLsbD (p.width.toNat - 1)) bit <;> simp

/-- The bits of a byte, the most significant first. -/
def bitsDown (b : Byte) : List Bool := [7, 6, 5, 4, 3, 2, 1, 0].map b.getLsbD

/-- The network at width 8 turns the order of a byte's bits around (41_bit_reflector R122). -/
theorem bitsDown_reverseByte (b : Byte) : bitsDown (reverseByte b) = (bitsDown b).reverse := by
  have hpos : ∀ i ∈ [7, 6, 5, 4, 3, 2, 1, 0], i < 8 := by decide
  exact List.map_congr_left fun i hi => getLsbD_reverseByte b i (hpos i hi)

/-- `BW_STEP` is a bit step for each of the byte's bits, in the order that `refin` picks (42_bitwise_engine R131). -/
theorem bwStep_eq_foldl_bitsDown (p : ParamSet) (reg : Word) (b : Byte) :
    bwStep p reg b = (if p.refin = true then (bitsDown b).reverse else bitsDown b).foldl (bwBit p) reg := by
  rw [← bitsDown_reverseByte, ← apply_ite bitsDown, bitsDown, List.foldl_map, bwStep]

/-- Settles O44: each bit of a bit step, then the byte's bits in either order. -/
theorem bitwiseStepBits : Obligations.BitwiseStepBits :=
  ⟨fun _ reg bit _ hp hj => getLsbD_bwBit hp reg bit hj, bwStep_eq_foldl_bitsDown⟩

/-! ### The bits of the register that a step and a value read -/

theorem SameBelow.and_mask_eq {p : ParamSet} (hp : p.Valid) {a b : Word} (h : SameBelow p.width.toNat a b) :
    a &&& p.mask = b &&& p.mask := by
  simpa only [BitVec.xor_zero] using h.masked_eq hp 0#64

theorem ParamSet.Valid.sameBelow_and_mask {p : ParamSet} (hp : p.Valid) (v : Word) :
    SameBelow p.width.toNat v (v &&& p.mask) := by
  rw [hp.mask_maskOf]
  exact sameBelow_and_maskOf v hp.width_le

theorem SameBelow.bwValue_eq {p : ParamSet} (hp : p.Valid) {a b : Word} (h : SameBelow p.width.toNat a b) :
    bwValue p a = bwValue p b :=
  h.value_eq hp (p.refout = true) p.xorout

/-- Settles O45: a register and its low `width` bits agree below the width, and a step and a value keep that. -/
theorem bitwiseLowBitsMatter : Obligations.BitwiseLowBitsMatter := by
  intro p reg b hp
  have hlow := hp.sameBelow_and_mask reg
  exact ⟨(sameBelow_bwStep hp hlow b).and_mask_eq hp, hlow.bwValue_eq hp⟩

end Sys2Proof.Machine

namespace Sys2Proof

/-! ### The words of `BW_BIND` -/

/-- The word of a row that takes a context and no immediate, written as a number (30_encoding R81, R85). -/
theorem decode_ofNat_ctx (o : Opcode) (c : BitVec 8) (d0 d1 : Word) (hctx : o.takesCtx = true) :
    decode ⟨BitVec.ofNat 32 (o.code.toNat + 0x100 * c.toNat), d0, d1⟩ =
      .ok (o.operands ⟨cmdWord o.code c 0#8, d0, d1⟩) := by
  have hword : BitVec.ofNat 32 (o.code.toNat + 0x100 * c.toNat) = cmdWord o.code c 0#8 :=
    ofNat_eq_cmdWord o.code c 0#8
  rw [hword]
  exact decode_cmdWord o c 0#8 d0 d1 (fun h => nomatch hctx.symm.trans h) (fun _ => rfl) fun _ => rfl

theorem decode_bwBind (c : BitVec 8) (d0 d1 : Word) :
    decode ⟨BitVec.ofNat 32 (0x10 + 0x100 * c.toNat), d0, d1⟩ = .ok (.bwBind c) := by
  have hdec := decode_ofNat_ctx .bwBind c d0 d1 rfl
  rwa [Opcode.operands, ctxField_cmdWord] at hdec

end Sys2Proof

namespace Sys2Proof.Machine

/-! ### `BW_BIND` -/

theorem illegalWhen_imm_or_rsv {op : Nat} (hop : op ∈ [3, 4, 16, 17, 18, 19, 21, 22]) :
    IllegalWhen op fun _ imm rsv => imm ≠ 0 ∨ rsv ≠ 0 := by
  refine illegalWhen_of_malformed fun ctx imm rsv hbad => ?_
  rcases hbad with himm | hrsv
  · exact .inr (.inr (.inr (.inl ⟨hop, himm⟩)))
  · exact .inr (.inl hrsv)

theorem exec_bwBind_of_no_params {s : State} {c : BitVec 8} (hc : c.toNat < s.ctx.length) (h : s.apsValid = false) :
    exec (.bwBind c) s = .next (s.failed 4#8 0#64 0#64 0#64) := by
  rw [exec, execBwBind, onContext_of_lt c s _ hc, if_neg (by simp [h])]
  rfl

theorem exec_bwBind_of_params {s : State} {c : BitVec 8} (hc : c.toNat < s.ctx.length) (h : s.apsValid = true) :
    exec (.bwBind c) s = .next ((s.setCtx c.toNat (bwContext s.aps)).answer 0#8 0#64 0#64) := by
  rw [exec, execBwBind, onContext_of_lt c s _ hc, if_pos h, respondOk_eq_answer]

/-- Settles O17: the check of the index, which every context command makes, comes before the command's two cases. -/
theorem bwBindBindsActiveSet : Obligations.BwBindBindsActiveSet :=
  ⟨decode_bwBind, illegalWhen_imm_or_rsv (by decide), fun s c =>
    ⟨contextCommandsCheckRange (.bwBind c) c s rfl, exec_bwBind_of_no_params, exec_bwBind_of_params⟩⟩

end Sys2Proof.Machine

/-! The table engine's datapath (43_table_engine R150 to R155, R160): the laws of the generated table, and the table
engine as the bitwise engine with its register turned to the table's bit order. -/

namespace Sys2Proof.Machine

/-! ### The table's bit order -/

/-- A bitwise engine's register in the bit order of the table engine: reversed over the width when `refin`
(43_table_engine R151, R153). -/
def tableOrder (p : ParamSet) (reg : Word) : Word := if p.refin then reverse reg p.width.toNat else reg

theorem tableOrder_xor {p : ParamSet} (hp : p.Valid) (a b : Word) :
    tableOrder p (a ^^^ b) = tableOrder p a ^^^ tableOrder p b := by
  unfold tableOrder
  split
  · exact reverse_xor a b hp.width_le
  · rfl

/-! ### The generated table -/

/-- An entry by its byte (43_table_engine R150, R151). -/
theorem tableEntry_byte (p : ParamSet) (b : Byte) :
    tableEntry p b.toNat = tableOrder p (bwStep p 0#64 b) &&& p.mask := by
  rw [tableEntry_eq, BitVec.ofNat_toNat, BitVec.setWidth_eq, tableOrder]

theorem tableGen_getElem? (p : ParamSet) (b : Byte) : (tableGen p)[b.toNat]? = some (tableEntry p b.toNat) := by
  rw [tableGen, List.getElem?_map, List.getElem?_range b.isLt, Option.map_some]

theorem xor_and_mask (a b m : Word) : (a ^^^ b) &&& m = (a &&& m) ^^^ (b &&& m) := by
  apply BitVec.eq_of_getLsbD_eq
  intro i _
  simp only [BitVec.getLsbD_and, BitVec.getLsbD_xor, Bool.and_xor_distrib_right]

/-- The table is linear (43_table_engine R152 (c)): so are the step, the bit order and the mask. -/
theorem tableEntry_xor {p : ParamSet} (hp : p.Valid) (a b : Byte) :
    tableEntry p (a ^^^ b).toNat = tableEntry p a.toNat ^^^ tableEntry p b.toNat := by
  have hstep : bwStep p 0#64 (a ^^^ b) = bwStep p 0#64 a ^^^ bwStep p 0#64 b := bwStep_xor hp 0#64 0#64 a b
  rw [tableEntry_byte, tableEntry_byte, tableEntry_byte, hstep, tableOrder_xor hp, xor_and_mask]

/-- Entries add up, and the byte 0 is `0 ^ 0`. -/
theorem tableEntry_zero {p : ParamSet} (hp : p.Valid) : tableEntry p 0 = 0#64 := by
  have hxor := tableEntry_xor hp 0#8 0#8
  rwa [BitVec.xor_self, BitVec.xor_self] at hxor

theorem tableEntry_le_maskOf {p : ParamSet} (hp : p.Valid) (i : Nat) : tableEntry p i ≤ maskOf p.width.toNat := by
  rw [BitVec.le_def, toNat_maskOf _ hp.width_le]
  exact Nat.le_sub_one_of_lt (tableEntry_lt hp i)

/-- The derived mask and tested bit follow from the width, so that an entry rests on three fields (43_table_engine
R152 (d)). -/
theorem tableEntry_congr {p q : ParamSet} (hp : p.Valid) (hq : q.Valid) (hwidth : p.width = q.width)
    (hpoly : p.poly = q.poly) (hrefin : p.refin = q.refin) (i : Nat) : tableEntry p i = tableEntry q i := by
  have hmask : p.mask = q.mask := by rw [hp.mask_maskOf, hq.mask_maskOf, hwidth]
  have hmsb : p.msb = q.msb := by rw [hp.msb_msbOf, hq.msb_msbOf, hwidth]
  rw [tableEntry_eq, tableEntry_eq, bwStep_congr hpoly hrefin hmsb, hrefin, hwidth, hmask]

/-- Settles O46: each law is one of the entries of the table. -/
theorem tableGeneratorLaws : Obligations.TableGeneratorLaws := by
  intro p q hp hq
  refine ⟨tableGen_length p, fun e he => ?_, ?_, fun a b ea eb ha hb => ?_, fun hwidth hpoly hrefin => ?_⟩
  · obtain ⟨i, -, rfl⟩ := List.mem_map.1 he
    exact tableEntry_le_maskOf hp i
  · have hget := tableGen_getElem? p 0#8
    rwa [BitVec.toNat_zero, tableEntry_zero hp] at hget
  · rw [tableGen_getElem?, Option.some.injEq] at ha hb
    rw [tableGen_getElem?, tableEntry_xor hp, ha, hb]
  · exact List.map_congr_left fun i _ => tableEntry_congr hp hq hwidth hpoly hrefin i

/-! ### A step of the table engine -/

/-- The register's part of the index of a table step (43_table_engine R154). -/
def tbIndex (p : ParamSet) (reg : Word) : Word :=
  if p.refin then reg
  else if p.width.toNat < 8 then reg <<< (8 - p.width.toNat)
  else reg >>> (p.width.toNat - 8)

/-- What a table step keeps of the register (43_table_engine R154). -/
def tbShift (p : ParamSet) (reg : Word) : Word :=
  if p.refin then reg >>> 8 else if p.width.toNat < 8 then 0#64 else reg <<< 8

/-- The three cases of a table step have one form (43_table_engine R154). -/
theorem tbStep_eq (p : ParamSet) (t : List Word) (reg : Word) (b : Byte) :
    tbStep p t reg b = tbShift p reg ^^^ tableAt t (b.setWidth 64 ^^^ tbIndex p reg) := by
  unfold tbStep tbShift tbIndex
  split
  · rfl
  · split
    · rw [BitVec.zero_xor]
    · rw [BitVec.xor_comm]

/-- The table is read at the low byte of the index. -/
theorem tableAt_tableGen_xor (p : ParamSet) (b : Byte) (x : Word) :
    tableAt (tableGen p) (b.setWidth 64 ^^^ x) = tableEntry p (b ^^^ x.setWidth 8).toNat := by
  have hbyte : b ^^^ x.setWidth 8 = (b.setWidth 64 ^^^ x).setWidth 8 := by
    rw [BitVec.setWidth_xor, BitVec.setWidth_setWidth_of_le _ (by decide), BitVec.setWidth_eq]
  rw [tableAt_tableGen, hbyte, BitVec.toNat_setWidth]

/-! ### The table engine's register beside the bitwise engine's -/

/-- The table engine's register `t` mirrors the bitwise engine's register `r`: it is `r` in the table's bit order below
the width, and has no bit above the width where a reflected step would shift it in (43_table_engine R160). -/
structure Mirrors (p : ParamSet) (t r : Word) : Prop where
  sameBelow : SameBelow p.width.toNat t (tableOrder p r)
  fits : p.refin = true → t.toNat < 2 ^ p.width.toNat

/-- The start values (43_table_engine R153). -/
theorem mirrors_start {p : ParamSet} (hp : p.Valid) : Mirrors p (tbStart p) p.init :=
  ⟨fun _ _ => rfl, fun _ => tbStart_lt hp⟩

theorem Mirrors.getLsbD_of_refin {p : ParamSet} (hp : p.Valid) {t r : Word} (h : Mirrors p t r)
    (hrefin : p.refin = true) (i : Nat) :
    t.getLsbD i = (decide (i < p.width.toNat) && r.getLsbD (p.width.toNat - 1 - i)) := by
  by_cases hi : i < p.width.toNat
  · rw [h.sameBelow i hi, tableOrder, if_pos hrefin, getLsbD_reverse _ _ _ hp.width_le]
  · rw [getLsbD_of_toNat_lt t _ i (h.fits hrefin) (Nat.not_lt.1 hi), decide_eq_false hi, Bool.false_and]

theorem Mirrors.getLsbD_of_not_refin {p : ParamSet} {t r : Word} (h : Mirrors p t r) (hrefin : ¬ p.refin = true)
    {i : Nat} (hi : i < p.width.toNat) : t.getLsbD i = r.getLsbD i := by
  rw [h.sameBelow i hi, tableOrder, if_neg hrefin]

/-- The register's part of the index spells the bits that the bitwise engine tests in its next eight bit steps. -/
theorem Mirrors.getLsbD_tbIndex {p : ParamSet} (hp : p.Valid) {t r : Word} (h : Mirrors p t r) {j : Nat} (hj : j < 8) :
    (tbIndex p t).getLsbD (if p.refin then j else 7 - j) =
      (decide (j < p.width.toNat) && r.getLsbD (p.width.toNat - 1 - j)) := by
  unfold tbIndex
  by_cases hrefin : p.refin = true
  · rw [if_pos hrefin, if_pos hrefin, h.getLsbD_of_refin hp hrefin]
  rw [if_neg hrefin, if_neg hrefin]
  by_cases hw : p.width.toNat < 8
  · rw [if_pos hw, BitVec.getLsbD_shiftLeft]
    by_cases hjw : j < p.width.toNat
    · simp [hjw, h.getLsbD_of_not_refin hrefin, show 7 - j < 64 by omega, show ¬ 7 - j < 8 - p.width.toNat by omega,
        show 7 - j - (8 - p.width.toNat) = p.width.toNat - 1 - j by omega,
        show p.width.toNat - 1 - j < p.width.toNat by omega]
    · simp [hjw, show 7 - j < 8 - p.width.toNat by omega]
  · have htop : p.width.toNat - 8 + (7 - j) = p.width.toNat - 1 - j := by omega
    rw [if_neg hw, BitVec.getLsbD_ushiftRight, htop, h.getLsbD_of_not_refin hrefin (by omega),
      decide_eq_true (by omega : j < p.width.toNat), Bool.true_and]

/-- The bits of a byte in the order in which a bitwise step takes them (42_bitwise_engine R131). -/
theorem getLsbD_refin_reverseByte (p : ParamSet) (b : Byte) {j : Nat} (hj : j < 8) :
    (if p.refin then reverseByte b else b).getLsbD (7 - j) = b.getLsbD (if p.refin then j else 7 - j) := by
  split
  · rw [getLsbD_reverseByte b _ (by omega), show 7 - (7 - j) = j by omega]
  · rfl

/-- A bitwise step as a shift and a step of the zero register on the byte that indexes the table (43_table_engine
R160). -/
theorem Mirrors.bwStep_eq {p : ParamSet} (hp : p.Valid) {t r : Word} (h : Mirrors p t r) (b : Byte) :
    bwStep p r b = (r <<< 8) ^^^ bwStep p 0#64 (b ^^^ (tbIndex p t).setWidth 8) := by
  refine bwStep_split hp r b _ fun j hj => ?_
  have hlow : (if p.refin then j else 7 - j) < 8 := by split <;> omega
  rw [getLsbD_refin_reverseByte p _ hj, BitVec.getLsbD_setWidth, decide_eq_true hlow, Bool.true_and,
    h.getLsbD_tbIndex hp hj]

/-- What a table step keeps of the register is what the bitwise engine's eight shifts keep. -/
theorem Mirrors.sameBelow_tbShift {p : ParamSet} (hp : p.Valid) {t r : Word} (h : Mirrors p t r) :
    SameBelow p.width.toNat (tbShift p t) (tableOrder p (r <<< 8)) := by
  intro i hi
  have hle := hp.width_le
  unfold tbShift tableOrder
  by_cases hrefin : p.refin = true
  · rw [if_pos hrefin, if_pos hrefin, BitVec.getLsbD_ushiftRight, h.getLsbD_of_refin hp hrefin,
      getLsbD_reverse _ _ _ hle, decide_eq_true hi, Bool.true_and, BitVec.getLsbD_shiftLeft]
    by_cases hiw : 8 + i < p.width.toNat
    · simp [hiw, show p.width.toNat - 1 - i < 64 by omega, show ¬ p.width.toNat - 1 - i < 8 by omega,
        show p.width.toNat - 1 - i - 8 = p.width.toNat - 1 - (8 + i) by omega]
    · simp [hiw, show p.width.toNat - 1 - i < 8 by omega]
  rw [if_neg hrefin, if_neg hrefin, BitVec.getLsbD_shiftLeft]
  by_cases hw : p.width.toNat < 8
  · simp [hw, show i < 8 by omega]
  · rw [if_neg hw, BitVec.getLsbD_shiftLeft, h.getLsbD_of_not_refin hrefin (by omega)]

theorem SameBelow.symm {w : Nat} {a b : Word} (h : SameBelow w a b) : SameBelow w b a := fun i hi => (h i hi).symm

theorem SameBelow.xor {w : Nat} {a a' b b' : Word} (h : SameBelow w a a') (h' : SameBelow w b b') :
    SameBelow w (a ^^^ b) (a' ^^^ b') := by
  intro i hi
  rw [BitVec.getLsbD_xor, BitVec.getLsbD_xor, h i hi, h' i hi]

/-- One byte into both engines: the shifts keep the same bits, and the entry is the step of the zero register
(43_table_engine R160). -/
theorem Mirrors.step {p : ParamSet} (hp : p.Valid) {t r : Word} (h : Mirrors p t r) (b : Byte) :
    Mirrors p (tbStep p (tableGen p) t b) (bwStep p r b) := by
  refine ⟨?_, fun hrefin => tbStep_fits hp t b (.inl hrefin) (h.fits hrefin)⟩
  rw [h.bwStep_eq hp, tableOrder_xor hp, tbStep_eq, tableAt_tableGen_xor, tableEntry_byte]
  exact (h.sameBelow_tbShift hp).xor (hp.sameBelow_and_mask _).symm

theorem Mirrors.run {p : ParamSet} (hp : p.Valid) {t r : Word} (h : Mirrors p t r) (bytes : List Byte) :
    Mirrors p (tbRun p (tableGen p) t bytes) (bwRun p r bytes) :=
  List.foldl_rel (r := Mirrors p) h fun b _ _ _ hr => hr.step hp b

/-- The value undoes the table's bit order: it reverses when `refout` differs from `refin` (43_table_engine R155). -/
theorem tbValue_tableOrder {p : ParamSet} (hp : p.Valid) (r : Word) : tbValue p (tableOrder p r) = bwValue p r := by
  unfold tbValue bwValue tableOrder
  cases hin : p.refin <;> cases hout : p.refout
  · rfl
  · rfl
  · show (reverse (reverse r p.width.toNat) p.width.toNat ^^^ p.xorout) &&& p.mask = (r ^^^ p.xorout) &&& p.mask
    rw [reverse_reverse r hp.width_le]
    exact (sameBelow_and_maskOf r hp.width_le).symm.masked_eq hp p.xorout
  · rfl

theorem Mirrors.value_eq {p : ParamSet} (hp : p.Valid) {t r : Word} (h : Mirrors p t r) :
    tbValue p t = bwValue p r :=
  (h.sameBelow.value_eq hp (p.refout ≠ p.refin) p.xorout).trans (tbValue_tableOrder hp r)

/-- Settles O47: the start values mirror each other, each byte keeps that, and then the values are the same. -/
theorem enginesAgree : Obligations.EnginesAgree := fun _ bytes hp =>
  ((mirrors_start hp).run hp bytes).value_eq hp

end Sys2Proof.Machine

/-! The words of `TB_BIND` and `TABLE_READ` (30_encoding R85). -/

namespace Sys2Proof

theorem decode_tbBind (c : BitVec 8) (d0 d1 : Word) :
    decode ⟨BitVec.ofNat 32 (0x11 + 0x100 * c.toNat), d0, d1⟩ = .ok (.tbBind c) := by
  have hdec := decode_ofNat_ctx .tbBind c d0 d1 rfl
  rwa [Opcode.operands, ctxField_cmdWord] at hdec

/-- The word of a row that takes a context and an immediate, written as a number (30_encoding R81, R85). -/
theorem decode_ofNat_ctx_imm (o : Opcode) (c imm : BitVec 8) (d0 d1 : Word) (hctx : o.takesCtx = true)
    (himm : o.takesImm = true) (hw : o ≠ .reflect) :
    decode ⟨BitVec.ofNat 32 (o.code.toNat + 0x100 * c.toNat + 0x10000 * imm.toNat), d0, d1⟩ =
      .ok (o.operands ⟨cmdWord o.code c imm, d0, d1⟩) := by
  rw [ofNat_eq_cmdWord]
  exact decode_cmdWord o c imm d0 d1 (fun h => nomatch hctx.symm.trans h) (fun h => nomatch himm.symm.trans h)
    fun h => absurd h hw

theorem decode_tableRead (c i : BitVec 8) (d0 d1 : Word) :
    decode ⟨BitVec.ofNat 32 (0x18 + 0x100 * c.toNat + 0x10000 * i.toNat), d0, d1⟩ = .ok (.tableRead c i) := by
  have hdec := decode_ofNat_ctx_imm .tableRead c i d0 d1 rfl rfl nofun
  rwa [Opcode.operands, ctxField_cmdWord, immField_cmdWord] at hdec

end Sys2Proof

/-! The table engine's commands: `TB_BIND`, `TABLE_READ`, and a run fed from reset to either engine (43_table_engine
R158 to R160). -/

namespace Sys2Proof.Machine

/-! ### `TB_BIND` -/

theorem exec_tbBind_of_no_params {s : State} {c : BitVec 8} (hc : c.toNat < s.ctx.length) (h : s.apsValid = false) :
    exec (.tbBind c) s = .next (s.failed 4#8 0#64 0#64 0#64) := by
  rw [exec, execTbBind, onContext_of_lt c s _ hc, if_neg (by simp [h])]
  rfl

theorem exec_tbBind_of_hit {s : State} {c : BitVec 8} {k : Nat} (hc : c.toNat < s.ctx.length) (h : s.apsValid = true)
    (hl : lookup s.slots s.aps = .hit k) :
    exec (.tbBind c) s =
      .next (State.answer
        { s with ctx := s.ctx.set c.toNat (tbContext s.aps k), cacheHits := s.cacheHits + 1#64 } 0#8 0#64 0#64) := by
  rw [exec, execTbBind, onContext_of_lt c s _ hc, if_pos h, hl]
  rfl

theorem exec_tbBind_of_miss {s : State} {c : BitVec 8} {k : Nat} (hc : c.toNat < s.ctx.length) (h : s.apsValid = true)
    (hl : lookup s.slots s.aps = .miss k) :
    exec (.tbBind c) s =
      .next (State.answer
        { s with
          ctx := s.ctx.set c.toNat (tbContext s.aps k)
          slots := s.slots.set k (builtSlot s.aps)
          cacheBuilds := s.cacheBuilds + 1#64 } 0#8 0#64 0#64) := by
  rw [exec, execTbBind, onContext_of_lt c s _ hc, if_pos h, hl]
  rfl

theorem exec_tbBind_of_full {s : State} {c : BitVec 8} (hc : c.toNat < s.ctx.length) (h : s.apsValid = true)
    (hl : lookup s.slots s.aps = .full) :
    exec (.tbBind c) s = .next (s.failed 8#8 (c.setWidth 64) (BitVec.ofNat 64 s.slots.length) 0#64) := by
  rw [exec, execTbBind, onContext_of_lt c s _ hc, if_pos h, hl]
  rfl

/-- Settles O18: the two checks, and then the three answers of the lookup. -/
theorem tbBindServesBuildsOrFails : Obligations.TbBindServesBuildsOrFails := by
  refine ⟨decode_tbBind, illegalWhen_imm_or_rsv (by decide), fun s c =>
    ⟨contextCommandsCheckRange (.tbBind c) c s rfl, exec_tbBind_of_no_params, ?hit, ?miss, ?full⟩⟩
  case hit =>
    intro k sl hc hv hsl hvalid hkey hfirst
    exact exec_tbBind_of_hit hc hv ((lookup_eq_hit _ _ k).2 ⟨⟨sl, hsl, hvalid, hkey⟩, hfirst⟩)
  case miss =>
    intro k sl hc hv hno hsl hinvalid hlowest
    exact exec_tbBind_of_miss hc hv ((lookup_eq_miss _ _ k).2 ⟨hno, ⟨sl, hsl, hinvalid⟩, hlowest⟩)
  case full =>
    intro hc hv hno hall
    exact exec_tbBind_of_full hc hv ((lookup_eq_full _ _).2 ⟨hno, hall⟩)

/-! ### A good context, by its kind -/

theorem Context.Ok.bitwise {slots : List Slot} {x : Context} (h : x.Ok slots) (hk : x.kind = .bitwise) :
    x.ps.Valid ∧ x.start = x.ps.init ∧ x.slot = 0#8 := by
  simpa only [Context.Ok, hk] using h

theorem Context.Ok.table {slots : List Slot} {x : Context} (h : x.Ok slots) (hk : x.kind = .table) :
    x.ps.Valid ∧ x.start = tbStart x.ps ∧ x.RegFits ∧
      ∃ sl, slots[x.slot.toNat]? = some sl ∧ sl.valid = true ∧ sl.key = x.ps := by
  simpa only [Context.Ok, hk] using h

/-! ### `TABLE_READ` -/

theorem illegalWhen_rsv (op : Nat) : IllegalWhen op fun _ _ rsv => rsv ≠ 0 :=
  illegalWhen_of_malformed fun _ _ _ hrsv => .inr (.inl hrsv)

/-- `CTX_UNBOUND`, the check that a command on a bound context makes second (44_context_commands R181). -/
theorem onBound_of_getElem?_none {s : State} {c : BitVec 8} {x : Context} (hx : s.ctx[c.toNat]? = some x)
    (hk : x.kind = .none) (act : Context → State) :
    onBound c s act = s.failed 6#8 (c.setWidth 64) 0#64 0#64 :=
  onBound_of_none c s act (s.lt_of_getElem? _ x hx) ((s.ctxAt_of_getElem? _ x hx).symm ▸ hk)

theorem onBound_of_getElem?_bound {s : State} {c : BitVec 8} {x : Context} (hx : s.ctx[c.toNat]? = some x)
    (hk : x.kind ≠ .none) (act : Context → State) : onBound c s act = act x := by
  have hat := s.ctxAt_of_getElem? _ x hx
  rw [onBound_of_bound c s act (s.lt_of_getElem? _ x hx) (hat ▸ hk), hat]

theorem exec_tableRead_of_bitwise {s : State} {c i : BitVec 8} {x : Context} (hx : s.ctx[c.toNat]? = some x)
    (hk : x.kind = .bitwise) :
    exec (.tableRead c i) s = .next (s.failed 7#8 (c.setWidth 64) 1#64 0#64) := by
  rw [exec, execTableRead, onBound_of_getElem?_bound hx (by simp [hk]), if_pos (by simp [hk]), hk]
  rfl

theorem exec_tableRead_of_table {s : State} {c i : BitVec 8} {x : Context} (hx : s.ctx[c.toNat]? = some x)
    (hk : x.kind = .table) :
    exec (.tableRead c i) s =
      .next (s.answer 0#8 ((s.slotAt x.slot.toNat).table.getD i.toNat 0#64) 0#64) := by
  rw [exec, execTableRead, onBound_of_getElem?_bound hx (by simp [hk]), if_neg (by simp [hk]), respondOk_eq_answer]

/-- A table context of a good block reads the table generated for its own set (43_table_engine R158, R159). -/
theorem State.BlockInv.exec_tableRead {s : State} (hs : s.BlockInv) {c i : BitVec 8} {x : Context}
    (hx : s.ctx[c.toNat]? = some x) (hk : x.kind = .table) :
    exec (.tableRead c i) s = .next (s.answer 0#8 (tableEntry x.ps i.toNat) 0#64) := by
  have hok := hs.ctx_ok x (List.mem_of_getElem? hx)
  rw [exec_tableRead_of_table hx hk, Context.table_eq hs.slots_ok hok hk, tableGen_getD _ _ i.isLt]

/-- Settles O27: the entry of the generated table is, by definition, the value of that engine. -/
theorem tableReadAnswersGeneratedEntry : Obligations.TableReadAnswersGeneratedEntry := by
  intro s c i x hs hx hk
  rw [hs.exec_tableRead hx hk, tableEntry, BitVec.ofNat_toNat, BitVec.setWidth_eq]
  rfl

/-- Settles O26: the checks on the context's kind, then the entry, and the entry 0 of a generated table. -/
theorem tableReadAnswersEntry : Obligations.TableReadAnswersEntry := by
  refine ⟨decode_tableRead, illegalWhen_rsv 0x18, fun s c i =>
    ⟨contextCommandsCheckRange (.tableRead c i) c s rfl, fun x hx =>
      ⟨fun hk => congrArg _ (onBound_of_getElem?_none hx hk _), exec_tableRead_of_bitwise hx, ?entry, ?good⟩⟩⟩
  case entry =>
    intro sl e hk hsl he
    rw [exec_tableRead_of_table hx hk, s.slotAt_of_getElem? _ _ hsl, List.getD_eq_getElem?_getD, he, Option.getD_some]
  case good =>
    intro hs hk
    obtain ⟨hp, -, -, sl, hsl, hvalid, -⟩ := (hs.ctx_ok x (List.mem_of_getElem? hx)).table hk
    have hlen := (hs.slots_ok sl (List.mem_of_getElem? hsl)).table_length
    refine ⟨⟨sl, hsl, hvalid, hlen⟩, ?_⟩
    rw [hs.exec_tableRead hx hk, BitVec.toNat_zero, tableEntry_zero hp]

/-! ### A run fed from reset -/

theorem exec_reset_of_bound {s : State} {c : BitVec 8} {x : Context} (hx : s.ctx[c.toNat]? = some x)
    (hk : x.kind ≠ .none) :
    exec (.reset c) s = .next ((s.setCtx c.toNat { x with reg := x.start }).answer 0#8 0#64 0#64) := by
  rw [exec, execReset, onBound_of_getElem?_bound hx hk, respondOk_eq_answer]

theorem exec_value_of_bound {s : State} {c : BitVec 8} {x : Context} (hx : s.ctx[c.toNat]? = some x)
    (hk : x.kind ≠ .none) : exec (.value c) s = .next (s.answer 0#8 (ctxValue x) 0#64) := by
  rw [exec, execValue, onBound_of_getElem?_bound hx hk, respondOk_eq_answer]

/-- The bytes of a run of the input memory, in rising address order (44_context_commands R185). -/
def State.inputRun (s : State) (off len : Word) : List Byte :=
  (List.range len.toNat).map fun k => s.imem.read (off.toNat + k)

/-- `UPDATE_BLOCK` feeds the run as the input memory holds it, when no other agent writes meanwhile. -/
theorem exec_updateBlock_of_quiet {s : State} {c : BitVec 8} {off len : Word} {x : Context}
    (hx : s.ctx[c.toNat]? = some x) (hk : x.kind ≠ .none) (hquiet : s.racing = [])
    (hrange : off.toNat + len.toNat ≤ s.imemBytes) :
    exec (.updateBlock c off len) s =
      .next ((s.setCtx c.toNat { x with reg := runReg s x (s.inputRun off len) }).answer 0#8 0#64 0#64) := by
  rw [exec, execUpdateBlock, onBound_of_getElem?_bound hx hk, if_neg (Nat.not_lt.2 hrange),
    feedRun_of_quiet _ _ _ _ (s.lt_of_getElem? _ x hx) hquiet, s.ctxAt_of_getElem? _ x hx, respondOk_eq_answer,
    State.inputRun]

/-- A context after its engine was reset and fed these bytes. -/
def Context.fedFromStart (s : State) (x : Context) (bytes : List Byte) : Context :=
  { x with reg := runReg s { x with reg := x.start } bytes }

/-- The state after `RESET c` and `UPDATE_BLOCK c, off, len` on the context `x`. -/
def State.fedFromStart (s : State) (c : BitVec 8) (x : Context) (off len : Word) : State :=
  { s.setCtx c.toNat (x.fedFromStart s (s.inputRun off len)) with
    responses := s.responses ++ [⟨0#8, 0#64, 0#64⟩, ⟨0#8, 0#64, 0#64⟩] }

theorem State.getElem?_fedFromStart_same {s : State} {c : BitVec 8} {x : Context} (hx : s.ctx[c.toNat]? = some x)
    (off len : Word) :
    (s.fedFromStart c x off len).ctx[c.toNat]? = some (x.fedFromStart s (s.inputRun off len)) :=
  List.getElem?_set_self (s.lt_of_getElem? _ x hx)

theorem State.getElem?_fedFromStart_other (s : State) {c d : BitVec 8} (h : c ≠ d) (x : Context) (off len : Word) :
    (s.fedFromStart c x off len).ctx[d.toNat]? = s.ctx[d.toNat]? :=
  List.getElem?_set_ne fun he => h (BitVec.eq_of_toNat_eq he)

theorem execAll_reset_updateBlock {s : State} {c : BitVec 8} {off len : Word} {x : Context}
    (hx : s.ctx[c.toNat]? = some x) (hk : x.kind ≠ .none) (hquiet : s.racing = [])
    (hrange : off.toNat + len.toNat ≤ s.imemBytes) (rest : List Instr) :
    execAll (.reset c :: .updateBlock c off len :: rest) s = execAll rest (s.fedFromStart c x off len) := by
  have hc := s.lt_of_getElem? _ x hx
  rw [execAll_cons (exec_reset_of_bound hx hk)]
  set s1 := (s.setCtx c.toNat { x with reg := x.start }).answer 0#8 0#64 0#64
  have hx1 : s1.ctx[c.toNat]? = some { x with reg := x.start } := List.getElem?_set_self hc
  rw [execAll_cons (exec_updateBlock_of_quiet hx1 hk hquiet hrange), runReg_congr s s1 rfl]
  simp [s1, State.fedFromStart, Context.fedFromStart, State.answer, State.setCtx, State.inputRun]

/-- After a run from reset both engines have the value of the bitwise one (43_table_engine R160). -/
theorem ctxValue_fedFromStart {s : State} (hslots : ∀ sl ∈ s.slots, sl.Ok) {x : Context} (hx : x.Ok s.slots)
    (hk : x.kind ≠ .none) (bytes : List Byte) :
    ctxValue (x.fedFromStart s bytes) = bwValue x.ps (bwRun x.ps x.ps.init bytes) := by
  cases hkind : x.kind with
  | none => exact absurd hkind hk
  | bitwise =>
    obtain ⟨-, hstart, -⟩ := hx.bitwise hkind
    simp only [ctxValue, Context.fedFromStart, runReg, hkind, hstart]
  | table =>
    obtain ⟨hp, hstart, -⟩ := hx.table hkind
    simp only [ctxValue, Context.fedFromStart, runReg, hkind, hstart, Context.table_eq hslots hx hkind,
      enginesAgree x.ps bytes hp]

theorem execAll_value_value {s : State} {c d : BitVec 8} {x y : Context} (hx : s.ctx[c.toNat]? = some x)
    (hkx : x.kind ≠ .none) (hy : s.ctx[d.toNat]? = some y) (hky : y.kind ≠ .none) :
    execAll [.value c, .value d] s = .next ((s.answer 0#8 (ctxValue x) 0#64).answer 0#8 (ctxValue y) 0#64) := by
  have hvalue := exec_value_of_bound (s := s.answer 0#8 (ctxValue x) 0#64) hy hky
  rw [execAll_cons (exec_value_of_bound hx hkx), execAll_cons hvalue, execAll]

/-- Settles O51: each context is fed the run from reset without the other's being touched, and then both hold the value
of the bitwise engine. -/
theorem resetUpdateValueAgreeAcrossEngines : Obligations.ResetUpdateValueAgreeAcrossEngines := by
  intro s c d off len x y hs hquiet hne hx hy hkx hky hps hrange
  have hkx' : x.kind ≠ .none := by simp [hkx]
  have hky' : y.kind ≠ .none := by simp [hky]
  have hvx := ctxValue_fedFromStart hs.slots_ok (hs.ctx_ok x (List.mem_of_getElem? hx)) hkx' (s.inputRun off len)
  set s1 := s.fedFromStart c x off len
  have hy1 : s1.ctx[d.toNat]? = some y := (s.getElem?_fedFromStart_other hne x off len).trans hy
  have hvy := ctxValue_fedFromStart (s := s1) hs.slots_ok (hs.ctx_ok y (List.mem_of_getElem? hy)) hky'
    (s.inputRun off len)
  set s2 := s1.fedFromStart d y off len
  have hx2 : s2.ctx[c.toNat]? = some (x.fedFromStart s (s.inputRun off len)) :=
    (s1.getElem?_fedFromStart_other hne.symm y off len).trans (State.getElem?_fedFromStart_same hx off len)
  have hy2 : s2.ctx[d.toNat]? = some (y.fedFromStart s1 (s.inputRun off len)) :=
    State.getElem?_fedFromStart_same hy1 off len
  rw [execAll_reset_updateBlock hx hkx' hquiet hrange, execAll_reset_updateBlock hy1 hky' hquiet hrange,
    execAll_value_value hx2 hkx' hy2 hky', hvx, hvy, hps]
  refine ⟨_, bwValue y.ps (bwRun y.ps y.ps.init (s.inputRun off len)), rfl, ?_⟩
  simp [s2, s1, State.fedFromStart]

end Sys2Proof.Machine

/-! The words of the context commands (30_encoding R85). -/

namespace Sys2Proof

/-- A word of a row that takes a context and no immediate decodes to the command that its operand rule makes of that
context (30_encoding R83). -/
theorem decode_of_ctx {o : Opcode} {c : BitVec 8} {d0 d1 : Word} {i : Instr} (hctx : o.takesCtx = true)
    (hi : ∀ cmd, ctxField cmd = c → o.operands ⟨cmd, d0, d1⟩ = i) :
    decode ⟨BitVec.ofNat 32 (o.code.toNat + 0x100 * c.toNat), d0, d1⟩ = .ok i := by
  rw [decode_ofNat_ctx o c d0 d1 hctx, hi _ (ctxField_cmdWord o.code c 0#8)]

/-- The same for a row that takes an immediate also. -/
theorem decode_of_ctx_imm {o : Opcode} {c imm : BitVec 8} {d0 d1 : Word} {i : Instr} (hctx : o.takesCtx = true)
    (himm : o.takesImm = true) (hw : o ≠ .reflect)
    (hi : ∀ cmd, ctxField cmd = c → immField cmd = imm → o.operands ⟨cmd, d0, d1⟩ = i) :
    decode ⟨BitVec.ofNat 32 (o.code.toNat + 0x100 * c.toNat + 0x10000 * imm.toNat), d0, d1⟩ = .ok i := by
  rw [decode_ofNat_ctx_imm o c imm d0 d1 hctx himm hw,
    hi _ (ctxField_cmdWord o.code c imm) (immField_cmdWord o.code c imm)]

theorem decode_unbind (c : BitVec 8) (d0 d1 : Word) :
    decode ⟨BitVec.ofNat 32 (0x12 + 0x100 * c.toNat), d0, d1⟩ = .ok (.unbind c) :=
  decode_of_ctx (o := .unbind) rfl fun _ hc => congrArg Instr.unbind hc

theorem decode_reset (c : BitVec 8) (d0 d1 : Word) :
    decode ⟨BitVec.ofNat 32 (0x13 + 0x100 * c.toNat), d0, d1⟩ = .ok (.reset c) :=
  decode_of_ctx (o := .reset) rfl fun _ hc => congrArg Instr.reset hc

theorem decode_updateByte (c b : BitVec 8) (d0 d1 : Word) :
    decode ⟨BitVec.ofNat 32 (0x14 + 0x100 * c.toNat + 0x10000 * b.toNat), d0, d1⟩ = .ok (.updateByte c b) :=
  decode_of_ctx_imm (o := .updateByte) rfl rfl nofun fun _ hc hb => congrArg₂ Instr.updateByte hc hb

theorem decode_updateBlock (c : BitVec 8) (d0 d1 : Word) :
    decode ⟨BitVec.ofNat 32 (0x15 + 0x100 * c.toNat), d0, d1⟩ = .ok (.updateBlock c d0 d1) :=
  decode_of_ctx (o := .updateBlock) rfl fun _ hc => congrArg (Instr.updateBlock · d0 d1) hc

theorem decode_value (c : BitVec 8) (d0 d1 : Word) :
    decode ⟨BitVec.ofNat 32 (0x16 + 0x100 * c.toNat), d0, d1⟩ = .ok (.value c) :=
  decode_of_ctx (o := .value) rfl fun _ hc => congrArg Instr.value hc

theorem decode_ctxRead (c sel : BitVec 8) (d0 d1 : Word) :
    decode ⟨BitVec.ofNat 32 (0x17 + 0x100 * c.toNat + 0x10000 * sel.toNat), d0, d1⟩ = .ok (.ctxRead c sel) :=
  decode_of_ctx_imm (o := .ctxRead) rfl rfl nofun fun _ hc hsel => congrArg₂ Instr.ctxRead hc hsel

end Sys2Proof

/-! The context commands (44_context_commands): what each does to the context it names, and what sequences of them
leave. -/

namespace Sys2Proof.Machine

/-! ### `UNBIND` and `RESET` -/

theorem exec_unbind_of_lt {s : State} {c : BitVec 8} (hc : c.toNat < s.ctx.length) :
    exec (.unbind c) s = .next ((s.setCtx c.toNat .unbound).answer 0#8 0#64 0#64) := by
  rw [exec, execUnbind, onContext_of_lt c s _ hc, respondOk_eq_answer]

theorem Context.Ok.eq_unbound {slots : List Slot} {x : Context} (h : x.Ok slots) (hk : x.kind = .none) :
    x = Context.unbound := by
  simpa only [Context.Ok, hk] using h

theorem State.setCtx_of_getElem? {s : State} {c : Nat} {x : Context} (hx : s.ctx[c]? = some x) : s.setCtx c x = s :=
  s.ctxAt_of_getElem? c x hx ▸ s.setCtx_ctxAt_self c (s.lt_of_getElem? c x hx)

/-- Settles O19: the context becomes the unbound one, which an unbound context of a good block is already. -/
theorem unbindClearsContext : Obligations.UnbindClearsContext := by
  refine ⟨decode_unbind, illegalWhen_imm_or_rsv (by decide), fun s c =>
    ⟨contextCommandsCheckRange (.unbind c) c s rfl, exec_unbind_of_lt, fun x hs hx hk => ?_⟩⟩
  obtain rfl := (hs.ctx_ok x (List.mem_of_getElem? hx)).eq_unbound hk
  rw [exec_unbind_of_lt (s.lt_of_getElem? _ _ hx), State.setCtx_of_getElem? hx]

/-- Settles O20: the two checks of a command on a bound context, and then its effect. -/
theorem engineResetReloadsStart : Obligations.EngineResetReloadsStart :=
  ⟨decode_reset, illegalWhen_imm_or_rsv (by decide), fun s c =>
    ⟨contextCommandsCheckRange (.reset c) c s rfl, fun _ hx =>
      ⟨fun hk => congrArg _ (onBound_of_getElem?_none hx hk _), exec_reset_of_bound hx⟩⟩⟩

/-! ### `UPDATE_BYTE` -/

theorem exec_updateByte_of_bound {s : State} {c b : BitVec 8} {x : Context} (hx : s.ctx[c.toNat]? = some x)
    (hk : x.kind ≠ .none) :
    exec (.updateByte c b) s =
      .next ((s.setCtx c.toNat { x with reg := stepReg s x b }).answer 0#8 0#64 0#64) := by
  rw [exec, execUpdateByte, onBound_of_getElem?_bound hx hk, stepCtx_eq, s.ctxAt_of_getElem? _ _ hx,
    respondOk_eq_answer]

theorem shiftLeft_eq_ofNat (v : Word) (k : Nat) : v <<< k = BitVec.ofNat 64 (v.toNat * 2 ^ k) := by
  apply BitVec.eq_of_toNat_eq
  rw [BitVec.toNat_shiftLeft, BitVec.toNat_ofNat, Nat.shiftLeft_eq]

theorem ushiftRight_eq_ofNat (v : Word) (k : Nat) : v >>> k = BitVec.ofNat 64 (v.toNat / 2 ^ k) := by
  apply BitVec.eq_of_toNat_eq
  rw [BitVec.toNat_ushiftRight, BitVec.toNat_ofNat, Nat.shiftRight_eq_div_pow,
    Nat.mod_eq_of_lt (Nat.lt_of_le_of_lt (Nat.div_le_self _ _) v.isLt)]

/-- A table is read at the low byte of its index, so an index wider than a word need not be cut first. -/
theorem tableAt_xor_ofNat (t : List Word) (b : Byte) (n : Nat) :
    tableAt t (b.setWidth 64 ^^^ BitVec.ofNat 64 n) = t.getD ((b.toNat ^^^ n) % 256) 0#64 := by
  have hindex : ((b.setWidth 64 ^^^ BitVec.ofNat 64 n) &&& maskOf 8).toNat = (b.toNat ^^^ n) % 2 ^ 8 := by
    rw [toNat_and_maskOf _ 8 (by decide), BitVec.toNat_xor, BitVec.toNat_setWidth, BitVec.toNat_ofNat,
      Nat.xor_mod_two_pow, Nat.xor_mod_two_pow, Nat.mod_mod_of_dvd _ (by decide), Nat.mod_mod_of_dvd _ (by decide)]
  exact congrArg (fun i => t.getD i 0#64) hindex

/-- The three cases of a table step on numbers (43_table_engine R154). -/
theorem tbStep_eq_ofNat (p : ParamSet) (t : List Word) (reg : Word) (b : Byte) :
    tbStep p t reg b =
      if p.refin = true then
        BitVec.ofNat 64 (reg.toNat / 256) ^^^ t.getD ((b.toNat ^^^ reg.toNat) % 256) 0
      else if p.width.toNat < 8 then t.getD ((b.toNat ^^^ reg.toNat * 2 ^ (8 - p.width.toNat)) % 256) 0
      else
        t.getD ((b.toNat ^^^ reg.toNat / 2 ^ (p.width.toNat - 8)) % 256) 0 ^^^ BitVec.ofNat 64 (reg.toNat * 256) := by
  have hself : tableAt t (b.setWidth 64 ^^^ reg) = t.getD ((b.toNat ^^^ reg.toNat) % 256) 0#64 := by
    rw [← tableAt_xor_ofNat, BitVec.ofNat_toNat, BitVec.setWidth_eq]
  rw [tbStep, hself]
  simp only [shiftLeft_eq_ofNat, ushiftRight_eq_ofNat, tableAt_xor_ofNat]
  rfl

/-- Settles O21: the step of the context's kind, a table engine's read as numbers. -/
theorem updateByteStepsEngine : Obligations.UpdateByteStepsEngine := by
  refine ⟨decode_updateByte, illegalWhen_rsv 0x14, fun s c b =>
    ⟨contextCommandsCheckRange (.updateByte c b) c s rfl, fun x hx =>
      ⟨fun hk => congrArg _ (onBound_of_getElem?_none hx hk _), fun hk => ?_, fun sl hk hsl => ?_⟩⟩⟩
  · rw [exec_updateByte_of_bound hx (by simp [hk]), stepReg, hk]
    rfl
  · rw [exec_updateByte_of_bound hx (by simp [hk]), stepReg, hk, s.slotAt_of_getElem? _ _ hsl, ← tbStep_eq_ofNat]
    rfl

/-! ### `UPDATE_BLOCK` -/

theorem exec_updateBlock_of_outside {s : State} {c : BitVec 8} {off len : Word} {x : Context}
    (hx : s.ctx[c.toNat]? = some x) (hk : x.kind ≠ .none) (hrange : s.imemBytes < off.toNat + len.toNat) :
    exec (.updateBlock c off len) s = .next (s.failed 10#8 off len 0#64) := by
  rw [exec, execUpdateBlock, onBound_of_getElem?_bound hx hk, if_pos hrange, raiseError_eq_failed, ErrCode.code]

/-- With no other agent writing, no byte is drawn, so the draw counter stays. -/
theorem exec_updateBlock_of_bound_draws {s : State} {c : BitVec 8} {off len : Word} {x : Context}
    (hx : s.ctx[c.toNat]? = some x) (hk : x.kind ≠ .none) (hrange : off.toNat + len.toNat ≤ s.imemBytes) :
    ∃ (bytes : List Byte) (d : Nat), bytes.length = len.toNat ∧
      (∀ (k : Nat) (y : Byte), bytes[k]? = some y →
        y = s.imem.read (off.toNat + k) ∨ (off.toNat + k, y) ∈ s.racing) ∧
      (s.racing = [] → d = s.draws) ∧
      exec (.updateBlock c off len) s =
        .next (State.answer { s with ctx := s.ctx.set c.toNat { x with reg := runReg s x bytes }, draws := d }
          0#8 0#64 0#64) := by
  obtain ⟨bytes, d, hlen, hbytes, hexec⟩ := exec_updateBlock_of_bound hx hk hrange
  refine ⟨bytes, d, hlen, hbytes, fun hquiet => ?_, hexec⟩
  rw [exec_updateBlock_of_quiet hx hk hquiet hrange, Host.Outcome.next.injEq] at hexec
  exact (congrArg State.draws hexec).symm

/-- Settles O22: the three checks in their order, and then the run. -/
theorem updateBlockFeedsRun : Obligations.UpdateBlockFeedsRun :=
  ⟨decode_updateBlock, illegalWhen_imm_or_rsv (by decide), fun s c off len =>
    ⟨contextCommandsCheckRange (.updateBlock c off len) c s rfl, fun _ hx =>
      ⟨fun hk => congrArg _ (onBound_of_getElem?_none hx hk _), exec_updateBlock_of_outside hx,
        exec_updateBlock_of_bound_draws hx⟩⟩⟩

/-! ### `VALUE` -/

/-- The value of a bound context: the two engines differ in when they reflect the register (44_context_commands
R180). -/
theorem ctxValue_of_bound {x : Context} (hk : x.kind ≠ .none) :
    ctxValue x =
      ((if (x.kind = .bitwise ∧ x.ps.refout = true) ∨ (x.kind = .table ∧ x.ps.refout ≠ x.ps.refin) then
          reverse x.reg x.ps.width.toNat else x.reg) ^^^ x.ps.xorout) &&& x.ps.mask := by
  unfold ctxValue
  cases hkind : x.kind with
  | none => exact absurd hkind hk
  | bitwise => simp [bwValue]
  | table => simp [tbValue]

theorem getLsbD_maskedValue {p : ParamSet} (hp : p.Valid) (reg : Word) (c : Prop) [Decidable c] (j : Nat) :
    (((if c then reverse reg p.width.toNat else reg) ^^^ p.xorout) &&& p.mask).getLsbD j =
      (decide (j < p.width.toNat) &&
        xor (reg.getLsbD (if c then p.width.toNat - 1 - j else j)) (p.xorout.getLsbD j)) := by
  rw [BitVec.getLsbD_and, BitVec.getLsbD_xor, hp.getLsbD_mask]
  by_cases hj : j < p.width.toNat
  · rw [decide_eq_true hj, Bool.and_true, Bool.true_and]
    split
    · rw [getLsbD_reverse _ _ _ hp.width_le, decide_eq_true hj, Bool.true_and]
    · rfl
  · rw [decide_eq_false hj, Bool.and_false, Bool.false_and]

/-- Settles O24: the value of either engine is reflected or not, XORed and masked, and each has its bits. -/
theorem valueAnswersCrc : Obligations.ValueAnswersCrc := by
  refine ⟨decode_value, illegalWhen_imm_or_rsv (by decide), fun s c =>
    ⟨contextCommandsCheckRange (.value c) c s rfl, fun x hx =>
      ⟨fun hk => congrArg _ (onBound_of_getElem?_none hx hk _), fun hk hp =>
        ⟨ctxValue x, exec_value_of_bound hx hk, fun j => ?_⟩⟩⟩⟩
  rw [ctxValue_of_bound hk, getLsbD_maskedValue hp]

/-! ### `CTX_READ` -/

theorem exec_ctxRead_of_unmapped {s : State} {c sel : BitVec 8} (hc : c.toNat < s.ctx.length)
    (h : ∀ f : CtxField, f.sel ≠ sel) :
    exec (.ctxRead c sel) s = .next (s.failed 9#8 (sel.setWidth 64) 0#64 0#64) := by
  rw [exec, execCtxRead, onContext_of_lt c s _ hc, (CtxField.ofSel_eq_none sel).2 h]
  rfl

/-- `KIND` reads on every context, the other fields after the check of `CTX_UNBOUND` (44_context_commands R187). -/
theorem exec_ctxRead_sel {s : State} {c : BitVec 8} {x : Context} (hx : s.ctx[c.toNat]? = some x) (f : CtxField) :
    exec (.ctxRead c f.sel) s =
      .next (if f = .kind then s.answer 0#8 (f.content x) 0#64
        else ifBound c x s (s.answer 0#8 (f.content x) 0#64)) := by
  rw [exec, execCtxRead, onContext_of_lt c s _ (s.lt_of_getElem? _ x hx), s.ctxAt_of_getElem? _ x hx,
    CtxField.ofSel_sel]
  cases f <;> rfl

theorem exec_ctxRead_sel_of_bound {s : State} {c : BitVec 8} {x : Context} (hx : s.ctx[c.toNat]? = some x)
    (hk : x.kind ≠ .none) (f : CtxField) :
    exec (.ctxRead c f.sel) s = .next (s.answer 0#8 (f.content x) 0#64) := by
  rw [exec_ctxRead_sel hx, ifBound_of_bound c x s _ hk, ite_self]

theorem CtxField.exists_sel :
    ∀ sel : BitVec 8, sel.toNat ≤ 0x0B → sel ≠ 0x09#8 → ∃ f ∈ CtxField.all, f ≠ .kind ∧ f.sel = sel := by
  decide

theorem CtxField.sel_le (f : CtxField) : f.sel.toNat ≤ 0x0B := by cases f <;> decide

theorem exec_ctxRead_of_none {s : State} {c sel : BitVec 8} {x : Context} (hx : s.ctx[c.toNat]? = some x)
    (hk : x.kind = .none) (hle : sel.toNat ≤ 0x0B) (hne : sel ≠ 0x09#8) :
    exec (.ctxRead c sel) s = .next (s.failed 6#8 (c.setWidth 64) 0#64 0#64) := by
  obtain ⟨f, -, hf, rfl⟩ := CtxField.exists_sel sel hle hne
  rw [exec_ctxRead_sel hx, if_neg hf, ifBound_of_none c x s _ hk]

/-- Settles O25: a reserved selector is no field's, `KIND` is read before the check of `CTX_UNBOUND`, and the list is
the other eleven fields. -/
theorem ctxReadAnswersField : Obligations.CtxReadAnswersField := by
  refine ⟨decode_ctxRead, illegalWhen_rsv 0x17, fun s c sel =>
    ⟨contextCommandsCheckRange (.ctxRead c sel) c s rfl, fun x hx =>
      ⟨fun hsel => ?reserved, exec_ctxRead_of_none hx, ?kind, fun hk p hp => ?field, fun hs hk => ?slot⟩⟩⟩
  case reserved =>
    refine exec_ctxRead_of_unmapped (s.lt_of_getElem? _ x hx) ?_
    rintro f rfl
    have := f.sel_le
    omega
  case kind =>
    refine (exec_ctxRead_sel hx .kind).trans ?_
    rw [if_pos rfl, CtxField.content]
    cases x.kind <;> rfl
  case field =>
    have hmap : p ∈ (CtxField.all.filter (· ≠ .kind)).map fun f => (f.sel, f.content x) := by
      simpa [CtxField.all, CtxField.sel, CtxField.content, ParamSet.flagsWord_eq_ofNat] using hp
    obtain ⟨f, -, rfl⟩ := List.mem_map.1 hmap
    exact exec_ctxRead_sel_of_bound hx hk f
  case slot =>
    obtain ⟨-, -, hslot⟩ := (hs.ctx_ok x (List.mem_of_getElem? hx)).bitwise hk
    have hread := exec_ctxRead_sel_of_bound hx (by simp [hk]) .slot
    rwa [CtxField.content, hslot] at hread

/-! ### Bound and unbound contexts -/

/-- Settles O29: each command starts with the check of `CTX_UNBOUND`, and behind it only `UPDATE_BLOCK` can fail, on
its range. -/
theorem unboundContextRaisesBoundNeverFails : Obligations.UnboundContextRaisesBoundNeverFails := by
  intro s c x hx
  constructor
  · rintro hk i (rfl | ⟨b, rfl⟩ | ⟨off, len, rfl⟩ | rfl | ⟨k, rfl⟩ | ⟨sel, rfl, hle, hne⟩)
    case inr.inr.inr.inr.inr => exact exec_ctxRead_of_none hx hk hle hne
    all_goals exact congrArg _ (onBound_of_getElem?_none hx hk _)
  · rintro hk i (rfl | ⟨b, rfl⟩ | ⟨off, len, rfl, hrange⟩ | rfl)
    · exact ⟨_, _, exec_reset_of_bound hx hk, rfl, rfl⟩
    · exact ⟨_, _, exec_updateByte_of_bound hx hk, rfl, rfl⟩
    · obtain ⟨bytes, d, -, -, hexec⟩ := exec_updateBlock_of_bound hx hk hrange
      exact ⟨_, _, hexec, rfl, rfl⟩
    · exact ⟨_, _, exec_value_of_bound hx hk, rfl, rfl⟩

/-! ### Sequences of commands -/

/-- The state after `n` commands that succeeded with data 0 and left `x` in context `c`. -/
def State.fed (s : State) (c : BitVec 8) (x : Context) (n : Nat) : State :=
  { s.setCtx c.toNat x with responses := s.responses ++ List.replicate n ⟨0#8, 0#64, 0#64⟩ }

theorem State.fed_fed (s : State) (c : BitVec 8) (x y : Context) (n m : Nat) :
    (s.fed c x n).fed c y m = s.fed c y (n + m) := by
  simp [State.fed, State.setCtx]

theorem State.getElem?_fed {s : State} {c : BitVec 8} {x : Context} (hx : s.ctx[c.toNat]? = some x) (y : Context)
    (n : Nat) : (s.fed c y n).ctx[c.toNat]? = some y :=
  List.getElem?_set_self (s.lt_of_getElem? _ x hx)

/-- `UPDATE_BYTE` of each byte in turn runs the engine over the bytes (44_context_commands R184). -/
theorem execAll_updateBytes {c : BitVec 8} (bytes : List Byte) {s : State} {x : Context}
    (hx : s.ctx[c.toNat]? = some x) (hk : x.kind ≠ .none) :
    execAll (updateBytes c bytes) s = .next (s.fed c { x with reg := runReg s x bytes } bytes.length) := by
  induction bytes generalizing s x with
  | nil =>
    have hsame : s.fed c x 0 = s := by
      rw [State.fed, State.setCtx_of_getElem? hx, List.replicate_zero, List.append_nil]
    rw [runReg_nil, List.length_nil, hsame]
    rfl
  | cons b bytes ih =>
    have hstep : exec (.updateByte c b) s = .next (s.fed c { x with reg := stepReg s x b } 1) :=
      exec_updateByte_of_bound hx hk
    rw [updateBytes, List.map_cons, execAll_cons hstep, ← updateBytes,
      ih (State.getElem?_fed hx { x with reg := stepReg s x b } 1) hk, State.fed_fed,
      runReg_congr s (s.fed c _ 1) rfl, runReg_cons, List.length_cons, Nat.add_comm]

/-- Settles O48: both run the engine over the bytes of the run, and differ in the number of responses. -/
theorem blockEqualsByteUpdates : Obligations.BlockEqualsByteUpdates := by
  intro s c off len x hx hk hrange hquiet
  refine ⟨_, _, exec_updateBlock_of_quiet hx hk hquiet hrange, execAll_updateBytes (s.inputRun off len) hx hk, rfl, ?_⟩
  rw [State.fed, State.inputRun, List.length_map, List.length_range]
  rfl

/-- A run is its first bytes and then the rest. -/
theorem State.inputRun_append (s : State) {off n m off' nm : Word} (hoff : off'.toNat = off.toNat + n.toNat)
    (hnm : nm.toNat = n.toNat + m.toNat) : s.inputRun off n ++ s.inputRun off' m = s.inputRun off nm := by
  simp only [State.inputRun, hoff, hnm, List.range_add, List.map_append, List.map_map, Function.comp_def,
    Nat.add_assoc]

/-- Settles O49: the engine runs over the bytes of the one block and then over those of the other. -/
theorem blockSplits : Obligations.BlockSplits := by
  intro s c off n m off' nm x hx hk hquiet hrange hoff hnm
  set y : Context := { x with reg := runReg s x (s.inputRun off n) }
  have hfirst : exec (.updateBlock c off n) s = .next (s.fed c y 1) :=
    exec_updateBlock_of_quiet hx hk hquiet (by omega)
  have hsecond := exec_updateBlock_of_quiet (s := s.fed c y 1) (off := off') (len := m) (State.getElem?_fed hx y 1) hk
    hquiet (show off'.toNat + m.toNat ≤ s.imemBytes by omega)
  have hreg : runReg (s.fed c y 1) y ((s.fed c y 1).inputRun off' m) = runReg s x (s.inputRun off nm) := by
    rw [runReg_congr s (s.fed c y 1) rfl, ← s.inputRun_append hoff hnm, runReg_append]
    rfl
  rw [hreg] at hsecond
  refine ⟨_, _, (execAll_cons hfirst _).trans (execAll_cons hsecond []),
    exec_updateBlock_of_quiet hx hk hquiet (by omega), ?_⟩
  simp [y, State.fed, State.setCtx, State.answer]

/-- Settles O50: a reset context is one fed no byte from its start, whose value is the bitwise engine's on its initial
register. -/
theorem valueAfterResetIsEmptyInput : Obligations.ValueAfterResetIsEmptyInput := by
  intro s c x hs hx hk
  have hreset : exec (.reset c) s = .next (s.fed c { x with reg := x.start } 1) := exec_reset_of_bound hx hk
  have hvalue := exec_value_of_bound (State.getElem?_fed hx { x with reg := x.start } 1) hk
  have hempty := ctxValue_fedFromStart hs.slots_ok (hs.ctx_ok x (List.mem_of_getElem? hx)) hk []
  rw [Context.fedFromStart, runReg_nil] at hempty
  rw [hempty] at hvalue
  refine ⟨_, (execAll_cons hreset _).trans (execAll_cons hvalue []), ?_⟩
  simp [State.fed, bwValue, bwRun]

end Sys2Proof.Machine

/-! Exceptions (60_exceptions R201, R204, R207): what a command's response says about the error record it leaves. -/

namespace Sys2Proof.Machine

/-! ### The response of a failure and of a success -/

/-- The one response that a failure adds carries its code and its first two detail words (60_exceptions R201). -/
theorem State.eq_of_failed_responses {s : State} {code : BitVec 8} {d0 d1 d2 : Word} {r : Response}
    (h : (s.failed code d0 d1 d2).responses = s.responses ++ [r]) : r = ⟨code, d0, d1⟩ := by
  rw [State.failed_responses] at h
  exact (List.singleton_inj.1 (List.append_cancel_left h)).symm

/-- The one response that a success adds has code 0 (60_exceptions R200). -/
theorem State.rcode_of_answer_responses {s u : State} (hu : u.responses = s.responses) {d0 d1 : Word} {r : Response}
    (h : (u.answer 0#8 d0 d1).responses = s.responses ++ [r]) : r.rcode = 0#8 := by
  rw [State.answer_responses, hu] at h
  rw [← List.singleton_inj.1 (List.append_cancel_left h)]

/-- A command fails with its response's code, one of its row, and data words, or it answers with code 0. -/
theorem Effect.failed_or_ok {i : Instr} {s t : State} {r : Response} (h : Effect i s t)
    (hr : t.responses = s.responses ++ [r]) :
    (r.rcode ∈ i.mayReturn ∧ ∃ d2, t = s.failed r.rcode r.rdata0 r.rdata1 d2) ∨ r.rcode = 0#8 := by
  cases h with
  | failed _ _ code d0 d1 d2 hmem _ =>
    obtain rfl := State.eq_of_failed_responses hr
    exact .inl ⟨hmem, d2, rfl⟩
  | _ => exact .inr (State.rcode_of_answer_responses rfl hr)

/-- Settles O31: a response whose code is not 0 is a failure's, and a failure writes the error record alone. -/
theorem failedCommandWritesOnlyErrorRecord : Obligations.FailedCommandWritesOnlyErrorRecord := by
  intro i s t r hexec hr herr
  rcases (effect_of_exec hexec).failed_or_ok hr with ⟨-, hfailed⟩ | hok
  · exact hfailed
  · exact absurd hok herr

/-- Settles O33: a failure's code is of the command's row, and so is the code of a success. -/
theorem errorsStayInTheirRow : Obligations.ErrorsStayInTheirRow := by
  intro i s t r hexec hr
  rcases (effect_of_exec hexec).failed_or_ok hr with ⟨hmem, -⟩ | hok
  · exact hmem
  · exact hok ▸ zero_mem_mayReturn i

/-! ### The error record after a success -/

/-- The write that clears is the one effect, a failure apart, that writes the error record (10_state R43). -/
theorem Effect.errorRecord_unchanged {i : Instr} {s t : State} {r : Response} (h : Effect i s t)
    (hr : t.responses = s.responses ++ [r]) (hok : r.rcode = 0#8) (hi : ∀ v, i ≠ .regWrite 0x23#8 v) :
    t.lastErr = s.lastErr ∧ t.errData0 = s.errData0 ∧ t.errData1 = s.errData1 ∧ t.errData2 = s.errData2 := by
  cases h with
  | failed _ _ code d0 d1 d2 _ hne =>
    obtain rfl := State.eq_of_failed_responses hr
    exact absurd hok hne
  | clears v => exact absurd rfl (hi v)
  | _ => exact ⟨rfl, rfl, rfl, rfl⟩

/-- Settles O32: of the effects of a success only the clear writes the error record, and a write of `LAST_ERR` is that
clear. -/
theorem successKeepsErrorRecord : Obligations.SuccessKeepsErrorRecord := by
  intro i s t r hexec hr hok
  refine ⟨(effect_of_exec hexec).errorRecord_unchanged hr hok, ?_⟩
  rintro ⟨v, rfl⟩
  have hclear : exec (.regWrite 0x23#8 v) s = .next (s.clearErr.answer 0#8 0#64 0#64) :=
    exec_regWrite_sel (r := .lastErr) rfl
  rw [hclear] at hexec
  cases hexec
  exact ⟨rfl, rfl, rfl, rfl⟩

end Sys2Proof.Machine

/-! Which context a command may change, and what the hardware reset leaves of the block (70_reset R230, R231, R238). -/

namespace Sys2Proof.Machine

/-! ### A command's one context -/

/-- A command writes no context, or it replaces the one that it names (70_reset R238). -/
theorem Effect.ctx_eq_or_set_named {i : Instr} {s t : State} (h : Effect i s t) :
    t.ctx = s.ctx ∨ ∃ (c : BitVec 8) (x : Context), i.ctxIndex = some c ∧ t.ctx = s.ctx.set c.toNat x := by
  cases h with
  | bwBinds | tbHits | tbBuilds | unbinds | resets | feedsByte | feedsRun => exact .inr ⟨_, _, rfl, rfl⟩
  | failed | reads | stages | clears | commits => exact .inl rfl

/-- Settles O35: replacing the named context leaves the number of contexts and every other one, and a command that names
none replaces none. -/
theorem contextChangesOnlyWhenNamed : Obligations.ContextChangesOnlyWhenNamed := by
  intro i s t h
  rcases (effect_of_exec h).ctx_eq_or_set_named with hctx | ⟨c, x, hc, hctx⟩
  · rw [hctx]
    exact ⟨rfl, fun _ _ => rfl, fun _ => rfl⟩
  · rw [hctx]
    refine ⟨List.length_set, fun d hd => List.getElem?_set_ne (hd c hc), fun hnone => ?_⟩
    cases hc.symm.trans hnone

/-! ### The hardware reset -/

theorem step_of_hardReset {s : State} {inFlight : Option Transaction} {rest : List HostAction}
    (h : s.pending = .hardReset inFlight :: rest) : step s = .next (hardReset { s with pending := rest }) := by
  simp only [step, performNext, h]

/-- After a hardware reset every context is unbound (10_state R50). -/
theorem eq_unbound_of_mem_hardReset {s : State} {x : Context} (h : x ∈ (hardReset s).ctx) : x = .unbound :=
  List.eq_of_mem_replicate h

/-- After a hardware reset every slot is empty (10_state R50). -/
theorem eq_empty_of_mem_hardReset {s : State} {sl : Slot} (h : sl ∈ (hardReset s).slots) : sl = .empty :=
  List.eq_of_mem_replicate h

theorem length_ctx_hardReset (s : State) : (hardReset s).ctx.length = s.ctx.length := List.length_replicate

theorem length_slots_hardReset (s : State) : (hardReset s).slots.length = s.slots.length := List.length_replicate

/-- The constant registers depend on the two parameters alone (70_reset R230). -/
theorem Reg.content_const_congr {s t : State} (hctx : t.ctx.length = s.ctx.length)
    (hslots : t.slots.length = s.slots.length) :
    ∀ r ∈ [Reg.id, Reg.cfgNctx, Reg.cfgTslots], r.content t = r.content s := by
  simp [Reg.content, State.nctx, State.tslots, hctx, hslots]

/-- Settles O9: the step is the reset, whether or not it aborts a command, and the reset fills both lists anew at their
length. -/
theorem hardwareResetRestoresBlock : Obligations.HardwareResetRestoresBlock := by
  intro s inFlight rest h
  refine ⟨_, step_of_hardReset h, rfl, rfl, rfl, rfl, rfl, rfl, rfl, rfl, rfl, length_ctx_hardReset _,
    fun _ => eq_unbound_of_mem_hardReset, length_slots_hardReset _, fun sl hsl => ?_,
    Reg.content_const_congr (length_ctx_hardReset _) (length_slots_hardReset _), rfl, rfl, rfl, rfl⟩
  obtain rfl := eq_empty_of_mem_hardReset hsl
  exact ⟨rfl, rfl⟩

end Sys2Proof.Machine
